-- ==== Sys2Proof/Word.lean ====
section
/-!
DEFINITION. The word types of the block (00_scope.md rules R6, R9; 30_encoding.md rules R91, R99).
-/

namespace Sys2Proof

/-- The data path is 8 bits wide (R6). -/
abbrev Byte := BitVec 8

/-- A memory address: 15 address lines (R6, R60). -/
abbrev Addr := BitVec 15

/-- The block length field and the block counter `BC` (R31, R91). -/
abbrev Len := BitVec 16

/-- One command word (R90). -/
abbrev CmdWord := BitVec 48

/-- One response word (R99). -/
abbrev RspWord := BitVec 16

/-- A level of a wire: 0, 1, or the spec's `X`, "unspecified: any of the two, and not necessarily the same at two
looks" (R9). -/
inductive Level where
  | low
  | high
  | unknown
  deriving DecidableEq, Repr

/-- The direction of the eight data lines: `IN` = 0, `OUT` = 1 (R28). -/
inductive Dir where
  | input
  | output
  deriving DecidableEq, Repr

/-- The name of a chain: chain 1 or chain 2 (R22, R120). -/
inductive ChainId where
  | one
  | two
  deriving DecidableEq, Repr

end Sys2Proof
end

