-- ==== Sys2Proof/Config.lean ====
section
/-!
DEFINITION. What one built block fixes (the configuration record `CFG`, 10_state.md rule R21) and the values the spec
leaves free.
-/

namespace Sys2Proof

/-- `BACKEND` of R21. `unsupplied` is the source's own misconfiguration, "neither a direct-pin nor a chain backend
supplied" (R23); no configuration that passes the checks has it. -/
inductive Backend where
  | direct
  | chain1
  | chain2
  | unsupplied
  deriving DecidableEq, Repr

/-- The three delay points of R8 and R295. -/
inductive Delay where
  | addressSettle
  | writePulse
  | readHold
  deriving DecidableEq, Repr

/-- The configuration record `CFG` (R21): "fixed at construction and immutable afterward". No command changes it. The
three durations are lower bounds in a unit the spec does not name (R8, D28). -/
structure Cfg where
  backend : Backend
  k : Nat
  n1 : Nat
  n2 : Nat
  verify : Bool
  tAS : Nat
  tWP : Nat
  tRD : Nat
  deriving DecidableEq, Repr

/-- The byte of the `n`-th draw `any8()` (R10): a free value, nothing constrains it (log entry 6). -/
opaque Config.freeByte : Nat → Byte

/-- What `BA` holds, dead, from the `n`-th draw on (R31): a free value (log entry 3). -/
opaque Config.freeAddr : Nat → Addr

/-- What `BC` holds, dead, from the `n`-th draw on (R31): a free value (log entry 3). -/
opaque Config.freeLen : Nat → Len

/-- The candidate address of a `KEY_NOT_FOUND` that stands in the event record at place `n` (R262). Which candidate it
names the spec does not state, and R233 emits the event without writing one: a free value (log entry 18). -/
opaque Config.freeCandidate : Nat → Nat

/-- `memByte e a`: what cell `a` holds, unwritten, under the `e`-th arbitrary memory function of R40: a free value
(log entry 5). -/
opaque Config.memByte : Nat → Nat → Byte

/-- The three durations of the configuration that `State.reset` takes: open parameters (R8, D28), free values
(log entry 10). -/
opaque Config.openDelay : Delay → Nat

/-- The configuration `State.reset` takes. DESIGN CHOICE (log entry 1): the spec names no configuration as the one
that is built; `K = 8` is the one value its source states (R7), and two chains make every command live. -/
def Config.chosen : Cfg where
  backend := .chain2
  k := 8
  n1 := 1
  n2 := 1
  verify := false
  tAS := Config.openDelay .addressSettle
  tWP := Config.openDelay .writePulse
  tRD := Config.openDelay .readHold

end Sys2Proof
end

