-- ==== Sys2Proof/Syntax.lean ====
section
/-!
DEFINITION. The 13 commands (30_encoding.md rule R92) and a command with its payload (R97).
-/

namespace Sys2Proof

/-- One constructor per row of the opcode table, operands in the order of the written form (R100). -/
inductive Instr where
  | begin
  | setbit (ch : ChainId) (idx : Byte) (v : Bool)
  | clrall (ch : ChainId)
  | setall (ch : ChainId)
  | flush (ch : ChainId)
  | setaddr (addr : Addr)
  | dmode (dir : Dir)
  | dwrite (data : Byte)
  | dread
  | wrbyte (addr : Addr) (data : Byte)
  | rdbyte (addr : Addr)
  | wrblk (addr : Addr) (len : Len)
  | rdblk (addr : Addr) (len : Len)
  deriving DecidableEq, Repr

/-- What the host sends at the command level: a word's command and its payload bytes (R97). -/
structure Command where
  instr : Instr
  payload : List Byte
  deriving DecidableEq, Repr

end Sys2Proof
end

