-- ==== Sys2Proof/WellFormed.lean ====
section
/-!
DEFINITION. The checks of 10_state.md rule R23 on a configuration, each under its own name, and the payload check of
30_encoding.md rule R97 on a command. A command word's fields are as wide as the table gives them, so every term of
`Instr` is a well-formed command.
-/

namespace Sys2Proof

/-- `backend_present`: `BACKEND` is one of the three values (R23). -/
def Cfg.backendPresent (c : Cfg) : Bool := c.backend != .unsupplied

/-- `k_in_range`: the `K` column of R21. -/
def Cfg.kInRange (c : Cfg) : Bool :=
  match c.backend with
  | .direct => c.k == 0
  | .chain1 => c.k == 15
  | .chain2 => decide (1 ≤ c.k) && decide (c.k ≤ 14)
  | .unsupplied => true

/-- `chain1_wide_enough`: `8*N1 >= K` when a chain exists (R23). -/
def Cfg.chain1WideEnough (c : Cfg) : Bool :=
  match c.backend with
  | .chain1 | .chain2 => decide (c.k ≤ 8 * c.n1)
  | .direct | .unsupplied => true

/-- `chain2_wide_enough`: `8*N2 >= 15 - K` for `CHAIN2` (R23). -/
def Cfg.chain2WideEnough (c : Cfg) : Bool :=
  match c.backend with
  | .chain2 => decide (15 - c.k ≤ 8 * c.n2)
  | .direct | .chain1 | .unsupplied => true

/-- Whether `n` banks are what an existing (`true`) or an absent (`false`) chain may have. -/
def Cfg.bankCountOk (here : Bool) (n : Nat) : Bool :=
  if here then decide (1 ≤ n) && decide (n ≤ 32) else n == 0

/-- `bank_count_in_range`: each existing chain has 1 to 32 banks, an absent chain has 0 (R23). -/
def Cfg.bankCountInRange (c : Cfg) : Bool :=
  match c.backend with
  | .chain1 => Cfg.bankCountOk true c.n1 && Cfg.bankCountOk false c.n2
  | .chain2 => Cfg.bankCountOk true c.n1 && Cfg.bankCountOk true c.n2
  | .direct | .unsupplied => Cfg.bankCountOk false c.n1 && Cfg.bankCountOk false c.n2

/-- A configuration that is not malformed passes all five checks (R23). -/
def Cfg.wf (c : Cfg) : Bool :=
  c.backendPresent && c.kInRange && c.chain1WideEnough && c.chain2WideEnough && c.bankCountInRange

/-- How many payload bytes the host owes for a command: `LEN` for `WRBLK`, none for the others (R97). -/
def Instr.payloadLength : Instr → Nat
  | .wrblk _ len => len.toNat
  | .begin | .setbit _ _ _ | .clrall _ | .setall _ | .flush _ | .setaddr _ | .dmode _ | .dwrite _ | .dread
  | .wrbyte _ _ | .rdbyte _ | .rdblk _ _ => 0

/-- "a pair whose list has another length is not a command" (R97, D33). -/
def Command.wf (c : Command) : Bool := c.payload.length == c.instr.payloadLength

end Sys2Proof
end

