-- ==== Sys2Proof/Decode.lean ====
section
/-!
DEFINITION. The command decoder and encoder (30_encoding.md rules R90 to R95): one layout, fields pulled out once, a
reserved bit or an unused field that is not 0 refused by name.
-/

namespace Sys2Proof

/-- Why a word is illegal (R95). The block answers all of them with the one code `IllegalCommand` (R252). -/
inductive DecodeError where
  /-- `OPC` is 0x0, 0xE or 0xF. -/
  | reservedOpcode (opc : BitVec 4)
  /-- bit 41, 40 or 15 is not 0. -/
  | reservedBits
  /-- a field the command does not use is not 0. -/
  | unusedField
  deriving DecidableEq, Repr

/-- The fields of the one layout, highest bits first (R91). -/
structure Fields where
  opc : BitVec 4
  ch : BitVec 1
  v : BitVec 1
  zeroHigh : BitVec 2
  b : Byte
  len : Len
  zeroLow : BitVec 1
  addr : Addr
  deriving DecidableEq, Repr

/-- The fields of a word (R91). -/
def fieldsOf (w : CmdWord) : Fields where
  opc := w.extractLsb' 44 4
  ch := w.extractLsb' 43 1
  v := w.extractLsb' 42 1
  zeroHigh := w.extractLsb' 40 2
  b := w.extractLsb' 32 8
  len := w.extractLsb' 16 16
  zeroLow := w.extractLsb' 15 1
  addr := w.extractLsb' 0 15

/-- The word of given fields (R91). -/
def wordOf (f : Fields) : CmdWord :=
  f.opc ++ f.ch ++ f.v ++ f.zeroHigh ++ f.b ++ f.len ++ f.zeroLow ++ f.addr

/-- Which fields besides `OPC` a command uses (R92, column "fields used"). -/
structure Uses where
  ch : Bool := false
  v : Bool := false
  b : Bool := false
  len : Bool := false
  addr : Bool := false
  deriving DecidableEq, Repr

/-- Every field outside `u` is 0. -/
def unusedClear (f : Fields) (u : Uses) : Bool :=
  (u.ch || f.ch == 0#1) && (u.v || f.v == 0#1) && (u.b || f.b == 0#8) && (u.len || f.len == 0#16) &&
    (u.addr || f.addr == 0#15)

/-- `i`, provided the reserved bits and the fields outside `u` are 0 (R95). -/
def legal (f : Fields) (u : Uses) (i : Instr) : Except DecodeError Instr :=
  if f.zeroHigh ≠ 0#2 ∨ f.zeroLow ≠ 0#1 then .error .reservedBits
  else if unusedClear f u then .ok i
  else .error .unusedField

/-- `CH`: 0 = chain 1, 1 = chain 2 (R91). -/
def chainOfBit (b : BitVec 1) : ChainId := if b = 0#1 then .one else .two

/-- `V` as a bit value (R91). -/
def boolOfBit (b : BitVec 1) : Bool := b == 1#1

/-- `V` as the direction of `DMODE`: 0 = input, 1 = output (R91). -/
def dirOfBit (b : BitVec 1) : Dir := if b = 0#1 then .input else .output

/-- The decoder on fields: the opcode picks the command (R92). -/
def decodeFields (f : Fields) : Except DecodeError Instr :=
  match f.opc.toNat with
  | 0x1 => legal f {} .begin
  | 0x2 => legal f { ch := true, v := true, b := true } (.setbit (chainOfBit f.ch) f.b (boolOfBit f.v))
  | 0x3 => legal f { ch := true } (.clrall (chainOfBit f.ch))
  | 0x4 => legal f { ch := true } (.setall (chainOfBit f.ch))
  | 0x5 => legal f { ch := true } (.flush (chainOfBit f.ch))
  | 0x6 => legal f { addr := true } (.setaddr f.addr)
  | 0x7 => legal f { v := true } (.dmode (dirOfBit f.v))
  | 0x8 => legal f { b := true } (.dwrite f.b)
  | 0x9 => legal f {} .dread
  | 0xA => legal f { b := true, addr := true } (.wrbyte f.addr f.b)
  | 0xB => legal f { addr := true } (.rdbyte f.addr)
  | 0xC => legal f { len := true, addr := true } (.wrblk f.addr f.len)
  | 0xD => legal f { len := true, addr := true } (.rdblk f.addr f.len)
  | _ => .error (.reservedOpcode f.opc)

/-- "every one of the 2^48 words is either exactly one of the 13 commands or illegal" (R95). -/
def decode (w : CmdWord) : Except DecodeError Instr := decodeFields (fieldsOf w)

/-- What the decoder reads from a row of the opcode table: the word is one 48-bit item on the command port, so its bits
are numbered as the table numbers them and no byte order enters (R69, R90). -/
def decodeTableWord (nbits w : Nat) : Option Instr :=
  if nbits ≤ 48 ∧ w < 2 ^ 48 then (decode (BitVec.ofNat 48 w)).toOption else none

/-- The fields of a word whose only non-zero field is `OPC`. -/
def blankFields (opc : BitVec 4) : Fields where
  opc := opc
  ch := 0#1
  v := 0#1
  zeroHigh := 0#2
  b := 0#8
  len := 0#16
  zeroLow := 0#1
  addr := 0#15

/-- `CH` of a chain (R91). -/
def bitOfChain : ChainId → BitVec 1
  | .one => 0#1
  | .two => 1#1

/-- `V` of a direction (R91). -/
def bitOfDir : Dir → BitVec 1
  | .input => 0#1
  | .output => 1#1

/-- The fields of each command's word (R92). -/
def encodeFields : Instr → Fields
  | .begin => blankFields 0x1#4
  | .setbit ch idx v => { blankFields 0x2#4 with ch := bitOfChain ch, v := BitVec.ofBool v, b := idx }
  | .clrall ch => { blankFields 0x3#4 with ch := bitOfChain ch }
  | .setall ch => { blankFields 0x4#4 with ch := bitOfChain ch }
  | .flush ch => { blankFields 0x5#4 with ch := bitOfChain ch }
  | .setaddr a => { blankFields 0x6#4 with addr := a }
  | .dmode d => { blankFields 0x7#4 with v := bitOfDir d }
  | .dwrite d => { blankFields 0x8#4 with b := d }
  | .dread => blankFields 0x9#4
  | .wrbyte a d => { blankFields 0xA#4 with b := d, addr := a }
  | .rdbyte a => { blankFields 0xB#4 with addr := a }
  | .wrblk a n => { blankFields 0xC#4 with len := n, addr := a }
  | .rdblk a n => { blankFields 0xD#4 with len := n, addr := a }

/-- The word of a command (R92, R94). -/
def encode (i : Instr) : CmdWord := wordOf (encodeFields i)

/-- One row of the opcode map: "a word `w` is the command when `w and mask = match`" (R92). -/
structure TableRow where
  mnemonic : String
  pattern : CmdWord
  mask : CmdWord
  deriving DecidableEq, Repr

/-- The opcode map of R92, read beside the decoder above. -/
def opcodeTable : List TableRow :=
  [ ⟨"BEGIN", 0x100000000000#48, 0xFFFFFFFFFFFF#48⟩,
    ⟨"SETBIT", 0x200000000000#48, 0xF300FFFFFFFF#48⟩,
    ⟨"CLRALL", 0x300000000000#48, 0xF7FFFFFFFFFF#48⟩,
    ⟨"SETALL", 0x400000000000#48, 0xF7FFFFFFFFFF#48⟩,
    ⟨"FLUSH", 0x500000000000#48, 0xF7FFFFFFFFFF#48⟩,
    ⟨"SETADDR", 0x600000000000#48, 0xFFFFFFFF8000#48⟩,
    ⟨"DMODE", 0x700000000000#48, 0xFBFFFFFFFFFF#48⟩,
    ⟨"DWRITE", 0x800000000000#48, 0xFF00FFFFFFFF#48⟩,
    ⟨"DREAD", 0x900000000000#48, 0xFFFFFFFFFFFF#48⟩,
    ⟨"WRBYTE", 0xA00000000000#48, 0xFF00FFFF8000#48⟩,
    ⟨"RDBYTE", 0xB00000000000#48, 0xFFFFFFFF8000#48⟩,
    ⟨"WRBLK", 0xC00000000000#48, 0xFFFF00008000#48⟩,
    ⟨"RDBLK", 0xD00000000000#48, 0xFFFF00008000#48⟩ ]

/-- The mnemonic of each command, as the table spells it (R92). -/
def Instr.mnemonic : Instr → String
  | .begin => "BEGIN"
  | .setbit _ _ _ => "SETBIT"
  | .clrall _ => "CLRALL"
  | .setall _ => "SETALL"
  | .flush _ => "FLUSH"
  | .setaddr _ => "SETADDR"
  | .dmode _ => "DMODE"
  | .dwrite _ => "DWRITE"
  | .dread => "DREAD"
  | .wrbyte _ _ => "WRBYTE"
  | .rdbyte _ => "RDBYTE"
  | .wrblk _ _ => "WRBLK"
  | .rdblk _ _ => "RDBLK"

end Sys2Proof
end

