-- ==== Sys2Proof/Machine/State.lean ====
section
/-!
DEFINITION. The state of the block and of the devices it is wired to (10_state.md), as plain data, and the state after
reset. INVENTORY.md's '## State' lists each field with the rule that names it.
-/

namespace Sys2Proof.Machine

/-- An output pin of the block (10_state.md section 6). -/
inductive Pin where
  | ser (c : ChainId)
  | sck (c : ChainId)
  | lat (c : ChainId)
  | apin (i : Fin 15)
  | ceN
  | oeN
  | weN
  deriving DecidableEq, Repr

/-- A diagnostic event (R262). The last two belong to the host layer, and each carries a candidate address. -/
inductive Diag where
  | addrSet (a : Addr)
  | byteWritten (a : Addr) (d : Byte)
  | byteRead (a : Addr) (v : Byte)
  | verifyMismatch (a : Addr) (d v : Byte)
  | keyFound (candidate : Nat)
  | keyNotFound (candidate : Nat)
  deriving DecidableEq, Repr

/-- One entry of a command's event list at the signal level (R10, R11). `mode` and `data` are the 8-line mode switch and
data write as one event each (R172, R174); `sample i v` is the sample of data line `i` (R175); `delay` carries its
configured lower bound (R295). `take`, `give` and `report` are a byte taken on port `WD`, a byte sent on `RD` (R97) and a
diagnostic event sent (R262); they are no pin events. -/
inductive Event where
  | drive (p : Pin) (l : Bool)
  | mode (d : Dir)
  | data (b : Byte)
  | sample (line : Fin 8) (v : Bool)
  | delay (d : Delay) (atLeast : Nat)
  | take (b : Byte)
  | give (b : Byte)
  | report (d : Diag)
  deriving DecidableEq, Repr

/-- What the host does with `RST_n` during the next step (R280). -/
inductive ResetInput where
  /-- it is 1 throughout. -/
  | released
  /-- it is 0. -/
  | asserted
  /-- it falls inside the step: after so many entries of the event record, and before the next entry or the response. -/
  | fallsAfter (entries : Nat)
  deriving DecidableEq, Repr

/-- The error codes of R250 that a refused command answers. -/
inductive ErrorCode where
  | illegalCommand
  | notInitialised
  | noSuchChain
  | indexRange
  deriving DecidableEq, Repr

/-- The sequencer state `SEQ` (R30): `IDLE`, or `BUSY(command, position)` with the index of the next pin event. -/
inductive Seq where
  | idle
  | busy (cmd : Instr) (position : Nat)
  deriving DecidableEq, Repr

/-- The block counters `BA` and `BC` (R31). They are alive only inside `WRBLK` and `RDBLK`; outside them their values are
unspecified. -/
structure BlockCounters where
  ba : Addr
  bc : Len
  deriving DecidableEq, Repr

/-- Chain `c`: the block's mirror `M_c` (R25), its three pins (R26), and the banks' shift stages `SH_c` (R33) and output
stages `OUT_c` (R34), index 0 first. -/
structure Chain where
  mirror : List Byte
  ser : Level
  sck : Level
  lat : Level
  sh : List Level
  out : List Level
  deriving DecidableEq, Repr

/-- What the memory device has seen of the interval in which `CE_n` and `WE_n` are both 0 (R64). -/
inductive Pulse where
  /-- the interval is not open. -/
  | off
  /-- it is open, and address and data have been steady and the block's own. -/
  | stable
  /-- it is open, and R64's precondition has already failed. -/
  | spoiled
  deriving DecidableEq, Repr

/-- The two situations the spec says its sequences never create, noted where they arise. -/
inductive Hazard where
  /-- R64's precondition failed when a write pulse ended (U17). -/
  | unstableWrite
  /-- The block and the memory device both drive the data lines (R178, U6). -/
  | contention
  deriving DecidableEq, Repr

/-- Why the machine stops with a fault. -/
inductive Fault where
  /-- A write pulse ended although address or data had moved, or were not the block's own: "a model treats it as a fault
  of the sequence" (R64, U17). Raised by the end of a command whose run met it; no state that a run reaches does. Safe:
  the model stops where the device's cells may take any value. -/
  | unstableWrite
  deriving DecidableEq, Repr

/-- Why the model gives a step no meaning. -/
inductive Refusal where
  /-- An instruction without a meaning. No arm of this model answers it. Safe. -/
  | notModelled (mnemonic : String)
  /-- The configuration fails a check of R23: "a malformed configuration has no instance". Raised by `step`. Safe. -/
  | malformedConfig
  /-- The block and the memory device drive the data lines together: "a model has no rule for it" (R178, U6). Raised by
  the end of a command whose run met it; no state that a run reaches does. Safe. -/
  | busContention
  /-- `SEQ` is `BUSY` in a command that is not a `WRBLK`. A step ends between two commands or in a `WRBLK` that waits for
  payload, so no state that a run reaches has it. Raised by `step`. Safe. -/
  | midCommand
  deriving DecidableEq, Repr

structure State where
  /-- The configuration record `CFG` (R21); no step changes it. -/
  cfg : Cfg
  /-- Port `RST_n` during the next step (R280); set by the host. -/
  rstN : ResetInput
  /-- `INIT` (R24). -/
  init : Bool
  /-- `SEQ` (R30). -/
  seq : Seq
  /-- `BA` and `BC` (R31). -/
  counters : BlockCounters
  /-- Chain 1 (R25, R26, R33, R34). -/
  chain1 : Chain
  /-- Chain 2. -/
  chain2 : Chain
  /-- The register `APIN` (R27). -/
  apin : BitVec 15
  /-- The levels of the 15 direct address pins, pin 0 first (R27). -/
  apinPins : List Level
  /-- `DDIR` (R28). -/
  ddir : Dir
  /-- `DOUT` (R28). -/
  dout : Byte
  /-- Control line `CE_n` (R29). -/
  ceN : Level
  /-- Control line `OE_n` (R29). -/
  oeN : Level
  /-- Control line `WE_n` (R29). -/
  weN : Level
  /-- The written cells of `MEM` (R38), addresses strictly rising. An address not listed holds no written byte. -/
  mem : List Host.Cell
  /-- Which arbitrary memory function unwritten cells read from (R40); the model's own. -/
  memEpoch : Nat
  /-- The memory device's view of the running write pulse (R64). -/
  pulse : Pulse
  /-- The first hazard the running command has met; the model's own. -/
  hazard : Option Hazard
  /-- How many draws of unspecified values have been made (R10); the model's own. -/
  draws : Nat
  /-- Port `CMD`: command words the host has sent and the block has not accepted, oldest first (R90). -/
  cmds : List CmdWord
  /-- Port `WD`: payload bytes not yet taken, oldest first (R97). -/
  wd : List Byte
  /-- Port `RD`: bytes sent, oldest first (R97, R206). -/
  rd : List Byte
  /-- Port `RSP`: response words sent, oldest first (R98). -/
  rsp : List RspWord
  /-- Port `DIAG`: diagnostic events sent, oldest first (R262). -/
  diag : List Diag
  /-- The event record: what happened at the pins and ports, oldest first (R11). -/
  trace : List Event
  deriving DecidableEq, Repr

/-- Chain `c`. -/
def State.chain (s : State) : ChainId → Chain
  | .one => s.chain1
  | .two => s.chain2

/-- `s` with chain `c` replaced. -/
def State.setChain (s : State) (c : ChainId) (ch : Chain) : State :=
  match c with
  | .one => { s with chain1 := ch }
  | .two => { s with chain2 := ch }

/-- A chain of `n` banks after reset: mirror 0, pins `X`, banks unspecified (R25, R26, R33, R34). -/
def Chain.reset (n : Nat) : Chain where
  mirror := List.replicate n 0x00#8
  ser := .unknown
  sck := .unknown
  lat := .unknown
  sh := List.replicate (8 * n) .unknown
  out := List.replicate (8 * n) .unknown

/-- Dead counters: whatever they hold, it is the `n`-th draw (R31). -/
def deadCounters (n : Nat) : BlockCounters := ⟨Config.freeAddr n, Config.freeLen n⟩

/-- The block of configuration `c` right after reset (10_state.md section 5, R280), nothing sent or received. `DOUT`,
`BA` and `BC` are unspecified there: they take the first draw. -/
def State.resetFor (c : Cfg) : State where
  cfg := c
  rstN := .released
  init := false
  seq := .idle
  counters := deadCounters 0
  chain1 := Chain.reset c.n1
  chain2 := Chain.reset c.n2
  apin := 0#15
  apinPins := List.replicate 15 .unknown
  ddir := .input
  dout := Config.freeByte 0
  ceN := .unknown
  oeN := .unknown
  weN := .unknown
  mem := []
  memEpoch := 0
  pulse := .off
  hazard := none
  draws := 1
  cmds := []
  wd := []
  rd := []
  rsp := []
  diag := []
  trace := []

/-- The machine right after reset, for the configuration the model names (log entry 1). -/
def State.reset : State := State.resetFor Config.chosen

end Sys2Proof.Machine
end

