-- ==== Sys2Proof/Machine/Operands.lean ====
section
/-!
DEFINITION. Operand forms: the chain index (40_chain.md rules R124, R133), the existence of a chain (10_state.md rule
R22), single bits of a register, the block counters' steps (R31), and the refusals by value (R96, R258).
-/

namespace Sys2Proof.Machine

/-- `w` with bit `i` set to `v`, every other bit kept. -/
def putBit {n : Nat} (w : BitVec n) (i : Nat) (v : Bool) : BitVec n :=
  if v then w ||| BitVec.twoPow n i else w &&& ~~~BitVec.twoPow n i

/-- The number of a chain (R22). -/
def chainNumber : ChainId → Nat
  | .one => 1
  | .two => 2

/-- `NCHAINS` (R22). -/
def nchains (c : Cfg) : Nat :=
  match c.backend with
  | .direct | .unsupplied => 0
  | .chain1 => 1
  | .chain2 => 2

/-- "Chain `c` exists when `c <= NCHAINS`" (R22). -/
def chainExists (c : Cfg) (ch : ChainId) : Bool := decide (chainNumber ch ≤ nchains c)

/-- `N_c` (R21). -/
def banks (c : Cfg) : ChainId → Nat
  | .one => c.n1
  | .two => c.n2

/-- The legal range of a chain bit index is 0 to `8*N_c - 1` (R124). -/
def indexInRange (c : Cfg) (ch : ChainId) (idx : Byte) : Bool := decide (idx.toNat < 8 * banks c ch)

/-- The mirror with bit `idx` set to `v`: register `idx div 8`, bit `idx mod 8` (R12, R124). -/
def putMirrorBit (m : List Byte) (idx : Nat) (v : Bool) : List Byte :=
  m.modify (idx / 8) (fun w => putBit w (idx % 8) v)

/-- The step of `BA`: one up, modulo 2^15 (R31, R204). -/
def nextAddr (a : Addr) : Addr := a + 1#15

/-- The counters before a byte, with `n` bytes still to move (R31). -/
def blockCounters (ba : Addr) (n : Nat) : BlockCounters := ⟨ba, BitVec.ofNat 16 n⟩

/-- Every command but `BEGIN` needs `INIT = 1` (R253). -/
def needsInit : Instr → Bool
  | .begin => false
  | .setbit _ _ _ | .clrall _ | .setall _ | .flush _ | .setaddr _ | .dmode _ | .dwrite _ | .dread | .wrbyte _ _
  | .rdbyte _ | .wrblk _ _ | .rdblk _ _ => true

/-- The four chain commands name a chain that must exist (R254). -/
def chainOperandOk (c : Cfg) : Instr → Bool
  | .setbit ch _ _ | .clrall ch | .setall ch | .flush ch => chainExists c ch
  | .begin | .setaddr _ | .dmode _ | .dwrite _ | .dread | .wrbyte _ _ | .rdbyte _ | .wrblk _ _ | .rdblk _ _ => true

/-- `SETBIT`'s index must be in range (R255). -/
def indexOperandOk (c : Cfg) : Instr → Bool
  | .setbit ch idx _ => indexInRange c ch idx
  | .begin | .clrall _ | .setall _ | .flush _ | .setaddr _ | .dmode _ | .dwrite _ | .dread | .wrbyte _ _ | .rdbyte _
  | .wrblk _ _ | .rdblk _ _ => true

/-- The refusal by value of a legal word, if any, first in priority (R96, R258). -/
def valueError (i : Instr) (s : State) : Option ErrorCode :=
  if needsInit i && !s.init then some .notInitialised
  else if !chainOperandOk s.cfg i then some .noSuchChain
  else if !indexOperandOk s.cfg i then some .indexRange
  else none

end Sys2Proof.Machine
end

