-- ==== Sys2Proof/Machine/Flags.lean ====
section
/-!
DEFINITION. The block has no condition codes; its one-bit results are the `OK` bit of the response word and `INIT`
(10_state.md rule R32). This file builds the response word (30_encoding.md rule R99, 60_exceptions.md rule R250).
-/

namespace Sys2Proof.Machine

/-- `ERR` of each refusal (R250). -/
def errorNumber : ErrorCode → BitVec 4
  | .illegalCommand => 1#4
  | .notInitialised => 2#4
  | .noSuchChain => 3#4
  | .indexRange => 4#4

/-- The layout of the response word (R99). -/
def responseWord (ok : Bool) (err : BitVec 4) (data : Byte) : RspWord :=
  BitVec.ofBool ok ++ 0#3 ++ err ++ data

/-- The response of an executed command (R99). -/
def okWord (data : Byte) : RspWord := responseWord true 0#4 data

/-- The response of a refusal: `{OK = 0, ERR, DATA = 0}` (R250). -/
def errorWord (e : ErrorCode) : RspWord := responseWord false (errorNumber e) 0x00#8

end Sys2Proof.Machine
end

