-- ==== Sys2Proof/Machine/Ops.lean ====
section
/-!
DEFINITION. The named operations: levels and wiring (10_state.md rules R35, R36), memory (20_memory.md rules R63, R64,
R66, R67), the banks (40_chain.md rules R121, R122), pin events (R10), the host's ports (R97), accepting, answering and refusing a
command (R98, R251), reset (R280), and the procedures `flush` (R123), `setAddress` (R152), `setMode` (R172), `write` (R174),
`read` (R175, R177).
-/

namespace Sys2Proof.Machine

/-! ### Levels -/

/-- A driven level. -/
def levelOf (b : Bool) : Level := if b then .high else .low

/-- The level of a wire that holds one of two levels: that level if they agree, else unspecified (R9). -/
def eitherLevel (a b : Level) : Level := if a = b then a else .unknown

/-- The number that lines show, line 0 first, when every one of them is 0 or 1 (R9). -/
def lineValue : List Level → Option Nat
  | [] => some 0
  | .low :: t => (lineValue t).map (fun n => 2 * n)
  | .high :: t => (lineValue t).map (fun n => 2 * n + 1)
  | .unknown :: _ => none

/-! ### The memory cells -/

/-- The byte written at `a`, if any (R38). -/
def lookupCell : List Host.Cell → Nat → Option Byte
  | [], _ => none
  | (k, v) :: rest, a => if k = a then some v else lookupCell rest a

/-- `cells` with the byte `v` at `a`, in address order. -/
def storeCell : List Host.Cell → Nat → Byte → List Host.Cell
  | [], a, v => [(a, v)]
  | (k, w) :: rest, a, v =>
    if a < k then (a, v) :: (k, w) :: rest
    else if a = k then (a, v) :: rest
    else (k, w) :: storeCell rest a v

/-- Every address of `cells` is at least `lo`, below 2^15, and they rise strictly (R60). -/
def cellsFrom : Nat → List Host.Cell → Bool
  | _, [] => true
  | lo, (k, _) :: rest => decide (lo ≤ k) && decide (k < 32768) && cellsFrom (k + 1) rest

/-- The canonical form of the written cells. -/
def Memory.wf (cells : List Host.Cell) : Bool := cellsFrom 0 cells

/-- `MemRead(a, 1)`: the byte cell `a` holds (R66); an unwritten cell holds the arbitrary byte of R40. -/
def memRead (s : State) (a : Nat) : Byte :=
  match lookupCell s.mem a with
  | some v => v
  | none => Config.memByte s.memEpoch a

/-- `MemWrite(a, 1, v)` (R67). -/
def memWrite (s : State) (a : Nat) (v : Byte) : State := { s with mem := storeCell s.mem a v }

/-- From here on the memory is an arbitrary function: nothing is known to be written (R40). -/
def forgetMemory (s : State) : State := { s with mem := [], memEpoch := s.memEpoch + 1 }

/-! ### Wiring -/

/-- The address lines `A[0]` to `A[14]` (R35). -/
def addressLines (s : State) : List Level :=
  match s.cfg.backend with
  | .direct => s.apinPins
  | .chain1 => s.chain1.out.take 15
  | .chain2 => s.chain1.out.take s.cfg.k ++ s.chain2.out.take (15 - s.cfg.k)
  | .unsupplied => []

/-- The address `A` the device sees, when all lines are 0 or 1 (R35). -/
def shownAddress (s : State) : Option Nat := lineValue (addressLines s)

/-- The device drives exactly while `CE_n = 0` and `OE_n = 0` and `WE_n = 1` (R63). -/
def deviceDrives (s : State) : Bool := s.ceN == .low && s.oeN == .low && s.weN == .high

/-- Both the block and the device drive the data lines (R36, R178). -/
def contended (s : State) : Bool := s.ddir == .output && deviceDrives s

/-- The byte on the data lines, or none where the spec says `X` (R36). -/
def dataLines (s : State) : Option Byte :=
  match s.ddir, deviceDrives s with
  | .output, false => some s.dout
  | .output, true => none
  | .input, true => (shownAddress s).map (memRead s)
  | .input, false => none

/-- The device accepts a value while `CE_n = 0` and `WE_n = 0` (R64). -/
def deviceAccepts (s : State) : Bool := s.ceN == .low && s.weN == .low

/-! ### The memory device's reaction to an event -/

/-- `s` with hazard `h` noted; the first one noted stays. -/
def noteHazard (h : Hazard) (s : State) : State :=
  match s.hazard with
  | none => { s with hazard := some h }
  | some _ => s

/-- The write interval opens: it is good so far when the address is shown and the block alone drives the data (R64). -/
def openPulse (s : State) : State :=
  { s with pulse := if (shownAddress s).isSome && s.ddir == .output && !deviceDrives s then .stable else .spoiled }

/-- An event inside the write interval spoils it when address or data changed (R64). -/
def watchPulse (before s : State) : State :=
  if addressLines s = addressLines before ∧ s.ddir = before.ddir ∧ s.dout = before.dout then s
  else { s with pulse := .spoiled }

/-- The write interval ends: "at that event `MEM[A] <- DBUS`", provided it was good throughout (R64). -/
def commitPulse (before s : State) : State :=
  match before.pulse, shownAddress before, dataLines before with
  | .stable, some a, some d => memWrite { s with pulse := .off } a d
  | _, _, _ => noteHazard .unstableWrite { s with pulse := .off }

/-- The write rule (R64) applied to the event that led from `before` to `s`. -/
def reactWrite (before s : State) : State :=
  match deviceAccepts before, deviceAccepts s with
  | false, true => openPulse s
  | true, true => watchPulse before s
  | true, false => commitPulse before s
  | false, false => s

/-- What the memory device makes of the event that led from `before` to `s`; contention is noted (R178). -/
def react (before s : State) : State :=
  let t := reactWrite before s
  if contended t then noteHazard .contention t else t

/-! ### The banks -/

/-- One place up the chain: stage 0 takes the serial input, the last bit is lost (R121). -/
def shiftedStages (ser : Level) (sh : List Level) : List Level := (ser :: sh).take sh.length

/-- `drive(SCK_c, l)`: the stages move on a rising edge; from `X` they may or may not (R121). -/
def driveClock (l : Bool) (ch : Chain) : Chain :=
  { ch with
    sck := levelOf l
    sh :=
      match ch.sck, l with
      | .low, true => shiftedStages ch.ser ch.sh
      | .unknown, true => List.zipWith eitherLevel ch.sh (shiftedStages ch.ser ch.sh)
      | _, _ => ch.sh }

/-- `drive(LAT_c, l)`: the outputs take the stages on a rising edge; from `X` they may or may not (R122). -/
def driveLatch (l : Bool) (ch : Chain) : Chain :=
  { ch with
    lat := levelOf l
    out :=
      match ch.lat, l with
      | .low, true => ch.sh
      | .unknown, true => List.zipWith eitherLevel ch.out ch.sh
      | _, _ => ch.out }

/-! ### Events -/

/-- `SEQ` moves on by one at each pin event (R30). -/
def advance : Seq → Seq
  | .idle => .idle
  | .busy i p => .busy i (p + 1)

/-- The event is seen at the pins or ports. -/
def record (e : Event) (s : State) : State := { s with trace := s.trace ++ [e] }

/-- The events are seen in this order. -/
def recordAll (es : List Event) (s : State) : State := { s with trace := s.trace ++ es }

/-- The pin takes the level, and the banks react (R26, R121, R122). -/
def setPin (p : Pin) (l : Bool) (s : State) : State :=
  match p with
  | .ser c => s.setChain c { s.chain c with ser := levelOf l }
  | .sck c => s.setChain c (driveClock l (s.chain c))
  | .lat c => s.setChain c (driveLatch l (s.chain c))
  | .apin i => { s with apinPins := s.apinPins.set i (levelOf l) }
  | .ceN => { s with ceN := levelOf l }
  | .oeN => { s with oeN := levelOf l }
  | .weN => { s with weN := levelOf l }

/-- `drive(P, l)`: a pin event (R10, R30). -/
def drive (p : Pin) (l : Bool) (s : State) : State :=
  react s (setPin p l { record (.drive p l) s with seq := advance s.seq })

/-- `delay(T)`: "no state changes" (R10); the lower bound is the configured one (R8). -/
def delay (d : Delay) (s : State) : State :=
  record (.delay d (match d with
    | .addressSettle => s.cfg.tAS
    | .writePulse => s.cfg.tWP
    | .readHold => s.cfg.tRD)) s

/-- `emit Diag(...)` (R262). -/
def emit (d : Diag) (s : State) : State := record (.report d) { s with diag := s.diag ++ [d] }

/-! ### The payload ports -/

/-- The block takes the byte `d` on `WD` and leaves `rest`, with the counters at `n` (R31, R97). -/
def takePayload (d : Byte) (rest : List Byte) (n : BlockCounters) (s : State) : State :=
  record (.take d) { s with wd := rest, counters := n }

/-- The block sends the byte `v` on `RD` (R97, R206). -/
def givePayload (v : Byte) (s : State) : State := record (.give v) { s with rd := s.rd ++ [v] }

/-- The one level the spec fixes is the mismatch warning (R262); the others are suggestions and left out (U20). -/
def isWarning : Diag → Bool
  | .verifyMismatch _ _ _ => true
  | .addrSet _ | .byteWritten _ _ | .byteRead _ _ | .keyFound _ | .keyNotFound _ => false

/-! ### Accepting, answering, refusing -/

/-- A command is accepted only when `SEQ = IDLE` (R30); this is the port's `CMD_READY` (10_state.md section 6). -/
def cmdReady (s : State) : Bool := s.seq == .idle

/-- The block takes the next command word, if it is ready and the host has sent one (R30). -/
def fetch (s : State) : Option (CmdWord × State) :=
  match s.seq, s.cmds with
  | .idle, w :: rest => some (w, { s with cmds := rest })
  | _, _ => none

/-- `SEQ <- BUSY(command, 0)` (R30). -/
def accept (i : Instr) (s : State) : State := { s with seq := .busy i 0 }

/-- `respond(data)`: the success response, and `SEQ <- IDLE` (R10, R30). -/
def respond (data : Byte) (s : State) : State :=
  { s with rsp := s.rsp ++ [okWord data], seq := .idle }

/-- The counters die with their command: "none of these counters ... survives the command" (R31). -/
def retireCounters (s : State) : State := { s with counters := deadCounters s.draws, draws := s.draws + 1 }

/-- `raise <Error>`, this block's one way of taking an exception: the error response, and nothing else changes (R251).
"There is nothing to return from: no handler, no saved state, no return command", so no return operation stands beside
it. -/
def raiseError (e : ErrorCode) (s : State) : State := { s with rsp := s.rsp ++ [errorWord e] }

/-- The end of a run: a hazard met on the way stops the machine by name (R64, R178). -/
def finish (s : State) : Host.Outcome State Fault Refusal :=
  match s.hazard with
  | none => .next s
  | some .unstableWrite => .fault .unstableWrite
  | some .contention => .refused .busContention

/-- One command: the checks come before the first pin event (R251), then its body runs. -/
def perform (i : Instr) (body : State → State) (s : State) : Host.Outcome State Fault Refusal :=
  match valueError i s with
  | some e => .next (raiseError e s)
  | none => finish (body (accept i s))

/-! ### Reset -/

/-- What a write pulse in progress leaves of the memory when reset abandons it: "the addressed cell, and by `20_memory.md`
rule R64 possibly others, are unspecified afterwards" (R280). -/
def abandonPulse (s : State) : State :=
  match s.pulse with
  | .off => s
  | .stable | .spoiled => forgetMemory s

/-- The assertion of `RST_n` (R280): the block's registers at their reset values, a running command abandoned. The banks
and the memory are out of its reach, and with the pins at `X` "the banks may shift and latch at random" (R299); what
has been sent or received stays so. -/
def assertReset (s : State) : State :=
  { abandonPulse s with
    rstN := .asserted
    init := false
    seq := .idle
    counters := deadCounters s.draws
    chain1 := Chain.reset s.cfg.n1
    chain2 := Chain.reset s.cfg.n2
    apin := 0#15
    apinPins := List.replicate 15 .unknown
    ddir := .input
    dout := Config.freeByte s.draws
    draws := s.draws + 1
    ceN := .unknown
    oeN := .unknown
    weN := .unknown
    pulse := .off
    hazard := none }

/-! ### The chain procedure -/

/-- The bits a flush sends, in order: most significant register first, each most significant bit first (R123). -/
def serialStream (mirror : List Byte) : List Bool :=
  mirror.reverse.flatMap (fun w => (List.range 8).reverse.map (fun b => w.getLsbD b))

/-- One serial bit: data, clock up, clock down (R123). -/
def sendBit (c : ChainId) (s : State) (b : Bool) : State :=
  drive (.sck c) false (drive (.sck c) true (drive (.ser c) b s))

/-- `flush(c)` (R123). -/
def flush (c : ChainId) (s : State) : State :=
  drive (.lat c) true ((serialStream (s.chain c).mirror).foldl (sendBit c) (drive (.lat c) false s))

/-- A mirror bit write, without the flush (R124). -/
def writeMirrorBit (c : ChainId) (idx : Nat) (v : Bool) (s : State) : State :=
  s.setChain c { s.chain c with mirror := putMirrorBit (s.chain c).mirror idx v }

/-- Every mirror register of chain `c` takes `w` (R127, R128). -/
def fillMirror (c : ChainId) (w : Byte) (s : State) : State :=
  s.setChain c { s.chain c with mirror := (s.chain c).mirror.map (fun _ => w) }

/-! ### The address procedure -/

/-- Address bit `i` is programmed: on its pin, or as a mirror bit of its chain followed by that chain's flush (R152). -/
def programBit (addr : Addr) (s : State) (i : Fin 15) : State :=
  let v := addr.getLsbD i
  match s.cfg.backend with
  | .direct => drive (.apin i) v { s with apin := putBit s.apin i v }
  | .chain1 => flush .one (writeMirrorBit .one i v s)
  | .chain2 =>
    if i.val < s.cfg.k then flush .one (writeMirrorBit .one i v s)
    else flush .two (writeMirrorBit .two (i.val - s.cfg.k) v s)
  | .unsupplied => s

/-- The first `n` of the 15 bit programmings, in ascending order, chain 1 before chain 2 (R152, R154). -/
def programBits (addr : Addr) (n : Nat) (s : State) : State :=
  ((List.finRange 15).take n).foldl (programBit addr) s

/-- `setAddress(addr)`, with its settle delay (R152, R153). -/
def setAddress (addr : Addr) (s : State) : State :=
  emit (.addrSet addr) (delay .addressSettle (programBits addr 15 s))

/-! ### The data bus procedures -/

/-- `setMode(dir)`, as one event (R172). -/
def setMode (d : Dir) (s : State) : State := react s { record (.mode d) s with ddir := d }

/-- `write(byte)`, as one event; in input mode `DOUT` becomes unspecified (R174). -/
def writeBus (b : Byte) (s : State) : State :=
  match s.ddir with
  | .output => react s { record (.data b) s with dout := b }
  | .input => { record (.data b) s with dout := Config.freeByte s.draws, draws := s.draws + 1 }

/-- The eight samples that make the byte `v`: line `i` gives bit `i`, line 0 first in time (R70, R175). -/
def sampleEvents (v : Byte) : List Event := (List.finRange 8).map (fun i => .sample i (v.getLsbD i))

/-- `read()`: the byte sampled and the state after. Only the first case of R177 gives a byte of the device; in the
others each sample is unspecified. -/
def readBus (s : State) : Byte × State :=
  match s.ddir, dataLines s with
  | .input, some v => (v, recordAll (sampleEvents v) s)
  | _, _ =>
    (Config.freeByte s.draws, { recordAll (sampleEvents (Config.freeByte s.draws)) s with draws := s.draws + 1 })

end Sys2Proof.Machine
end

