-- ==== Sys2Proof/Machine/AddressFamily.lean ====
section
/-!
DEFINITION. The Address Bus command `SETADDR` (41_address_bus.md).
-/

namespace Sys2Proof.Machine

/-- `SETADDR addr` (R151). -/
def execSetaddr (addr : Addr) (s : State) : Host.Outcome State Fault Refusal :=
  perform (.setaddr addr) (fun s => respond 0x00#8 (setAddress addr s)) s

end Sys2Proof.Machine
end

