-- ==== Sys2Proof/Machine/ChainFamily.lean ====
section
/-!
DEFINITION. The Shift-Register Chain commands `SETBIT`, `CLRALL`, `SETALL`, `FLUSH` (40_chain.md).
-/

namespace Sys2Proof.Machine

/-- `SETBIT ch, idx, v` (R126): one mirror bit, then the flush, "no shortcut" when the bit does not change. -/
def execSetbit (ch : ChainId) (idx : Byte) (v : Bool) (s : State) : Host.Outcome State Fault Refusal :=
  perform (.setbit ch idx v) (fun s => respond 0x00#8 (flush ch (writeMirrorBit ch idx.toNat v s))) s

/-- `CLRALL ch` (R127). -/
def execClrall (ch : ChainId) (s : State) : Host.Outcome State Fault Refusal :=
  perform (.clrall ch) (fun s => respond 0x00#8 (flush ch (fillMirror ch 0x00#8 s))) s

/-- `SETALL ch` (R128). -/
def execSetall (ch : ChainId) (s : State) : Host.Outcome State Fault Refusal :=
  perform (.setall ch) (fun s => respond 0x00#8 (flush ch (fillMirror ch 0xFF#8 s))) s

/-- `FLUSH ch` (R129). -/
def execFlush (ch : ChainId) (s : State) : Host.Outcome State Fault Refusal :=
  perform (.flush ch) (fun s => respond 0x00#8 (flush ch s)) s

end Sys2Proof.Machine
end

