-- ==== Sys2Proof/Machine/DataFamily.lean ====
section
/-!
DEFINITION. The Data Bus commands `DMODE`, `DWRITE`, `DREAD` (42_data_bus.md). None of them checks `DDIR` or the control
lines (R170).
-/

namespace Sys2Proof.Machine

/-- `DMODE dir` (R171). -/
def execDmode (dir : Dir) (s : State) : Host.Outcome State Fault Refusal :=
  perform (.dmode dir) (fun s => respond 0x00#8 (setMode dir s)) s

/-- `DWRITE data` (R173). -/
def execDwrite (data : Byte) (s : State) : Host.Outcome State Fault Refusal :=
  perform (.dwrite data) (fun s => respond 0x00#8 (writeBus data s)) s

/-- `DREAD` (R176). -/
def execDread (s : State) : Host.Outcome State Fault Refusal :=
  perform .dread (fun s => respond (readBus s).1 (readBus s).2) s

end Sys2Proof.Machine
end

