-- ==== Sys2Proof/Machine/MemoryFamily.lean ====
section
/-!
DEFINITION. The Memory Controller commands `BEGIN`, `WRBYTE`, `RDBYTE`, `WRBLK`, `RDBLK` (43_memory_controller.md).
-/

namespace Sys2Proof.Machine

/-! ### Transactions -/

/-- `readByte(a)` (R198): the byte read and the state after. -/
def readByte (a : Addr) (s : State) : Byte × State :=
  let r := readBus (delay .readHold (drive .oeN false (drive .ceN false (setMode .input (setAddress a s)))))
  (r.1, emit (.byteRead a r.1) (drive .ceN true (drive .oeN true r.2)))

/-- `verify(a, d)`: a whole read transaction; a difference is a warning only (R197). -/
def verifyByte (a : Addr) (d : Byte) (s : State) : State :=
  let r := readByte a s
  if r.1 = d then r.2 else emit (.verifyMismatch a d r.1) r.2

/-- The address, the data and the write pulse of `writeByte` (R193, R195). -/
def writePulse (a : Addr) (d : Byte) (s : State) : State :=
  drive .ceN true (drive .weN true (delay .writePulse (drive .weN false (drive .ceN false
    (writeBus d (setMode .output (setAddress a s)))))))

/-- `writeByte(a, d)` (R195). -/
def writeByte (a : Addr) (d : Byte) (s : State) : State :=
  let t := emit (.byteWritten a d) (writePulse a d s)
  if t.cfg.verify then verifyByte a d t else t

/-- The loop of `WRBLK` with `n` bytes still to move, the next to address `ba` (R205). At each turn the counters hold
`ba` and `n` (R31); when the next payload byte has not come the block stays busy there (R97). -/
def writeBlock : Addr → Nat → State → State
  | _, 0, s => respond 0x00#8 (retireCounters s)
  | ba, n + 1, s =>
    match s.wd with
    | [] => { s with counters := blockCounters ba (n + 1) }
    | d :: rest => writeBlock (nextAddr ba) n (writeByte ba d (takePayload d rest (blockCounters ba (n + 1)) s))

/-- The loop of `RDBLK` (R206). -/
def readBlock : Addr → Nat → State → State
  | _, 0, s => respond 0x00#8 (retireCounters s)
  | ba, n + 1, s =>
    let r := readByte ba { s with counters := blockCounters ba (n + 1) }
    readBlock (nextAddr ba) n (givePayload r.1 r.2)

/-- A `WRBLK` that waits for payload goes on with the bytes that have come (R97). -/
def resumeBlock (cmd : Instr) (s : State) : Host.Outcome State Fault Refusal :=
  match cmd with
  | .wrblk _ _ => finish (writeBlock s.counters.ba s.counters.bc.toNat s)
  | .begin | .setbit _ _ _ | .clrall _ | .setall _ | .flush _ | .setaddr _ | .dmode _ | .dwrite _ | .dread | .wrbyte _ _
  | .rdbyte _ | .rdblk _ _ => .refused .midCommand

/-! ### Initialisation -/

/-- The address part of `BEGIN` (R191): the direct pins take their register, or every chain its clock level and a
flush. -/
def beginAddress (s : State) : State :=
  match s.cfg.backend with
  | .direct => (List.finRange 15).foldl (fun s i => drive (.apin i) (s.apin.getLsbD i) s) s
  | .chain1 => flush .one (drive (.sck .one) false s)
  | .chain2 => flush .two (drive (.sck .two) false (flush .one (drive (.sck .one) false s)))
  | .unsupplied => s

/-- The steps of `BEGIN` up to its response (R191). The memory is an arbitrary function from the end of the first
`BEGIN` on (R40); a repeated one leaves it (R192). -/
def beginSteps (s : State) : State :=
  let t := beginAddress (setMode .input (drive .weN true (drive .oeN true (drive .ceN true s))))
  { (if s.init then t else forgetMemory t) with init := true }

/-! ### The commands -/

/-- `BEGIN` (R191, R192). -/
def execBegin (s : State) : Host.Outcome State Fault Refusal :=
  perform .begin (fun s => respond 0x00#8 (beginSteps s)) s

/-- `WRBYTE addr, data` (R195). -/
def execWrbyte (addr : Addr) (data : Byte) (s : State) : Host.Outcome State Fault Refusal :=
  perform (.wrbyte addr data) (fun s => respond 0x00#8 (writeByte addr data s)) s

/-- `RDBYTE addr` (R198). -/
def execRdbyte (addr : Addr) (s : State) : Host.Outcome State Fault Refusal :=
  perform (.rdbyte addr) (fun s => respond (readByte addr s).1 (readByte addr s).2) s

/-- `WRBLK addr, len` with the payload that port `WD` gives (R205). -/
def execWrblk (addr : Addr) (len : Len) (s : State) : Host.Outcome State Fault Refusal :=
  perform (.wrblk addr len) (fun s => writeBlock addr len.toNat s) s

/-- `RDBLK addr, len` (R206). -/
def execRdblk (addr : Addr) (len : Len) (s : State) : Host.Outcome State Fault Refusal :=
  perform (.rdblk addr len) (fun s => readBlock addr len.toNat s) s

end Sys2Proof.Machine
end

