-- ==== Sys2Proof/Machine/Dispatch.lean ====
section
/-!
DEFINITION. One arm per command (30_encoding.md rule R92).
-/

namespace Sys2Proof.Machine

/-- The meaning of a command. -/
def exec (i : Instr) (s : State) : Host.Outcome State Fault Refusal :=
  match i with
  | .begin => Sys2Proof.Machine.execBegin s
  | .setbit ch idx v => Sys2Proof.Machine.execSetbit ch idx v s
  | .clrall ch => Sys2Proof.Machine.execClrall ch s
  | .setall ch => Sys2Proof.Machine.execSetall ch s
  | .flush ch => Sys2Proof.Machine.execFlush ch s
  | .setaddr addr => Sys2Proof.Machine.execSetaddr addr s
  | .dmode dir => Sys2Proof.Machine.execDmode dir s
  | .dwrite data => Sys2Proof.Machine.execDwrite data s
  | .dread => Sys2Proof.Machine.execDread s
  | .wrbyte addr data => Sys2Proof.Machine.execWrbyte addr data s
  | .rdbyte addr => Sys2Proof.Machine.execRdbyte addr s
  | .wrblk addr len => Sys2Proof.Machine.execWrblk addr len s
  | .rdblk addr len => Sys2Proof.Machine.execRdblk addr len s

end Sys2Proof.Machine
end

