-- ==== Sys2Proof/Machine/Reset.lean ====
section
/-!
DEFINITION. Reset inside a command (70_reset_and_hazards.md rule R280): the part of a command that came before the fall of
`RST_n` is what its event record says, up to that entry.
-/

namespace Sys2Proof.Machine

/-- One recorded event done again: what it does to the pins, the devices and the ports. The block's registers behind the
pins are not followed; reset overwrites them. -/
def replayEvent (s : State) (e : Event) : State :=
  match e with
  | .drive p l => drive p l s
  | .mode d => setMode d s
  | .data b => writeBus b s
  | .sample _ _ | .delay _ _ => record e s
  | .take _ => record e { s with wd := s.wd.drop 1 }
  | .give b => givePayload b s
  | .report d => emit d s

/-- The events done again in order. -/
def replay (es : List Event) (s : State) : State := es.foldl replayEvent s

/-- `RST_n` fell after `n` entries of what the run from `s` to `t` recorded: "a reset during a command abandons the
command" (R280). A run with fewer entries has sent its response, or waits, by then, and the reset comes next. -/
def interrupt (n : Nat) (s t : State) : State :=
  let es := t.trace.drop s.trace.length
  if n ≤ es.length then assertReset { replay (es.take n) s with cmds := t.cmds, draws := t.draws }
  else { t with rstN := .asserted }

end Sys2Proof.Machine
end

