-- ==== Sys2Proof/Machine/Step.lean ====
section
/-!
DEFINITION. One step of the machine: the assertion of reset (70_reset_and_hazards.md rule R280), the resumption of a
`WRBLK` that waits for payload (30_encoding.md rule R97), or the next command word run to its end (10_state.md rule R30) or
to the fall of `RST_n` inside it.
-/

namespace Sys2Proof.Machine

/-- A command word that the block has taken (R95, R252). -/
def runWord (w : CmdWord) (s : State) : Host.Outcome State Fault Refusal :=
  match decode w with
  | .ok i => exec i s
  | .error _ => .next (raiseError .illegalCommand s)

/-- What the block does out of reset: it goes on with a waiting command, takes the next one, or, idle with no command
pending, waits (R281). -/
def proceed (s : State) : Host.Outcome State Fault Refusal :=
  match s.seq with
  | .busy cmd _ => resumeBlock cmd s
  | .idle =>
    match fetch s with
    | some (w, t) => runWord w t
    | none => .next s

/-- One step. Up to a fall inside it `RST_n` is 1. -/
def step (s : State) : Host.Outcome State Fault Refusal :=
  if !s.cfg.wf then .refused .malformedConfig
  else
    match s.rstN with
    | .asserted => .next (assertReset s)
    | .released => proceed s
    | .fallsAfter n =>
      match proceed { s with rstN := .released } with
      | .next t => .next (interrupt n s t)
      | .fault f => .fault f
      | .refused r => .refused r

/-- `s` with the word `w` of `nbits` bits as the next command on the port (log entry 2): the block is ready for it and
out of reset, and every bit above `nbits` is 0. -/
def State.withFetchWord (s : State) (nbits w : Nat) : State :=
  { s with
    rstN := .released
    seq := .idle
    cmds := BitVec.ofNat 48 (w % 2 ^ nbits) :: s.cmds }

end Sys2Proof.Machine
end

