-- ==== Sys2Proof/Machine/HostLayer.lean ====
section
/-!
DEFINITION. The host layer: the macros `STORE` and `FIND` of the Key-Value Store (44_host_layer.md). They run on the
host and have no opcode; each is a sequence of block commands sent to an idle block.
-/

namespace Sys2Proof.Machine

/-- The host sends one command with its payload and takes the response. None: the pair is not a command (R97), the
block refused it, or the machine stopped. A payload the block has not taken is withdrawn. -/
def hostCommand (c : Command) (s : State) : Option State :=
  if c.wf then
    match exec c.instr { s with wd := c.payload } with
    | .next t => if t.rsp = s.rsp ++ [okWord 0x00#8] then some { t with wd := s.wd } else none
    | .fault _ | .refused _ => none
  else none

/-- The host reads `n` bytes from `a`: the bytes that come on port `RD` (R206). DESIGN CHOICE (log entry 14), unsafe: an
`a` of 2^15 or more is no `ADDR` (R93) and the spec does not say what the host sends; here the low 15 bits of `a` go into
the command word. -/
def hostRead (a : Nat) (n : Len) (s : State) : Option (List Byte × State) :=
  (hostCommand ⟨.rdblk (BitVec.ofNat 15 a) n, []⟩ s).map (fun t => (t.rd.drop s.rd.length, t))

/-- `STORE base, key[4], value[16]`: one `WRBLK` of 20 bytes, the key first (R231, R232). -/
def storeCommand (base : Addr) (key : Vector Byte 4) (value : Vector Byte 16) : Command :=
  ⟨.wrblk base 20#16, key.toList ++ value.toList⟩

/-- `STORE` run on the machine (R232). -/
def hostStore (base : Addr) (key : Vector Byte 4) (value : Vector Byte 16) (s : State) : Option State :=
  hostCommand (storeCommand base key value) s

/-- The candidate offsets `start + 20*n` below `stop`, in ordinary integers (R12, R233). -/
def candidates (start stop : Nat) : List Nat :=
  (List.range ((stop - start + 19) / 20)).map (fun n => start + 20 * n)

/-- The scan of `FIND` over the candidates: 4 bytes read and compared, on a match the 16 of the value (R233). The result
is the value, or none when not found; it comes with the state after. DESIGN CHOICE (log entry 14), unsafe: for a candidate
`c` from 0x7FFC to 0x7FFF the value address `c + 4` is 2^15 or more, and for a candidate past 0x7FFF `c` is too; `hostRead`
takes the low 15 bits of either. DESIGN CHOICE (log entry 18): R262 gives `KEY_NOT_FOUND` a candidate address but no rule says
which, so it is a free value, drawn by the event's place in the record and not from `draws`: the report changes nothing but
the record and the port `DIAG`. -/
def scan (key : Vector Byte 4) : List Nat → State → Option (Option (List Byte) × State)
  | [], s => some (none, emit (.keyNotFound (Config.freeCandidate s.trace.length)) s)
  | c :: rest, s =>
    match hostRead c 4#16 s with
    | none => none
    | some (k, t) =>
      if k = key.toList then
        (hostRead (c + 4) 16#16 t).map (fun r => (some r.1, emit (.keyFound c) r.2))
      else scan key rest t

/-- `FIND key[4], start, end` (R233). -/
def hostFind (key : Vector Byte 4) (start stop : Nat) (s : State) : Option (Option (List Byte) × State) :=
  scan key (candidates start stop) s

end Sys2Proof.Machine
end

