-- ==== Sys2Proof/Safety.lean ====
section
/-!
DEFINITION. What the spec says holds at every command boundary (70_reset_and_hazards.md rules R288 to R290), the
invariant of the machine, and the words that statements about it are made in.
-/

namespace Sys2Proof.Machine

/-! ### The levels and events the spec's rules speak of -/

/-- Mirror bit `idx`: `M_c[idx div 8][idx mod 8]` (R25). -/
def mirrorBit (m : List Byte) (idx : Nat) : Bool := (m.getD (idx / 8) 0x00#8).getLsbD (idx % 8)

/-- The levels a mirror spells, index 0 first (R131). -/
def mirrorLevels (m : List Byte) : List Level :=
  m.flatMap (fun w => (List.range 8).map (fun b => levelOf (w.getLsbD b)))

/-- The levels of an address on 15 lines, line 0 first (R35, R70). -/
def addressLevels (a : Addr) : List Level := (List.range 15).map (fun i => levelOf (a.getLsbD i))

/-- The pin events of `flush(c)` for a mirror, in order (R123). -/
def flushEvents (c : ChainId) (m : List Byte) : List Event :=
  .drive (.lat c) false ::
    (serialStream m).flatMap (fun b => [.drive (.ser c) b, .drive (.sck c) true, .drive (.sck c) false]) ++
    [.drive (.lat c) true]

/-- Whether an event is a pin event (R10, R301). -/
def isDrive : Event → Bool
  | .drive _ _ => true
  | .mode _ | .data _ | .sample _ _ | .delay _ _ | .take _ | .give _ | .report _ => false

/-- How many pin events a record holds (R301). -/
def pinEvents (es : List Event) : Nat := (es.filter isDrive).length

/-- `F_c`: the pin events of one flush of `n` banks (R123, R301). -/
def flushCount (n : Nat) : Nat := 2 + 24 * n

/-- The pin events of one `setAddress` (R156). -/
def addressCount (c : Cfg) : Nat :=
  match c.backend with
  | .direct => 15
  | .chain1 => 15 * flushCount c.n1
  | .chain2 => c.k * flushCount c.n1 + (15 - c.k) * flushCount c.n2
  | .unsupplied => 0

/-- A chain as a flush of its mirror leaves it (R131). -/
def settledChain (m : List Byte) : Chain where
  mirror := m
  ser := levelOf (mirrorBit m 0)
  sck := .low
  lat := .high
  sh := mirrorLevels m
  out := mirrorLevels m

/-- `s` after a command of the chain family has flushed the mirror `m` out to chain `c` and answered success: the
chain, the events and the response, and nothing else (R126 to R129). -/
def flushedAndAnswered (c : ChainId) (m : List Byte) (s : State) : State :=
  { s with trace := s.trace ++ flushEvents c m, rsp := s.rsp ++ [0x8000#16] }.setChain c (settledChain m)

/-- The pin events of the address part of `BEGIN` (R191). -/
def beginAddressEvents (s : State) : List Event :=
  match s.cfg.backend with
  | .direct => (List.finRange 15).map (fun i => .drive (.apin i) (s.apin.getLsbD i))
  | .chain1 => .drive (.sck .one) false :: flushEvents .one s.chain1.mirror
  | .chain2 =>
    .drive (.sck .one) false :: flushEvents .one s.chain1.mirror ++
      .drive (.sck .two) false :: flushEvents .two s.chain2.mirror
  | .unsupplied => []

/-- The events of `BEGIN`, in order (R191). -/
def beginEvents (s : State) : List Event :=
  [.drive .ceN true, .drive .oeN true, .drive .weN true, .mode .input] ++ beginAddressEvents s

/-- The events of a write transaction after its `setAddress`, in order (R195). -/
def writeEvents (c : Cfg) (d : Byte) : List Event :=
  [.mode .output, .data d, .drive .ceN false, .drive .weN false, .delay .writePulse c.tWP, .drive .weN true,
    .drive .ceN true]

/-- The events of a read transaction after its `setAddress`, in order (R198). -/
def readEvents (c : Cfg) (v : Byte) : List Event :=
  [.mode .input, .drive .ceN false, .drive .oeN false, .delay .readHold c.tRD] ++ sampleEvents v ++
    [.drive .oeN true, .drive .ceN true]

/-- The pins that carry or serialise an address: all but the control lines (R26, R27). -/
def Pin.isControl : Pin → Bool
  | .ceN | .oeN | .weN => true
  | .ser _ | .sck _ | .lat _ | .apin _ => false

/-- Whether an event is a pin event that moves no control line. -/
def isAddressDrive : Event → Bool
  | .drive p _ => !p.isControl
  | .mode _ | .data _ | .sample _ _ | .delay _ _ | .take _ | .give _ | .report _ => false

/-- `es` is the record of one `setAddress(a)` (R152, R153, R156, R207): its pin events, as many as the configuration takes,
none of them on a control line; the settle delay; the diagnostic. -/
def IsAddressRecord (c : Cfg) (a : Addr) (es : List Event) : Prop :=
  ∃ ps, es = ps ++ [.delay .addressSettle c.tAS, .report (.addrSet a)] ∧ ps.length = addressCount c ∧
    ∀ e ∈ ps, isAddressDrive e = true

/-- `es` is the record of one `readByte(a)` that samples `v` (R198, R207). -/
def IsReadRecord (c : Cfg) (a : Addr) (v : Byte) (es : List Event) : Prop :=
  ∃ x, IsAddressRecord c a x ∧ es = x ++ readEvents c v ++ [.report (.byteRead a v)]

/-- `es` is the record of one `writeByte(a, d)` (R195, R207), its verification included, which reads `d` back (R65, R197). -/
def IsWriteRecord (c : Cfg) (a : Addr) (d : Byte) (es : List Event) : Prop :=
  ∃ x y, IsAddressRecord c a x ∧ es = x ++ writeEvents c d ++ [.report (.byteWritten a d)] ++ y ∧
    (if c.verify then IsReadRecord c a d y else y = [])

/-- `es` is the record of writing `payload` to consecutive addresses from `ba` on: for each byte, its taking and one whole
`writeByte` (R203, R205). -/
def IsBlockWriteRecord (c : Cfg) : Addr → List Byte → List Event → Prop
  | _, [], es => es = []
  | ba, d :: rest, es =>
    ∃ x y, es = .take d :: x ++ y ∧ IsWriteRecord c ba d x ∧ IsBlockWriteRecord c (nextAddr ba) rest y

/-- `es` is the record of reading the bytes `vs` from consecutive addresses from `ba` on: for each byte, one whole
`readByte` and its sending (R203, R206). -/
def IsBlockReadRecord (c : Cfg) : Addr → List Byte → List Event → Prop
  | _, [], es => es = []
  | ba, v :: rest, es =>
    ∃ x y, es = x ++ .give v :: y ∧ IsReadRecord c ba v x ∧ IsBlockReadRecord c (nextAddr ba) rest y

/-- The diagnostics that a record sends, in order (R262). -/
def reports (es : List Event) : List Diag :=
  es.filterMap (fun e => match e with
    | .report d => some d
    | .drive _ _ | .mode _ | .data _ | .sample _ _ | .delay _ _ | .take _ | .give _ => none)

/-- How many payload bytes a record takes (R97). -/
def takenBytes (es : List Event) : Nat :=
  es.countP (fun e => match e with
    | .take _ => true
    | .drive _ _ | .mode _ | .data _ | .sample _ _ | .delay _ _ | .give _ | .report _ => false)

/-- The bytes that a record sends on `RD`, in order (R97). -/
def givenBytes (es : List Event) : List Byte :=
  es.filterMap (fun e => match e with
    | .give b => some b
    | .drive _ _ | .mode _ | .data _ | .sample _ _ | .delay _ _ | .take _ | .report _ => none)

/-- The low address bits that chain 1 carries (R21, R152). -/
def lowBits (c : Cfg) : Nat :=
  match c.backend with
  | .chain1 => 15
  | .chain2 => c.k
  | .direct | .unsupplied => 0

/-- Of the address registers `t` differs from `s` at most where an address change writes (R155): direct pins only under
`DIRECT`, no absent chain, no surplus bit. -/
def AddressFrame (s t : State) : Prop :=
  (s.cfg.backend ≠ .direct → t.apin = s.apin ∧ t.apinPins = s.apinPins) ∧
    (chainExists s.cfg .one = false → t.chain1 = s.chain1) ∧
    (chainExists s.cfg .two = false → t.chain2 = s.chain2) ∧
    (∀ j, lowBits s.cfg ≤ j → mirrorBit t.chain1.mirror j = mirrorBit s.chain1.mirror j) ∧
    (∀ j, 15 - s.cfg.k ≤ j → mirrorBit t.chain2.mirror j = mirrorBit s.chain2.mirror j)

/-! ### Invariants -/

/-- A chain of `n` banks has `n` mirror registers and `8*n` bits in each stage (R25, R33, R34). -/
abbrev chainShape (n : Nat) (ch : Chain) : Prop :=
  ch.mirror.length = n ∧ ch.sh.length = 8 * n ∧ ch.out.length = 8 * n

/-- Chain consistency (R288, R131): both stages equal the mirror, clock low, latch high, `SER` at the last bit sent,
`M_c[0][0]`. -/
abbrev chainConsistent (ch : Chain) : Prop :=
  ch.out = mirrorLevels ch.mirror ∧ ch.sh = mirrorLevels ch.mirror ∧ ch.sck = .low ∧ ch.lat = .high ∧
    ch.ser = levelOf (mirrorBit ch.mirror 0)

/-- Every existing chain is consistent and direct pins equal `APIN` (R288). -/
abbrev State.Consistent (s : State) : Prop :=
  (chainExists s.cfg .one = true → chainConsistent s.chain1) ∧
    (chainExists s.cfg .two = true → chainConsistent s.chain2) ∧
    (s.cfg.backend = .direct → s.apinPins = addressLevels s.apin)

/-- The control lines are idle (R290). -/
abbrev State.LinesIdle (s : State) : Prop := s.ceN = .high ∧ s.oeN = .high ∧ s.weN = .high

/-- The configuration is not malformed, every register has its width, the memory its canonical form, and the memory
device has seen nothing out of order. -/
abbrev State.Sound (s : State) : Prop :=
  s.cfg.wf = true ∧ chainShape s.cfg.n1 s.chain1 ∧ chainShape s.cfg.n2 s.chain2 ∧ s.apinPins.length = 15 ∧
    Memory.wf s.mem = true ∧ s.pulse = .off ∧ s.hazard = none

/-- What holds from the response of the first `BEGIN` on, whenever no transaction runs (R288, R290). -/
abbrev State.Ready (s : State) : Prop := s.Sound ∧ s.init = true ∧ s.LinesIdle ∧ s.Consistent

/-- A command boundary after `BEGIN` (R289): the sequencer is idle, so no counter is live (R31). -/
abbrev State.AtBoundary (s : State) : Prop := s.Ready ∧ s.seq = .idle

/-- `SEQ` is busy in a `WRBLK`. -/
def Seq.inBlockWrite : Seq → Bool
  | .busy (.wrblk _ _) _ => true
  | .idle | .busy _ _ => false

/-- A `WRBLK` waits for its next payload byte, "with the control lines idle" (R97, R297). -/
abbrev State.Waiting (s : State) : Prop := s.Ready ∧ s.seq.inBlockWrite = true ∧ s.counters.bc ≠ 0#16

/-- Reset has happened and `BEGIN` has not (R280, R299). -/
abbrev State.BeforeBegin (s : State) : Prop :=
  s.Sound ∧ s.init = false ∧ s.ceN = .unknown ∧ s.oeN = .unknown ∧ s.weN = .unknown ∧ s.ddir = .input ∧
    s.seq = .idle

/-- The invariant of the machine. -/
abbrev State.Inv (s : State) : Prop := s.BeforeBegin ∨ s.AtBoundary ∨ s.Waiting

end Sys2Proof.Machine
end

