-- ==== Sys2Proof/Certificates/Slice0/Obligations.lean ====
section
/-!
DEFINITION. The statements for the provers. Each docstring names the rule of spec/ it formalises, or says that it rests on
a choice of the model. `AtBoundary` is the invariant of a command boundary after `BEGIN` (R288 to R290, R24), `BeforeBegin`
that of the time from reset to the first `BEGIN`; `ResetMeetsInvariant` and `StepKeepsInvariant` state both. A free value
stands in a statement as the opaque constant it is: the statement holds for every value of it.
-/

open Sys2Proof Sys2Proof.Machine

/-! ### Reset, the step, the whole machine -/

/-- The reset values of the block's registers and pins (R24 to R30, 10_state.md section 5), for every configuration. -/
def Obligations.ResetLeavesBlockRegisters : Prop :=
  ∀ c : Cfg,
    (State.resetFor c).cfg = c ∧ (State.resetFor c).init = false ∧ (State.resetFor c).seq = .idle ∧
    (State.resetFor c).chain1.mirror = List.replicate c.n1 0x00#8 ∧
    (State.resetFor c).chain2.mirror = List.replicate c.n2 0x00#8 ∧
    (∀ ch, ((State.resetFor c).chain ch).ser = .unknown ∧ ((State.resetFor c).chain ch).sck = .unknown ∧
      ((State.resetFor c).chain ch).lat = .unknown) ∧
    (State.resetFor c).apin = 0#15 ∧ (State.resetFor c).apinPins = List.replicate 15 .unknown ∧
    (State.resetFor c).ddir = .input ∧ (State.resetFor c).ceN = .unknown ∧ (State.resetFor c).oeN = .unknown ∧
    (State.resetFor c).weN = .unknown

/-- The state after reset meets the machine's invariant, whatever the configuration (R280, R299). -/
def Obligations.ResetMeetsInvariant : Prop :=
  (∀ c : Cfg, c.wf = true → (State.resetFor c).Inv) ∧ State.reset.Inv

/-- From every state that meets the invariant a step gives a state that meets it (R288, R289, R290). -/
def Obligations.StepKeepsInvariant : Prop :=
  ∀ s t : State, s.Inv → step s = .next t → t.Inv

/-- No state that meets the invariant stops: no write pulse is ever unstable (R292), the data lines are never contended
(R293), and no step lacks a meaning. -/
def Obligations.StepNeverStops : Prop :=
  ∀ s : State, s.Inv → ∃ t, step s = .next t

/-- A step of an idle block out of reset takes the next command word and runs the command it decodes to (R30, R90). -/
def Obligations.StepRunsDecodedCommand : Prop :=
  ∀ (s : State) (w : CmdWord) (rest : List CmdWord) (i : Instr),
    s.cfg.wf = true → s.rstN = .released → s.seq = .idle → s.cmds = w :: rest → decode w = .ok i →
      step s = exec i { s with cmds := rest }

/-- Whether a word is illegal is decided from its bits alone; the all-zero and the all-one word are illegal. An illegal word
answers 0x0100 "whatever the state" and changes nothing else: no payload byte is taken, no pin moves (R251, R252). -/
def Obligations.IllegalWordAnswered : Prop :=
  (∃ e, decode 0#48 = .error e) ∧ (∃ e, decode (BitVec.allOnes 48) = .error e) ∧
  ∀ (s : State) (w : CmdWord) (rest : List CmdWord) (e : DecodeError),
    s.cfg.wf = true → s.rstN = .released → s.seq = .idle → s.cmds = w :: rest → decode w = .error e →
      step s = .next { s with cmds := rest, rsp := s.rsp ++ [0x0100#16] }

/-- An idle block with no command pending waits (R281). -/
def Obligations.IdleBlockWaits : Prop :=
  ∀ s : State, s.cfg.wf = true → s.rstN = .released → s.seq = .idle → s.cmds = [] → step s = .next s

/-- The assertion of `RST_n` puts every register of the block at its reset value and every pin at `X`, abandons a
running command, and leaves everything sent or received; the memory stays unless a write pulse was in progress, which
leaves every cell unspecified (R280). What the banks hold afterwards, that pending words and records stay, and where the
free `DOUT`, `BA`, `BC` and cells come from are the model's choices (log entries 3, 4, 5, 6, 9). -/
def Obligations.ResetAssertionStep : Prop :=
  ∀ s : State, s.cfg.wf = true → s.rstN = .asserted →
    step s = .next
      { State.resetFor s.cfg with
        rstN := .asserted
        counters := ⟨Config.freeAddr s.draws, Config.freeLen s.draws⟩
        dout := Config.freeByte s.draws
        draws := s.draws + 1
        mem := if s.pulse = .off then s.mem else []
        memEpoch := if s.pulse = .off then s.memEpoch else s.memEpoch + 1
        cmds := s.cmds
        wd := s.wd
        rd := s.rd
        rsp := s.rsp
        diag := s.diag
        trace := s.trace }

/-- The configuration is "fixed at construction": no step from any state changes it (R20). -/
def Obligations.ConfigurationNeverChanges : Prop :=
  ∀ s t : State, step s = .next t → t.cfg = s.cfg

/-- `INIT` is never cleared by any command (R24); only reset does (R287). -/
def Obligations.InitClearedOnlyByReset : Prop :=
  ∀ s t : State, s.rstN = .released → s.init = true → step s = .next t → t.init = true

/-- A malformed configuration has no instance: no step runs in it (R23). -/
def Obligations.MalformedConfigurationRefused : Prop :=
  ∀ s : State, s.cfg.wf = false → step s = .refused .malformedConfig

/-- Every command at every boundary ends in a next state in which the control lines are idle, the chains consistent and
the registers of their widths, and the configuration, the pending commands and `RST_n` as before (R288, R290, R301). -/
def Obligations.EveryCommandEndsReady : Prop :=
  ∀ (i : Instr) (s : State), s.AtBoundary →
    ∃ t, exec i s = .next t ∧ t.Ready ∧ t.cfg = s.cfg ∧ t.cmds = s.cmds ∧ t.rstN = s.rstN ∧
      t.memEpoch = s.memEpoch

/-- "Every accepted command word produces exactly one response word" (R98): the block is idle again after exactly one
response, or it waits for payload and has sent none. -/
def Obligations.OneResponsePerCommand : Prop :=
  ∀ (i : Instr) (s t : State), s.AtBoundary → exec i s = .next t →
    (t.AtBoundary ∧ ∃ r, t.rsp = s.rsp ++ [r]) ∨ (t.Waiting ∧ t.rsp = s.rsp)

/-- Only the two write commands change a cell; in particular chain and data-bus commands between transactions "change
the address and data lines but never the memory" (R292). -/
def Obligations.OnlyWritesChangeCells : Prop :=
  ∀ (i : Instr) (s t : State), s.AtBoundary → exec i s = .next t →
    (∀ a d, i ≠ .wrbyte a d) → (∀ a n, i ≠ .wrblk a n) → ∀ a, memRead t a = memRead s a

/-! ### Encoding -/

/-- Decoding the word of any command gives it back, with every operand at every value (R90 to R93). -/
def Obligations.DecodeOfEncode : Prop :=
  ∀ i : Instr, decode (encode i) = .ok i

/-- Every legal word is the one word of its command: no bit of it is dropped (R95). -/
def Obligations.EncodeOfDecode : Prop :=
  ∀ (w : CmdWord) (i : Instr), decode w = .ok i → encode i = w

/-- The decoder accepts exactly the words of the opcode map, each as the command of its row: "a word `w` is the command
when `w and mask = match`" (R92, R95). -/
def Obligations.DecoderFollowsOpcodeMap : Prop :=
  ∀ (w : CmdWord) (m : String),
    (∃ i, decode w = .ok i ∧ i.mnemonic = m) ↔
      (∃ r ∈ opcodeTable, r.mnemonic = m ∧ w &&& r.mask = r.pattern)

/-- No word belongs to two rows of the opcode map (R95). -/
def Obligations.OpcodeRowsDisjoint : Prop :=
  ∀ (w : CmdWord), ∀ r ∈ opcodeTable, ∀ q ∈ opcodeTable,
    w &&& r.mask = r.pattern → w &&& q.mask = q.pattern → r = q

/-- Words written out from the written forms of R100 and from R94 decode to what they stand for, and the all-zero and
all-one words to nothing. -/
def Obligations.KnownWordsDecode : Prop :=
  decode 0x2C0000000000#48 = .ok (.setbit .two 0x00#8 true) ∧ decode 0x600000000180#48 = .ok (.setaddr 0x0180#15) ∧
    decode 0x740000000000#48 = .ok (.dmode .output) ∧
    decode 0xA0AA00000100#48 = .ok (.wrbyte 0x0100#15 0xAA#8) ∧
    decode 0xC00000060100#48 = .ok (.wrblk 0x0100#15 6#16) ∧
    decode 0x000000000000#48 = .error (.reservedOpcode 0x0#4) ∧
    decode 0xFFFFFFFFFFFF#48 = .error (.reservedOpcode 0xF#4)

/-! ### Refusals -/

/-- Every command but `BEGIN` answers 0x0200 while `INIT = 0` and changes nothing else (R251, R253). -/
def Obligations.RefusedBeforeBegin : Prop :=
  ∀ (i : Instr) (s : State), i ≠ .begin → s.init = false →
    exec i s = .next { s with rsp := s.rsp ++ [0x0200#16] }

/-- Chain 2 exists only under `CHAIN2`, chain 1 under `CHAIN1` and `CHAIN2`; a chain command that names a chain that does
not exist answers 0x0300 and changes nothing else, whatever its other operands; under `DIRECT` every one of them does
(R254). -/
def Obligations.AbsentChainRefused : Prop :=
  ∀ (c : ChainId) (idx : Byte) (v : Bool) (i : Instr) (s : State), s.cfg.wf = true → s.init = true →
    i ∈ [.setbit c idx v, .clrall c, .setall c, .flush c] →
      (chainExists s.cfg c = true ↔ s.cfg.backend = .chain2 ∨ (s.cfg.backend = .chain1 ∧ c = .one)) ∧
      (s.cfg.backend = .direct ∨ (s.cfg.backend = .chain1 ∧ c = .two) →
        exec i s = .next { s with rsp := s.rsp ++ [0x0300#16] })

/-- `SETBIT` with `IDX >= 8*N_c` on an existing chain answers 0x0400 and changes nothing else (R124, R255). -/
def Obligations.IndexBeyondChainRefused : Prop :=
  ∀ (c : ChainId) (idx : Byte) (v : Bool) (s : State), s.init = true → chainExists s.cfg c = true →
    8 * banks s.cfg c ≤ idx.toNat →
      exec (.setbit c idx v) s = .next { s with rsp := s.rsp ++ [0x0400#16] }

/-- One error is reported, the first of `IllegalCommand`, `NotInitialised`, `NoSuchChain`, `IndexRange` (R258): the whole
cascade for an arbitrary word taken by an idle block, a refused word changing nothing but the response (R251). -/
def Obligations.RefusalPriority : Prop :=
  ∀ (s : State) (w : CmdWord) (rest : List CmdWord),
    s.cfg.wf = true → s.rstN = .released → s.seq = .idle → s.cmds = w :: rest →
      match decode w with
      | .error _ => step s = .next { s with cmds := rest, rsp := s.rsp ++ [0x0100#16] }
      | .ok i =>
        (i ≠ .begin → s.init = false → step s = .next { s with cmds := rest, rsp := s.rsp ++ [0x0200#16] }) ∧
        (∀ c idx v, s.init = true → chainExists s.cfg c = false →
          i ∈ [.setbit c idx v, .clrall c, .setall c, .flush c] →
            step s = .next { s with cmds := rest, rsp := s.rsp ++ [0x0300#16] }) ∧
        (∀ c idx v, s.init = true → chainExists s.cfg c = true → i = .setbit c idx v →
          8 * banks s.cfg c ≤ idx.toNat →
            step s = .next { s with cmds := rest, rsp := s.rsp ++ [0x0400#16] })

/-- The layout of the response word (R99): an executed command answers 0x8000 with its data byte in the low eight bits,
a refusal its code in bits 11 to 8 and nothing else. -/
def Obligations.ResponseWordLayout : Prop :=
  ∀ (ok : Bool) (err : BitVec 4) (data : Byte),
    (responseWord ok err data).getLsbD 15 = ok ∧ (responseWord ok err data).extractLsb' 12 3 = 0#3 ∧
      (responseWord ok err data).extractLsb' 8 4 = err ∧ (responseWord ok err data).extractLsb' 0 8 = data

/-! ### The banks and the flush -/

/-- The event `drive(SCK_c, l)` (R121): a rising edge moves every stage one place and takes `SER_c` into stage 0; a level
that was already there, and a falling edge, move none; no clock event touches the outputs, and no `drive(SER_c, l)` a
stage, nor does any `drive(LAT_c, l)`. From `X` the edge may or may not shift: a stage that holds the same either way keeps
it (log entry 4). -/
def Obligations.ClockEdgeShifts : Prop :=
  ∀ (c : ChainId) (l : Bool) (s : State) (ch t : Chain), s.chain c = ch → (drive (.sck c) l s).chain c = t →
    t.out = ch.out ∧ t.mirror = ch.mirror ∧ t.sck = levelOf l ∧ t.sh.length = ch.sh.length ∧
    (l = false ∨ ch.sck = .high → t.sh = ch.sh) ∧
    (l = true → ch.sck = .low → 0 < ch.sh.length → t.sh[0]? = some ch.ser) ∧
    (l = true → ch.sck = .low → ∀ i, 0 < i → i < ch.sh.length → t.sh[i]? = ch.sh[i - 1]?) ∧
    (l = true → ch.sck = .unknown → ∀ i : Nat,
      ch.sh[i]? = (if i = 0 then some ch.ser else ch.sh[i - 1]?) → t.sh[i]? = ch.sh[i]?) ∧
    ((drive (.ser c) l s).chain c).sh = ch.sh ∧ ((drive (.lat c) l s).chain c).sh = ch.sh

/-- The event `drive(LAT_c, l)` (R122): a rising edge copies the whole shift stage to the outputs at once; a
falling edge, and a level already high, change no output. From `X` the edge may or may not latch: an output that is the same
either way keeps its level (log entry 4). -/
def Obligations.LatchEdgeCopies : Prop :=
  ∀ (c : ChainId) (l : Bool) (s : State) (ch t : Chain), s.chain c = ch → (drive (.lat c) l s).chain c = t →
    t.sh = ch.sh ∧ t.mirror = ch.mirror ∧ t.lat = levelOf l ∧
    (l = true → ch.lat = .low → t.out = ch.sh) ∧
    (l = false ∨ ch.lat = .high → t.out = ch.out) ∧
    (l = true → ch.lat = .unknown → ∀ i : Nat, ch.out[i]? = ch.sh[i]? → t.out[i]? = ch.out[i]?)

/-- A flush performs R123's events in its order, from every state: `2 + 24*N_c` pin events and nothing else (no delay), of
which `8*N_c` raise the clock; it reads the mirror and writes no register of the block but the three pins. -/
def Obligations.FlushEventOrder : Prop :=
  ∀ (c : ChainId) (s : State),
    (flush c s).trace = s.trace ++ flushEvents c (s.chain c).mirror ∧
    (flushEvents c (s.chain c).mirror).length = 2 + 24 * (s.chain c).mirror.length ∧
    pinEvents (flushEvents c (s.chain c).mirror) = 2 + 24 * (s.chain c).mirror.length ∧
    (flushEvents c (s.chain c).mirror).count (.drive (.sck c) true) = 8 * (s.chain c).mirror.length ∧
    ((flush c s).chain c).mirror = (s.chain c).mirror ∧ (flush c s).init = s.init ∧ (flush c s).apin = s.apin ∧
    (flush c s).apinPins = s.apinPins ∧ (flush c s).ddir = s.ddir ∧ (flush c s).dout = s.dout ∧
    (flush c s).ceN = s.ceN ∧ (flush c s).oeN = s.oeN ∧ (flush c s).weN = s.weN ∧
    (∀ d, d ≠ c → (flush c s).chain d = s.chain d)

/-- Whatever the banks held, after a flush every stage and every output `idx` shows `M_c[idx div 8][idx mod 8]`, the
clock is low, the latch high and `SER_c` at `M_c[0][0]` (R131). -/
def Obligations.FlushPutsMirrorOnOutputs : Prop :=
  ∀ (c : ChainId) (s : State) (n : Nat), s.ceN = .high → 1 ≤ n → chainShape n (s.chain c) → (s.chain c).sck = .low →
    ((flush c s).chain c).mirror = (s.chain c).mirror ∧
    (∀ idx, idx < 8 * n →
      ((flush c s).chain c).out[idx]? = some (levelOf (((s.chain c).mirror.getD (idx / 8) 0x00#8).getLsbD (idx % 8))) ∧
      ((flush c s).chain c).sh[idx]? = ((flush c s).chain c).out[idx]?) ∧
    ((flush c s).chain c).sck = .low ∧ ((flush c s).chain c).lat = .high ∧
    ((flush c s).chain c).ser = levelOf (((s.chain c).mirror.getD 0 0x00#8).getLsbD 0)

/-! ### The Shift-Register Chain commands -/

/-- `SETBIT` (R126): the mirror differs in at most bit `IDX`, which is `V`; the banks show the new mirror after one whole
flush, whether or not the bit changed; the answer is 0x8000; nothing else changes. -/
def Obligations.SetbitResult : Prop :=
  ∀ (c : ChainId) (idx : Byte) (v : Bool) (s : State), s.AtBoundary → chainExists s.cfg c = true →
    idx.toNat < 8 * banks s.cfg c →
    ∃ m, exec (.setbit c idx v) s = .next (flushedAndAnswered c m s) ∧ m.length = (s.chain c).mirror.length ∧
      ∀ j, mirrorBit m j = if j = idx.toNat then v else mirrorBit (s.chain c).mirror j

/-- `CLRALL` (R127): every mirror register is 0x00, flushed out; nothing else changes. -/
def Obligations.ClrallResult : Prop :=
  ∀ (c : ChainId) (s : State), s.AtBoundary → chainExists s.cfg c = true →
    exec (.clrall c) s = .next (flushedAndAnswered c (List.replicate (banks s.cfg c) 0x00#8) s)

/-- `SETALL` (R128): every mirror register is 0xFF, flushed out; nothing else changes. -/
def Obligations.SetallResult : Prop :=
  ∀ (c : ChainId) (s : State), s.AtBoundary → chainExists s.cfg c = true →
    exec (.setall c) s = .next (flushedAndAnswered c (List.replicate (banks s.cfg c) 0xFF#8) s)

/-- `FLUSH` at a command boundary (R129, R130): the mirror's pin events and the answer are the only effect; no register,
no mirror bit, no bank stage and no bank output changes. -/
def Obligations.FlushChangesNothing : Prop :=
  ∀ (c : ChainId) (s : State), s.AtBoundary → chainExists s.cfg c = true →
    exec (.flush c) s = .next
      { s with trace := s.trace ++ flushEvents c (s.chain c).mirror, rsp := s.rsp ++ [0x8000#16] }

/-! ### The Address Bus command -/

/-- `SETADDR` (R151, R155): the lines show the operand; exactly the bits that carry address bits are written, every other
mirror bit keeps its value; the chains stay consistent; the answer is 0x8000; nothing else changes. Its events are those
of `setAddress` and no other, and they are the record that R152, R153 and R207 give. -/
def Obligations.SetaddrResult : Prop :=
  ∀ (a : Addr) (s : State), s.AtBoundary →
    ∃ t, exec (.setaddr a) s = .next t ∧
      t = { s with
              chain1 := t.chain1, chain2 := t.chain2, apin := t.apin, apinPins := t.apinPins,
              rsp := s.rsp ++ [0x8000#16], diag := s.diag ++ [.addrSet a], trace := (setAddress a s).trace } ∧
      (∃ es, t.trace = s.trace ++ es ∧ IsAddressRecord s.cfg a es) ∧
      t.AtBoundary ∧ shownAddress t = some a.toNat ∧
      (t.apin = if s.cfg.backend = .direct then a else s.apin) ∧
      (∀ j, mirrorBit t.chain1.mirror j = if j < lowBits s.cfg then a.getLsbD j else mirrorBit s.chain1.mirror j) ∧
      (∀ j, mirrorBit t.chain2.mirror j =
        if s.cfg.backend = .chain2 ∧ j < 15 - s.cfg.k then a.getLsbD (s.cfg.k + j) else mirrorBit s.chain2.mirror j) ∧
      AddressFrame s t

/-- Every backend walks the same intermediate addresses: after `n` of the 15 bit writes the lines show the low `n` bits
of the operand below the old upper bits (R154). -/
def Obligations.IntermediateAddresses : Prop :=
  ∀ (a : Addr) (s : State) (old n : Nat), s.AtBoundary → shownAddress s = some old → n ≤ 15 →
    shownAddress (programBits a n s) = some (old / 2 ^ n * 2 ^ n + a.toNat % 2 ^ n)

/-- `SETADDR` performs the pin events of R156, then one settle delay of at least `T_AS` (R153), and has no other delay in
it; then it reports the address. The count is R156's, which the spec derives. -/
def Obligations.AddressEventCount : Prop :=
  ∀ (a : Addr) (s : State), s.AtBoundary →
    ∃ t es, exec (.setaddr a) s = .next t ∧
      t.trace = s.trace ++ es ++ [.delay .addressSettle s.cfg.tAS, .report (.addrSet a)] ∧
      pinEvents es = addressCount s.cfg ∧ es.length = addressCount s.cfg

/-! ### The Data Bus commands -/

/-- `DMODE` (R171): `DDIR` takes the operand; nothing else changes. -/
def Obligations.DmodeResult : Prop :=
  ∀ (d : Dir) (s : State), s.AtBoundary →
    exec (.dmode d) s = .next
      { s with ddir := d, trace := s.trace ++ [.mode d], rsp := s.rsp ++ [0x8000#16] }

/-- `DWRITE` (R173, R174): in output mode `DOUT` takes the byte; in input mode it takes a free byte. No cell and nothing
else changes. That the free byte is the next of the model's draws is the model's form of `any8()` (log entry 6). -/
def Obligations.DwriteResult : Prop :=
  ∀ (b : Byte) (s : State), s.AtBoundary →
    exec (.dwrite b) s = .next
      { s with
        dout := if s.ddir = .output then b else Config.freeByte s.draws
        draws := if s.ddir = .output then s.draws else s.draws + 1
        trace := s.trace ++ [.data b]
        rsp := s.rsp ++ [0x8000#16] }

/-- `DREAD` (R176) at a command boundary answers 0x80vv with a free byte vv, in either mode, and changes nothing else.
That the byte is the next of the model's draws is the model's form of `any8()` (log entry 6). -/
def Obligations.DreadResult : Prop :=
  ∀ s : State, s.AtBoundary →
    exec .dread s = .next
      { s with
        draws := s.draws + 1
        trace := s.trace ++ sampleEvents (Config.freeByte s.draws)
        rsp := s.rsp ++ [0x80#8 ++ Config.freeByte s.draws] }

/-- What `read()` returns, in every state, by the cases of R177: the cell's byte while the device drives and the block
does not, a free byte in the two others. Line 0 is sampled first in time and line `i` gives bit `i` (R70, R175). -/
def Obligations.SampleByCase : Prop :=
  ∀ (s : State) (a : Nat),
    (readBus s).2.trace = s.trace ++ (List.finRange 8).map (fun i => .sample i ((readBus s).1.getLsbD i)) ∧
    (s.ddir = .input → s.ceN = .low → s.oeN = .low → s.weN = .high → shownAddress s = some a →
      (readBus s).1 = memRead s a) ∧
    (s.ddir = .input → ¬ (s.ceN = .low ∧ s.oeN = .low ∧ s.weN = .high) → (readBus s).1 = Config.freeByte s.draws) ∧
    (s.ddir = .output → (readBus s).1 = Config.freeByte s.draws)

/-! ### Initialisation -/

/-- The first `BEGIN` (R191): lines idle, data bus in input mode, every existing chain flushed from its mirror or the
direct pins at `APIN`, `INIT = 1`, the memory an arbitrary function from here on (R40); mirrors, `APIN` and `DOUT` are
not changed. The events are R191's in its order. -/
def Obligations.FirstBeginResult : Prop :=
  ∀ s : State, s.BeforeBegin →
    ∃ t, exec .begin s = .next t ∧ t.AtBoundary ∧
      t = { s with
              init := true, ceN := .high, oeN := .high, weN := .high, ddir := .input
              chain1 := if chainExists s.cfg .one then settledChain s.chain1.mirror else s.chain1
              chain2 := if chainExists s.cfg .two then settledChain s.chain2.mirror else s.chain2
              apinPins := if s.cfg.backend = .direct then addressLevels s.apin else s.apinPins
              mem := [], memEpoch := s.memEpoch + 1
              trace := s.trace ++ beginEvents s, rsp := s.rsp ++ [0x8000#16] } ∧
      ∀ a, memRead t a = Config.memByte (s.memEpoch + 1) a

/-- A repeated `BEGIN` (R192): the same events, the data bus to input mode, and nothing cleared. -/
def Obligations.RepeatedBeginResult : Prop :=
  ∀ s : State, s.AtBoundary →
    exec .begin s = .next
      { s with ddir := .input, trace := s.trace ++ beginEvents s, rsp := s.rsp ++ [0x8000#16] }

/-! ### Byte transactions -/

/-- `WRBYTE` (R195): the operand's cell takes the operand's byte, every other cell is unchanged, the lines show the
operand, the chains and pins are as `SETADDR` leaves them, `DOUT` holds the byte, the bus is left in output mode, in
input mode when verification ran; the answer is always 0x8000; nothing else changes. -/
def Obligations.WrbyteResult : Prop :=
  ∀ (a : Addr) (d : Byte) (s : State), s.AtBoundary →
    ∃ t, exec (.wrbyte a d) s = .next t ∧
      t = { s with
              chain1 := (setAddress a s).chain1, chain2 := (setAddress a s).chain2, apin := (setAddress a s).apin
              apinPins := (setAddress a s).apinPins, ddir := if s.cfg.verify then .input else .output, dout := d
              mem := t.mem, rsp := s.rsp ++ [0x8000#16], diag := t.diag, trace := t.trace } ∧
      t.AtBoundary ∧ shownAddress t = some a.toNat ∧
      memRead t a.toNat = d ∧ ∀ b, b ≠ a.toNat → memRead t b = memRead s b

/-- The events of `WRBYTE` (R193, R195): address and its settle delay, mode, data, chip-enable, write-enable, the hold,
write-enable up, chip-enable up, in this order, the diagnostics where R207 has them; with verification the read transaction
follows (R197). No event of either address part touches a control line. -/
def Obligations.WriteSequenceOrder : Prop :=
  ∀ (a : Addr) (d : Byte) (s t : State), s.AtBoundary → exec (.wrbyte a d) s = .next t →
    ∃ es verification,
      t.trace = s.trace ++ es ++ [.delay .addressSettle s.cfg.tAS, .report (.addrSet a)] ++
        [.mode .output, .data d, .drive .ceN false, .drive .weN false, .delay .writePulse s.cfg.tWP, .drive .weN true,
          .drive .ceN true] ++ [.report (.byteWritten a d)] ++ verification ∧
      es.length = addressCount s.cfg ∧ (∀ e ∈ es, isAddressDrive e = true) ∧
      (s.cfg.verify = false → verification = []) ∧
      (s.cfg.verify = true → ∃ es', es'.length = addressCount s.cfg ∧ (∀ e ∈ es', isAddressDrive e = true) ∧
        verification = es' ++ [.delay .addressSettle s.cfg.tAS, .report (.addrSet a)] ++ readEvents s.cfg d ++
          [.report (.byteRead a d)])

/-- `RDBYTE` (R198): answers the cell's byte; no cell changes; the lines show the operand; the bus is left in input mode;
`DOUT` and everything else unchanged. The events are R198's in its order. -/
def Obligations.RdbyteResult : Prop :=
  ∀ (a : Addr) (s : State), s.AtBoundary →
    ∃ t, exec (.rdbyte a) s = .next t ∧
      t = { s with
              chain1 := (setAddress a s).chain1, chain2 := (setAddress a s).chain2, apin := (setAddress a s).apin
              apinPins := (setAddress a s).apinPins, ddir := .input
              rsp := s.rsp ++ [0x80#8 ++ memRead s a.toNat]
              diag := s.diag ++ [.addrSet a, .byteRead a (memRead s a.toNat)]
              trace := (setAddress a s).trace ++
                [.mode .input, .drive .ceN false, .drive .oeN false, .delay .readHold s.cfg.tRD] ++
                sampleEvents (memRead s a.toNat) ++
                [.drive .oeN true, .drive .ceN true, .report (.byteRead a (memRead s a.toNat))] } ∧
      t.AtBoundary ∧ shownAddress t = some a.toNat

/-- Round trip (R68, testable property 1): on every configuration, a write of `v` to `a` followed by a read of `a`
answers `v`, and a read of any other address answers what it would have answered before. -/
def Obligations.WriteThenRead : Prop :=
  ∀ (a b : Addr) (v : Byte) (s : State), s.AtBoundary →
    ∃ t u, exec (.wrbyte a v) s = .next t ∧ exec (.rdbyte b) t = .next u ∧
      u.rsp = s.rsp ++ [0x8000#16, 0x80#8 ++ (if b = a then v else memRead s b.toNat)]

/-- Verification with the ideal device never warns and never changes the answer (R65, R197): the diagnostics of a write
are those of its transactions, and none is the mismatch warning. -/
def Obligations.VerificationNeverWarns : Prop :=
  ∀ (a : Addr) (d : Byte) (s : State), s.AtBoundary →
    ∃ t es, exec (.wrbyte a d) s = .next t ∧ t.rsp = s.rsp ++ [0x8000#16] ∧ t.diag = s.diag ++ es ∧
      es = [.addrSet a, .byteWritten a d] ++ (if s.cfg.verify then [.addrSet a, .byteRead a d] else []) ∧
      ∀ e ∈ es, isWarning e = false

/-- The controller is backend-agnostic (R158): two blocks of any configurations whose cells agree answer a read of any
address alike and show the same address after it. -/
def Obligations.ReadsDoNotDependOnBackend : Prop :=
  ∀ (a : Addr) (s s' : State), s.AtBoundary → s'.AtBoundary → memRead s a.toNat = memRead s' a.toNat →
    ∃ t t' r, exec (.rdbyte a) s = .next t ∧ exec (.rdbyte a) s' = .next t' ∧ t.rsp = s.rsp ++ [r] ∧
      t'.rsp = s'.rsp ++ [r] ∧ shownAddress t = shownAddress t'

/-! ### Block transactions -/

/-- `WRBLK` whose payload has come (R204, R205): the cells hold the last payload byte that lands on them modulo 2^15,
every other cell is unchanged; the payload is taken; `DOUT` holds the last byte; the answer is 0x8000; an empty block
changes nothing else at all. The record is that of `LEN` whole byte writes at consecutive addresses, so chip-enable rises
between every two bytes (R203), and the diagnostics are those it reports (R207). `BA` and `BC` are dead afterwards: free
values, and a draw of the model's (R31, log entry 3). -/
def Obligations.WrblkResult : Prop :=
  ∀ (a : Addr) (n : Len) (s : State), s.AtBoundary → n.toNat ≤ s.wd.length →
    ∃ t, exec (.wrblk a n) s = .next t ∧
      t = { s with
              chain1 := t.chain1, chain2 := t.chain2, apin := t.apin, apinPins := t.apinPins, mem := t.mem
              ddir := if n = 0#16 then s.ddir else if s.cfg.verify then .input else .output
              dout := ((s.wd.take n.toNat).getLast?).getD s.dout
              wd := s.wd.drop n.toNat
              counters := ⟨Config.freeAddr s.draws, Config.freeLen s.draws⟩, draws := s.draws + 1
              rsp := s.rsp ++ [0x8000#16], diag := t.diag, trace := t.trace } ∧
      t.AtBoundary ∧ AddressFrame s t ∧
      (∃ es, t.trace = s.trace ++ es ∧ IsBlockWriteRecord s.cfg a (s.wd.take n.toNat) es ∧
        t.diag = s.diag ++ reports es) ∧
      (n = 0#16 → t = { s with
        counters := ⟨Config.freeAddr s.draws, Config.freeLen s.draws⟩, draws := s.draws + 1
        rsp := s.rsp ++ [0x8000#16] }) ∧
      (n ≠ 0#16 → shownAddress t = some ((a.toNat + n.toNat - 1) % 32768)) ∧
      (∀ j, j < n.toNat → (∀ j', j < j' → j' < n.toNat → (a.toNat + j') % 32768 ≠ (a.toNat + j) % 32768) →
        some (memRead t ((a.toNat + j) % 32768)) = s.wd[j]?) ∧
      ∀ b, (∀ j, j < n.toNat → (a.toNat + j) % 32768 ≠ b) → memRead t b = memRead s b

/-- `WRBLK` whose payload has not all come (R97, R297): the bytes that have come are written and nothing else (R205, R292),
no response is sent, `SEQ` is busy with `BA` and `BC` at the next byte, and the control lines are idle. That the step ends
there is log entry 13 (DEDUCED). -/
def Obligations.WrblkWaitsForPayload : Prop :=
  ∀ (a : Addr) (n : Len) (s : State), s.AtBoundary → s.wd.length < n.toNat →
    ∃ t, exec (.wrblk a n) s = .next t ∧
      t = { s with
              chain1 := t.chain1, chain2 := t.chain2, apin := t.apin, apinPins := t.apinPins, mem := t.mem
              ddir := if s.wd = [] then s.ddir else if s.cfg.verify then .input else .output
              dout := (s.wd.getLast?).getD s.dout
              wd := [], seq := t.seq
              counters := ⟨BitVec.ofNat 15 (a.toNat + s.wd.length), n - BitVec.ofNat 16 s.wd.length⟩
              diag := t.diag, trace := t.trace } ∧
      t.Waiting ∧ (∃ p, t.seq = .busy (.wrblk a n) p) ∧ AddressFrame s t ∧
      (s.wd ≠ [] → shownAddress t = some ((a.toNat + s.wd.length - 1) % 32768)) ∧
      (∃ es, t.trace = s.trace ++ es ∧ IsBlockWriteRecord s.cfg a s.wd es ∧ t.diag = s.diag ++ reports es) ∧
      (∀ j, j < s.wd.length →
        (∀ j', j < j' → j' < s.wd.length → (a.toNat + j') % 32768 ≠ (a.toNat + j) % 32768) →
        some (memRead t ((a.toNat + j) % 32768)) = s.wd[j]?) ∧
      ∀ b, (∀ j, j < s.wd.length → (a.toNat + j) % 32768 ≠ b) → memRead t b = memRead s b

/-- A waiting `WRBLK` with no byte pending goes on waiting: "a byte that never comes leaves the block busy for ever" (R97).
That a step then leaves the state as it is is log entry 13 (DEDUCED). -/
def Obligations.WaitingBlockStays : Prop :=
  ∀ s : State, s.Waiting → s.rstN = .released → s.wd = [] → step s = .next s

/-- The payload may come in pieces (R97): a `WRBLK` that ran dry and then gets the rest ends in the very state it would
have ended in with all the bytes there from the start. That a later step goes on with the bytes that have come since is log
entry 13 (DEDUCED). -/
def Obligations.PayloadMayComeInPieces : Prop :=
  ∀ (a : Addr) (n : Len) (first rest : List Byte) (s t : State), s.AtBoundary → s.rstN = .released →
    first.length < n.toNat → exec (.wrblk a n) { s with wd := first } = .next t →
      step { t with wd := rest } = exec (.wrblk a n) { s with wd := first ++ rest }

/-- `RDBLK` (R204, R206): byte `j` out is the byte at `(ADDR + j) mod 2^15`; no cell changes; the bus is in input mode
unless the block is empty; the answer is 0x8000, its data 0; an empty block changes nothing else at all. The record is that
of `LEN` whole byte reads at consecutive addresses (R203), and the diagnostics are those it reports (R207). `BA` and `BC`
are dead afterwards: free values, and a draw of the model's (R31, log entry 3). -/
def Obligations.RdblkResult : Prop :=
  ∀ (a : Addr) (n : Len) (s : State), s.AtBoundary →
    ∃ t, exec (.rdblk a n) s = .next t ∧
      t = { s with
              chain1 := t.chain1, chain2 := t.chain2, apin := t.apin, apinPins := t.apinPins
              ddir := if n = 0#16 then s.ddir else .input
              rd := s.rd ++ (List.range n.toNat).map (fun j => memRead s ((a.toNat + j) % 32768))
              counters := ⟨Config.freeAddr s.draws, Config.freeLen s.draws⟩, draws := s.draws + 1
              rsp := s.rsp ++ [0x8000#16], diag := t.diag, trace := t.trace } ∧
      t.AtBoundary ∧ AddressFrame s t ∧
      (∃ es, t.trace = s.trace ++ es ∧ t.diag = s.diag ++ reports es ∧
        IsBlockReadRecord s.cfg a ((List.range n.toNat).map (fun j => memRead s ((a.toNat + j) % 32768))) es) ∧
      (n = 0#16 → t = { s with
        counters := ⟨Config.freeAddr s.draws, Config.freeLen s.draws⟩, draws := s.draws + 1
        rsp := s.rsp ++ [0x8000#16] }) ∧
      (n ≠ 0#16 → shownAddress t = some ((a.toNat + n.toNat - 1) % 32768))

/-- A one-byte block write has the events and the end state of the byte write (R203, R205), but for the taking of the byte
and the counters, which die with a block command (R31, log entry 3). -/
def Obligations.OneByteBlockIsByteWrite : Prop :=
  ∀ (a : Addr) (d : Byte) (s t : State) (es : List Event), s.AtBoundary → exec (.wrbyte a d) s = .next t →
    t.trace = s.trace ++ es →
      exec (.wrblk a 1#16) { s with wd := d :: s.wd } = .next
        { t with
          counters := ⟨Config.freeAddr s.draws, Config.freeLen s.draws⟩, draws := s.draws + 1
          trace := s.trace ++ .take d :: es }

/-! ### The memory device -/

/-- A write interval in which address or data moved, or whose data were not the block's own, is a fault of the sequence
when it ends (R64, U17): the machine stops by name. R64 leaves the cells unspecified there; that the model stops, and that
the cells of the state it drops are unchanged, are its choices (log entry 8, DESIGN CHOICE). -/
def Obligations.UnsteadyWriteFaults : Prop :=
  ∀ s : State, s.ceN = .low → s.weN = .low → s.pulse = .spoiled → s.hazard = none →
    finish (drive .weN true s) = .fault .unstableWrite ∧ (drive .weN true s).mem = s.mem

/-- The block driving against the device has no meaning (R178, U6): the machine stops by name. -/
def Obligations.ContentionRefused : Prop :=
  ∀ s : State, s.ceN = .low → s.oeN = .low → s.weN = .high → s.hazard = none →
    finish (setMode .output s) = .refused .busContention

/-- An address line that moves inside a write interval fails R64's precondition (R64, R291), on every backend: any event of
a pin that is no control line, after which the lines show something else; a direct pin driven to another level; the
latch edge of a chain whose stages differ from its outputs in an address-carrying bit. That the failure is noted as
`spoiled` is the model's (log entry 8, DEDUCED). -/
def Obligations.MovedAddressSpoilsWrite : Prop :=
  ∀ s : State, s.ceN = .low → s.weN = .low →
    (∀ p l, p.isControl = false → addressLines (drive p l s) ≠ addressLines s → (drive p l s).pulse = .spoiled) ∧
    (∀ (i : Fin 15) (l : Bool), s.cfg.backend = .direct → s.apinPins.length = 15 →
      s.apinPins[i.val]? ≠ some (levelOf l) → (drive (.apin i) l s).pulse = .spoiled) ∧
    (s.cfg.backend = .chain1 → s.chain1.lat = .low → s.chain1.sh.take 15 ≠ s.chain1.out.take 15 →
      (drive (.lat .one) true s).pulse = .spoiled) ∧
    (s.cfg.backend = .chain2 → s.chain1.lat = .low → s.chain1.sh.take s.cfg.k ≠ s.chain1.out.take s.cfg.k →
      (drive (.lat .one) true s).pulse = .spoiled) ∧
    (s.cfg.backend = .chain2 → s.chain2.lat = .low →
      s.chain2.sh.take (15 - s.cfg.k) ≠ s.chain2.out.take (15 - s.cfg.k) →
        (drive (.lat .two) true s).pulse = .spoiled)

/-! ### The host layer -/

/-- `STORE` (R231, R232): one `WRBLK` of 20 bytes, after which key byte `i` is at `base + i` and value byte `i` at
`base + 4 + i`, modulo 2^15, and every other cell is as it was. -/
def Obligations.StoreWritesRecord : Prop :=
  ∀ (base : Addr) (key : Vector Byte 4) (value : Vector Byte 16) (s : State), s.AtBoundary →
    ∃ t, hostStore base key value s = some t ∧ t.AtBoundary ∧
      (∀ i (h : i < 4), memRead t ((base.toNat + i) % 32768) = key[i]) ∧
      (∀ i (h : i < 16), memRead t ((base.toNat + 4 + i) % 32768) = value[i]) ∧
      ∀ b, (∀ i, i < 20 → (base.toNat + i) % 32768 ≠ b) → memRead t b = memRead s b

/-- `FIND` (R233): the value of the first candidate, scanning from low to high, whose four bytes equal the key, or
not-found; no cell changes. That a candidate `c` of 2^15 or more, and the value address `c + 4` of a candidate of 0x7FFC
or more, is taken modulo 2^15 is the model's choice (log entry 14, DESIGN CHOICE). -/
def Obligations.FindReturnsFirstMatch : Prop :=
  ∀ (key : Vector Byte 4) (start stop : Nat) (s : State), s.AtBoundary →
    ∃ t, hostFind key start stop s =
        some (((candidates start stop).find? (fun c =>
            (List.range 4).map (fun j => memRead s ((c + j) % 32768)) == key.toList)).map
          (fun c => (List.range 16).map (fun j => memRead s ((c + 4 + j) % 32768))), t) ∧
      t.AtBoundary ∧ ∀ a, memRead t a = memRead s a

/-! ### Inside a command -/

/-- A mode or data change inside a write interval fails R64's precondition: the data were not unchanged throughout. That the
failure is noted as `spoiled` is the model's (log entry 8, DEDUCED). -/
def Obligations.MovedDataSpoilsWrite : Prop :=
  ∀ s : State, s.ceN = .low → s.weN = .low →
    (∀ d, d ≠ s.ddir → (setMode d s).pulse = .spoiled) ∧
    (∀ b, s.ddir = .output → b ≠ s.dout → (writeBus b s).pulse = .spoiled)

/-- Reset inside a command (R280). `es` is what the step records when `RST_n` stays released. When `RST_n` falls after `n`
of these entries the command is abandoned there: its first `n` events have happened and no other, no response is sent,
and the block's registers and pins are at their reset values. The memory is as before if no write pulse had begun, and
wholly unspecified if one was in progress. A fall after more entries than the step has comes when the step is over. The
form of the input, the free values and what stays are the model's choices (log entries 3, 4, 5, 6, 9). -/
def Obligations.ResetInsideCommand : Prop :=
  ∀ (n : Nat) (s t : State) (es : List Event), s.Inv → s.rstN = .fallsAfter n →
    step { s with rstN := .released } = .next t → t.trace = s.trace ++ es →
      (es.length < n → step s = .next { t with rstN := .asserted }) ∧
      (n ≤ es.length → ∃ u, step s = .next u ∧
        u = { State.resetFor s.cfg with
                rstN := .asserted
                counters := ⟨Config.freeAddr t.draws, Config.freeLen t.draws⟩
                dout := Config.freeByte t.draws
                draws := t.draws + 1
                mem := u.mem
                memEpoch := u.memEpoch
                cmds := t.cmds
                wd := s.wd.drop (takenBytes (es.take n))
                rd := s.rd ++ givenBytes (es.take n)
                rsp := s.rsp
                diag := s.diag ++ reports (es.take n)
                trace := s.trace ++ es.take n } ∧
        (.drive .weN false ∉ es.take n → u.mem = s.mem ∧ u.memEpoch = s.memEpoch) ∧
        (∀ xs ys, es.take n = xs ++ [.drive .ceN false, .drive .weN false] ++ ys →
          (∀ l, .drive .ceN l ∉ ys ∧ .drive .weN l ∉ ys) → u.mem = [] ∧ u.memEpoch = s.memEpoch + 1))
end

