-- ==== Sys2Proof/Laws/State.lean ====
section
/-!
SUPPORT. One lemma per field per named update of `State`, each true by definition, so that no later proof unfolds a
record update.
-/

namespace Sys2Proof.Machine

/-! ### `setChain` -/

@[simp] theorem chain_setChain (s : State) (c : ChainId) (ch : Chain) : (s.setChain c ch).chain c = ch := by
  cases c <;> rfl
theorem chain_setChain_of_ne (s : State) {c d : ChainId} (h : d ≠ c) (ch : Chain) :
    (s.setChain c ch).chain d = s.chain d := by
  cases c <;> cases d <;> first | rfl | exact absurd rfl h
@[simp] theorem setChain_chain (s : State) (c : ChainId) : s.setChain c (s.chain c) = s := by cases c <;> rfl
@[simp] theorem setChain_setChain (s : State) (c : ChainId) (a b : Chain) :
    (s.setChain c a).setChain c b = s.setChain c b := by cases c <;> rfl
@[simp] theorem chain_one (s : State) : s.chain .one = s.chain1 := rfl
@[simp] theorem chain_two (s : State) : s.chain .two = s.chain2 := rfl
@[simp] theorem setChain_one (s : State) (ch : Chain) : s.setChain .one ch = { s with chain1 := ch } := rfl
@[simp] theorem setChain_two (s : State) (ch : Chain) : s.setChain .two ch = { s with chain2 := ch } := rfl

@[simp] theorem setChain_cfg (s : State) (c : ChainId) (ch : Chain) : (s.setChain c ch).cfg = s.cfg := by
  cases c <;> rfl
@[simp] theorem setChain_rstN (s : State) (c : ChainId) (ch : Chain) : (s.setChain c ch).rstN = s.rstN := by
  cases c <;> rfl
@[simp] theorem setChain_init (s : State) (c : ChainId) (ch : Chain) : (s.setChain c ch).init = s.init := by
  cases c <;> rfl
@[simp] theorem setChain_seq (s : State) (c : ChainId) (ch : Chain) : (s.setChain c ch).seq = s.seq := by
  cases c <;> rfl
@[simp] theorem setChain_counters (s : State) (c : ChainId) (ch : Chain) : (s.setChain c ch).counters = s.counters := by
  cases c <;> rfl
@[simp] theorem setChain_apin (s : State) (c : ChainId) (ch : Chain) : (s.setChain c ch).apin = s.apin := by
  cases c <;> rfl
@[simp] theorem setChain_apinPins (s : State) (c : ChainId) (ch : Chain) : (s.setChain c ch).apinPins = s.apinPins := by
  cases c <;> rfl
@[simp] theorem setChain_ddir (s : State) (c : ChainId) (ch : Chain) : (s.setChain c ch).ddir = s.ddir := by
  cases c <;> rfl
@[simp] theorem setChain_dout (s : State) (c : ChainId) (ch : Chain) : (s.setChain c ch).dout = s.dout := by
  cases c <;> rfl
@[simp] theorem setChain_ceN (s : State) (c : ChainId) (ch : Chain) : (s.setChain c ch).ceN = s.ceN := by
  cases c <;> rfl
@[simp] theorem setChain_oeN (s : State) (c : ChainId) (ch : Chain) : (s.setChain c ch).oeN = s.oeN := by
  cases c <;> rfl
@[simp] theorem setChain_weN (s : State) (c : ChainId) (ch : Chain) : (s.setChain c ch).weN = s.weN := by
  cases c <;> rfl
@[simp] theorem setChain_mem (s : State) (c : ChainId) (ch : Chain) : (s.setChain c ch).mem = s.mem := by
  cases c <;> rfl
@[simp] theorem setChain_memEpoch (s : State) (c : ChainId) (ch : Chain) : (s.setChain c ch).memEpoch = s.memEpoch := by
  cases c <;> rfl
@[simp] theorem setChain_pulse (s : State) (c : ChainId) (ch : Chain) : (s.setChain c ch).pulse = s.pulse := by
  cases c <;> rfl
@[simp] theorem setChain_hazard (s : State) (c : ChainId) (ch : Chain) : (s.setChain c ch).hazard = s.hazard := by
  cases c <;> rfl
@[simp] theorem setChain_draws (s : State) (c : ChainId) (ch : Chain) : (s.setChain c ch).draws = s.draws := by
  cases c <;> rfl
@[simp] theorem setChain_cmds (s : State) (c : ChainId) (ch : Chain) : (s.setChain c ch).cmds = s.cmds := by
  cases c <;> rfl
@[simp] theorem setChain_wd (s : State) (c : ChainId) (ch : Chain) : (s.setChain c ch).wd = s.wd := by
  cases c <;> rfl
@[simp] theorem setChain_rd (s : State) (c : ChainId) (ch : Chain) : (s.setChain c ch).rd = s.rd := by
  cases c <;> rfl
@[simp] theorem setChain_rsp (s : State) (c : ChainId) (ch : Chain) : (s.setChain c ch).rsp = s.rsp := by
  cases c <;> rfl
@[simp] theorem setChain_diag (s : State) (c : ChainId) (ch : Chain) : (s.setChain c ch).diag = s.diag := by
  cases c <;> rfl
@[simp] theorem setChain_trace (s : State) (c : ChainId) (ch : Chain) : (s.setChain c ch).trace = s.trace := by
  cases c <;> rfl

/-! ### `record` -/

@[simp] theorem record_cfg (e : Event) (s : State) : (record e s).cfg = s.cfg := rfl
@[simp] theorem record_rstN (e : Event) (s : State) : (record e s).rstN = s.rstN := rfl
@[simp] theorem record_init (e : Event) (s : State) : (record e s).init = s.init := rfl
@[simp] theorem record_seq (e : Event) (s : State) : (record e s).seq = s.seq := rfl
@[simp] theorem record_counters (e : Event) (s : State) : (record e s).counters = s.counters := rfl
@[simp] theorem record_chain1 (e : Event) (s : State) : (record e s).chain1 = s.chain1 := rfl
@[simp] theorem record_chain2 (e : Event) (s : State) : (record e s).chain2 = s.chain2 := rfl
@[simp] theorem record_apin (e : Event) (s : State) : (record e s).apin = s.apin := rfl
@[simp] theorem record_apinPins (e : Event) (s : State) : (record e s).apinPins = s.apinPins := rfl
@[simp] theorem record_ddir (e : Event) (s : State) : (record e s).ddir = s.ddir := rfl
@[simp] theorem record_dout (e : Event) (s : State) : (record e s).dout = s.dout := rfl
@[simp] theorem record_ceN (e : Event) (s : State) : (record e s).ceN = s.ceN := rfl
@[simp] theorem record_oeN (e : Event) (s : State) : (record e s).oeN = s.oeN := rfl
@[simp] theorem record_weN (e : Event) (s : State) : (record e s).weN = s.weN := rfl
@[simp] theorem record_mem (e : Event) (s : State) : (record e s).mem = s.mem := rfl
@[simp] theorem record_memEpoch (e : Event) (s : State) : (record e s).memEpoch = s.memEpoch := rfl
@[simp] theorem record_pulse (e : Event) (s : State) : (record e s).pulse = s.pulse := rfl
@[simp] theorem record_hazard (e : Event) (s : State) : (record e s).hazard = s.hazard := rfl
@[simp] theorem record_draws (e : Event) (s : State) : (record e s).draws = s.draws := rfl
@[simp] theorem record_cmds (e : Event) (s : State) : (record e s).cmds = s.cmds := rfl
@[simp] theorem record_wd (e : Event) (s : State) : (record e s).wd = s.wd := rfl
@[simp] theorem record_rd (e : Event) (s : State) : (record e s).rd = s.rd := rfl
@[simp] theorem record_rsp (e : Event) (s : State) : (record e s).rsp = s.rsp := rfl
@[simp] theorem record_diag (e : Event) (s : State) : (record e s).diag = s.diag := rfl
@[simp] theorem record_trace (e : Event) (s : State) : (record e s).trace = s.trace ++ [e] := rfl

/-! ### `emit` -/

@[simp] theorem emit_cfg (d : Diag) (s : State) : (emit d s).cfg = s.cfg := rfl
@[simp] theorem emit_rstN (d : Diag) (s : State) : (emit d s).rstN = s.rstN := rfl
@[simp] theorem emit_init (d : Diag) (s : State) : (emit d s).init = s.init := rfl
@[simp] theorem emit_seq (d : Diag) (s : State) : (emit d s).seq = s.seq := rfl
@[simp] theorem emit_counters (d : Diag) (s : State) : (emit d s).counters = s.counters := rfl
@[simp] theorem emit_chain1 (d : Diag) (s : State) : (emit d s).chain1 = s.chain1 := rfl
@[simp] theorem emit_chain2 (d : Diag) (s : State) : (emit d s).chain2 = s.chain2 := rfl
@[simp] theorem emit_apin (d : Diag) (s : State) : (emit d s).apin = s.apin := rfl
@[simp] theorem emit_apinPins (d : Diag) (s : State) : (emit d s).apinPins = s.apinPins := rfl
@[simp] theorem emit_ddir (d : Diag) (s : State) : (emit d s).ddir = s.ddir := rfl
@[simp] theorem emit_dout (d : Diag) (s : State) : (emit d s).dout = s.dout := rfl
@[simp] theorem emit_ceN (d : Diag) (s : State) : (emit d s).ceN = s.ceN := rfl
@[simp] theorem emit_oeN (d : Diag) (s : State) : (emit d s).oeN = s.oeN := rfl
@[simp] theorem emit_weN (d : Diag) (s : State) : (emit d s).weN = s.weN := rfl
@[simp] theorem emit_mem (d : Diag) (s : State) : (emit d s).mem = s.mem := rfl
@[simp] theorem emit_memEpoch (d : Diag) (s : State) : (emit d s).memEpoch = s.memEpoch := rfl
@[simp] theorem emit_pulse (d : Diag) (s : State) : (emit d s).pulse = s.pulse := rfl
@[simp] theorem emit_hazard (d : Diag) (s : State) : (emit d s).hazard = s.hazard := rfl
@[simp] theorem emit_draws (d : Diag) (s : State) : (emit d s).draws = s.draws := rfl
@[simp] theorem emit_cmds (d : Diag) (s : State) : (emit d s).cmds = s.cmds := rfl
@[simp] theorem emit_wd (d : Diag) (s : State) : (emit d s).wd = s.wd := rfl
@[simp] theorem emit_rd (d : Diag) (s : State) : (emit d s).rd = s.rd := rfl
@[simp] theorem emit_rsp (d : Diag) (s : State) : (emit d s).rsp = s.rsp := rfl
@[simp] theorem emit_diag (d : Diag) (s : State) : (emit d s).diag = s.diag ++ [d] := rfl
@[simp] theorem emit_trace (d : Diag) (s : State) : (emit d s).trace = s.trace ++ [.report d] := rfl

/-! ### `recordAll` -/

@[simp] theorem recordAll_cfg (es : List Event) (s : State) : (recordAll es s).cfg = s.cfg := rfl
@[simp] theorem recordAll_rstN (es : List Event) (s : State) : (recordAll es s).rstN = s.rstN := rfl
@[simp] theorem recordAll_init (es : List Event) (s : State) : (recordAll es s).init = s.init := rfl
@[simp] theorem recordAll_seq (es : List Event) (s : State) : (recordAll es s).seq = s.seq := rfl
@[simp] theorem recordAll_counters (es : List Event) (s : State) : (recordAll es s).counters = s.counters := rfl
@[simp] theorem recordAll_chain1 (es : List Event) (s : State) : (recordAll es s).chain1 = s.chain1 := rfl
@[simp] theorem recordAll_chain2 (es : List Event) (s : State) : (recordAll es s).chain2 = s.chain2 := rfl
@[simp] theorem recordAll_apin (es : List Event) (s : State) : (recordAll es s).apin = s.apin := rfl
@[simp] theorem recordAll_apinPins (es : List Event) (s : State) : (recordAll es s).apinPins = s.apinPins := rfl
@[simp] theorem recordAll_ddir (es : List Event) (s : State) : (recordAll es s).ddir = s.ddir := rfl
@[simp] theorem recordAll_dout (es : List Event) (s : State) : (recordAll es s).dout = s.dout := rfl
@[simp] theorem recordAll_ceN (es : List Event) (s : State) : (recordAll es s).ceN = s.ceN := rfl
@[simp] theorem recordAll_oeN (es : List Event) (s : State) : (recordAll es s).oeN = s.oeN := rfl
@[simp] theorem recordAll_weN (es : List Event) (s : State) : (recordAll es s).weN = s.weN := rfl
@[simp] theorem recordAll_mem (es : List Event) (s : State) : (recordAll es s).mem = s.mem := rfl
@[simp] theorem recordAll_memEpoch (es : List Event) (s : State) : (recordAll es s).memEpoch = s.memEpoch := rfl
@[simp] theorem recordAll_pulse (es : List Event) (s : State) : (recordAll es s).pulse = s.pulse := rfl
@[simp] theorem recordAll_hazard (es : List Event) (s : State) : (recordAll es s).hazard = s.hazard := rfl
@[simp] theorem recordAll_draws (es : List Event) (s : State) : (recordAll es s).draws = s.draws := rfl
@[simp] theorem recordAll_cmds (es : List Event) (s : State) : (recordAll es s).cmds = s.cmds := rfl
@[simp] theorem recordAll_wd (es : List Event) (s : State) : (recordAll es s).wd = s.wd := rfl
@[simp] theorem recordAll_rd (es : List Event) (s : State) : (recordAll es s).rd = s.rd := rfl
@[simp] theorem recordAll_rsp (es : List Event) (s : State) : (recordAll es s).rsp = s.rsp := rfl
@[simp] theorem recordAll_diag (es : List Event) (s : State) : (recordAll es s).diag = s.diag := rfl
@[simp] theorem recordAll_trace (es : List Event) (s : State) : (recordAll es s).trace = s.trace ++ es := rfl

/-! ### `takePayload` -/

@[simp] theorem takePayload_cfg (d : Byte) (r : List Byte) (n : BlockCounters) (s : State) : (takePayload d r n s).cfg = s.cfg := rfl
@[simp] theorem takePayload_rstN (d : Byte) (r : List Byte) (n : BlockCounters) (s : State) : (takePayload d r n s).rstN = s.rstN := rfl
@[simp] theorem takePayload_init (d : Byte) (r : List Byte) (n : BlockCounters) (s : State) : (takePayload d r n s).init = s.init := rfl
@[simp] theorem takePayload_seq (d : Byte) (r : List Byte) (n : BlockCounters) (s : State) : (takePayload d r n s).seq = s.seq := rfl
@[simp] theorem takePayload_counters (d : Byte) (r : List Byte) (n : BlockCounters) (s : State) : (takePayload d r n s).counters = n := rfl
@[simp] theorem takePayload_chain1 (d : Byte) (r : List Byte) (n : BlockCounters) (s : State) : (takePayload d r n s).chain1 = s.chain1 := rfl
@[simp] theorem takePayload_chain2 (d : Byte) (r : List Byte) (n : BlockCounters) (s : State) : (takePayload d r n s).chain2 = s.chain2 := rfl
@[simp] theorem takePayload_apin (d : Byte) (r : List Byte) (n : BlockCounters) (s : State) : (takePayload d r n s).apin = s.apin := rfl
@[simp] theorem takePayload_apinPins (d : Byte) (r : List Byte) (n : BlockCounters) (s : State) : (takePayload d r n s).apinPins = s.apinPins := rfl
@[simp] theorem takePayload_ddir (d : Byte) (r : List Byte) (n : BlockCounters) (s : State) : (takePayload d r n s).ddir = s.ddir := rfl
@[simp] theorem takePayload_dout (d : Byte) (r : List Byte) (n : BlockCounters) (s : State) : (takePayload d r n s).dout = s.dout := rfl
@[simp] theorem takePayload_ceN (d : Byte) (r : List Byte) (n : BlockCounters) (s : State) : (takePayload d r n s).ceN = s.ceN := rfl
@[simp] theorem takePayload_oeN (d : Byte) (r : List Byte) (n : BlockCounters) (s : State) : (takePayload d r n s).oeN = s.oeN := rfl
@[simp] theorem takePayload_weN (d : Byte) (r : List Byte) (n : BlockCounters) (s : State) : (takePayload d r n s).weN = s.weN := rfl
@[simp] theorem takePayload_mem (d : Byte) (r : List Byte) (n : BlockCounters) (s : State) : (takePayload d r n s).mem = s.mem := rfl
@[simp] theorem takePayload_memEpoch (d : Byte) (r : List Byte) (n : BlockCounters) (s : State) : (takePayload d r n s).memEpoch = s.memEpoch := rfl
@[simp] theorem takePayload_pulse (d : Byte) (r : List Byte) (n : BlockCounters) (s : State) : (takePayload d r n s).pulse = s.pulse := rfl
@[simp] theorem takePayload_hazard (d : Byte) (r : List Byte) (n : BlockCounters) (s : State) : (takePayload d r n s).hazard = s.hazard := rfl
@[simp] theorem takePayload_draws (d : Byte) (r : List Byte) (n : BlockCounters) (s : State) : (takePayload d r n s).draws = s.draws := rfl
@[simp] theorem takePayload_cmds (d : Byte) (r : List Byte) (n : BlockCounters) (s : State) : (takePayload d r n s).cmds = s.cmds := rfl
@[simp] theorem takePayload_wd (d : Byte) (r : List Byte) (n : BlockCounters) (s : State) : (takePayload d r n s).wd = r := rfl
@[simp] theorem takePayload_rd (d : Byte) (r : List Byte) (n : BlockCounters) (s : State) : (takePayload d r n s).rd = s.rd := rfl
@[simp] theorem takePayload_rsp (d : Byte) (r : List Byte) (n : BlockCounters) (s : State) : (takePayload d r n s).rsp = s.rsp := rfl
@[simp] theorem takePayload_diag (d : Byte) (r : List Byte) (n : BlockCounters) (s : State) : (takePayload d r n s).diag = s.diag := rfl
@[simp] theorem takePayload_trace (d : Byte) (r : List Byte) (n : BlockCounters) (s : State) : (takePayload d r n s).trace = s.trace ++ [.take d] := rfl

/-! ### `givePayload` -/

@[simp] theorem givePayload_cfg (v : Byte) (s : State) : (givePayload v s).cfg = s.cfg := rfl
@[simp] theorem givePayload_rstN (v : Byte) (s : State) : (givePayload v s).rstN = s.rstN := rfl
@[simp] theorem givePayload_init (v : Byte) (s : State) : (givePayload v s).init = s.init := rfl
@[simp] theorem givePayload_seq (v : Byte) (s : State) : (givePayload v s).seq = s.seq := rfl
@[simp] theorem givePayload_counters (v : Byte) (s : State) : (givePayload v s).counters = s.counters := rfl
@[simp] theorem givePayload_chain1 (v : Byte) (s : State) : (givePayload v s).chain1 = s.chain1 := rfl
@[simp] theorem givePayload_chain2 (v : Byte) (s : State) : (givePayload v s).chain2 = s.chain2 := rfl
@[simp] theorem givePayload_apin (v : Byte) (s : State) : (givePayload v s).apin = s.apin := rfl
@[simp] theorem givePayload_apinPins (v : Byte) (s : State) : (givePayload v s).apinPins = s.apinPins := rfl
@[simp] theorem givePayload_ddir (v : Byte) (s : State) : (givePayload v s).ddir = s.ddir := rfl
@[simp] theorem givePayload_dout (v : Byte) (s : State) : (givePayload v s).dout = s.dout := rfl
@[simp] theorem givePayload_ceN (v : Byte) (s : State) : (givePayload v s).ceN = s.ceN := rfl
@[simp] theorem givePayload_oeN (v : Byte) (s : State) : (givePayload v s).oeN = s.oeN := rfl
@[simp] theorem givePayload_weN (v : Byte) (s : State) : (givePayload v s).weN = s.weN := rfl
@[simp] theorem givePayload_mem (v : Byte) (s : State) : (givePayload v s).mem = s.mem := rfl
@[simp] theorem givePayload_memEpoch (v : Byte) (s : State) : (givePayload v s).memEpoch = s.memEpoch := rfl
@[simp] theorem givePayload_pulse (v : Byte) (s : State) : (givePayload v s).pulse = s.pulse := rfl
@[simp] theorem givePayload_hazard (v : Byte) (s : State) : (givePayload v s).hazard = s.hazard := rfl
@[simp] theorem givePayload_draws (v : Byte) (s : State) : (givePayload v s).draws = s.draws := rfl
@[simp] theorem givePayload_cmds (v : Byte) (s : State) : (givePayload v s).cmds = s.cmds := rfl
@[simp] theorem givePayload_wd (v : Byte) (s : State) : (givePayload v s).wd = s.wd := rfl
@[simp] theorem givePayload_rd (v : Byte) (s : State) : (givePayload v s).rd = s.rd ++ [v] := rfl
@[simp] theorem givePayload_rsp (v : Byte) (s : State) : (givePayload v s).rsp = s.rsp := rfl
@[simp] theorem givePayload_diag (v : Byte) (s : State) : (givePayload v s).diag = s.diag := rfl
@[simp] theorem givePayload_trace (v : Byte) (s : State) : (givePayload v s).trace = s.trace ++ [.give v] := rfl

/-! ### `retireCounters` -/

@[simp] theorem retireCounters_cfg (s : State) : (retireCounters s).cfg = s.cfg := rfl
@[simp] theorem retireCounters_rstN (s : State) : (retireCounters s).rstN = s.rstN := rfl
@[simp] theorem retireCounters_init (s : State) : (retireCounters s).init = s.init := rfl
@[simp] theorem retireCounters_seq (s : State) : (retireCounters s).seq = s.seq := rfl
@[simp] theorem retireCounters_counters (s : State) : (retireCounters s).counters = deadCounters s.draws := rfl
@[simp] theorem retireCounters_chain1 (s : State) : (retireCounters s).chain1 = s.chain1 := rfl
@[simp] theorem retireCounters_chain2 (s : State) : (retireCounters s).chain2 = s.chain2 := rfl
@[simp] theorem retireCounters_apin (s : State) : (retireCounters s).apin = s.apin := rfl
@[simp] theorem retireCounters_apinPins (s : State) : (retireCounters s).apinPins = s.apinPins := rfl
@[simp] theorem retireCounters_ddir (s : State) : (retireCounters s).ddir = s.ddir := rfl
@[simp] theorem retireCounters_dout (s : State) : (retireCounters s).dout = s.dout := rfl
@[simp] theorem retireCounters_ceN (s : State) : (retireCounters s).ceN = s.ceN := rfl
@[simp] theorem retireCounters_oeN (s : State) : (retireCounters s).oeN = s.oeN := rfl
@[simp] theorem retireCounters_weN (s : State) : (retireCounters s).weN = s.weN := rfl
@[simp] theorem retireCounters_mem (s : State) : (retireCounters s).mem = s.mem := rfl
@[simp] theorem retireCounters_memEpoch (s : State) : (retireCounters s).memEpoch = s.memEpoch := rfl
@[simp] theorem retireCounters_pulse (s : State) : (retireCounters s).pulse = s.pulse := rfl
@[simp] theorem retireCounters_hazard (s : State) : (retireCounters s).hazard = s.hazard := rfl
@[simp] theorem retireCounters_draws (s : State) : (retireCounters s).draws = s.draws + 1 := rfl
@[simp] theorem retireCounters_cmds (s : State) : (retireCounters s).cmds = s.cmds := rfl
@[simp] theorem retireCounters_wd (s : State) : (retireCounters s).wd = s.wd := rfl
@[simp] theorem retireCounters_rd (s : State) : (retireCounters s).rd = s.rd := rfl
@[simp] theorem retireCounters_rsp (s : State) : (retireCounters s).rsp = s.rsp := rfl
@[simp] theorem retireCounters_diag (s : State) : (retireCounters s).diag = s.diag := rfl
@[simp] theorem retireCounters_trace (s : State) : (retireCounters s).trace = s.trace := rfl

/-! ### `accept` -/

@[simp] theorem accept_cfg (i : Instr) (s : State) : (accept i s).cfg = s.cfg := rfl
@[simp] theorem accept_rstN (i : Instr) (s : State) : (accept i s).rstN = s.rstN := rfl
@[simp] theorem accept_init (i : Instr) (s : State) : (accept i s).init = s.init := rfl
@[simp] theorem accept_seq (i : Instr) (s : State) : (accept i s).seq = .busy i 0 := rfl
@[simp] theorem accept_counters (i : Instr) (s : State) : (accept i s).counters = s.counters := rfl
@[simp] theorem accept_chain1 (i : Instr) (s : State) : (accept i s).chain1 = s.chain1 := rfl
@[simp] theorem accept_chain2 (i : Instr) (s : State) : (accept i s).chain2 = s.chain2 := rfl
@[simp] theorem accept_apin (i : Instr) (s : State) : (accept i s).apin = s.apin := rfl
@[simp] theorem accept_apinPins (i : Instr) (s : State) : (accept i s).apinPins = s.apinPins := rfl
@[simp] theorem accept_ddir (i : Instr) (s : State) : (accept i s).ddir = s.ddir := rfl
@[simp] theorem accept_dout (i : Instr) (s : State) : (accept i s).dout = s.dout := rfl
@[simp] theorem accept_ceN (i : Instr) (s : State) : (accept i s).ceN = s.ceN := rfl
@[simp] theorem accept_oeN (i : Instr) (s : State) : (accept i s).oeN = s.oeN := rfl
@[simp] theorem accept_weN (i : Instr) (s : State) : (accept i s).weN = s.weN := rfl
@[simp] theorem accept_mem (i : Instr) (s : State) : (accept i s).mem = s.mem := rfl
@[simp] theorem accept_memEpoch (i : Instr) (s : State) : (accept i s).memEpoch = s.memEpoch := rfl
@[simp] theorem accept_pulse (i : Instr) (s : State) : (accept i s).pulse = s.pulse := rfl
@[simp] theorem accept_hazard (i : Instr) (s : State) : (accept i s).hazard = s.hazard := rfl
@[simp] theorem accept_draws (i : Instr) (s : State) : (accept i s).draws = s.draws := rfl
@[simp] theorem accept_cmds (i : Instr) (s : State) : (accept i s).cmds = s.cmds := rfl
@[simp] theorem accept_wd (i : Instr) (s : State) : (accept i s).wd = s.wd := rfl
@[simp] theorem accept_rd (i : Instr) (s : State) : (accept i s).rd = s.rd := rfl
@[simp] theorem accept_rsp (i : Instr) (s : State) : (accept i s).rsp = s.rsp := rfl
@[simp] theorem accept_diag (i : Instr) (s : State) : (accept i s).diag = s.diag := rfl
@[simp] theorem accept_trace (i : Instr) (s : State) : (accept i s).trace = s.trace := rfl

/-! ### `raiseError` -/

@[simp] theorem raiseError_cfg (e : ErrorCode) (s : State) : (raiseError e s).cfg = s.cfg := rfl
@[simp] theorem raiseError_rstN (e : ErrorCode) (s : State) : (raiseError e s).rstN = s.rstN := rfl
@[simp] theorem raiseError_init (e : ErrorCode) (s : State) : (raiseError e s).init = s.init := rfl
@[simp] theorem raiseError_seq (e : ErrorCode) (s : State) : (raiseError e s).seq = s.seq := rfl
@[simp] theorem raiseError_counters (e : ErrorCode) (s : State) : (raiseError e s).counters = s.counters := rfl
@[simp] theorem raiseError_chain1 (e : ErrorCode) (s : State) : (raiseError e s).chain1 = s.chain1 := rfl
@[simp] theorem raiseError_chain2 (e : ErrorCode) (s : State) : (raiseError e s).chain2 = s.chain2 := rfl
@[simp] theorem raiseError_apin (e : ErrorCode) (s : State) : (raiseError e s).apin = s.apin := rfl
@[simp] theorem raiseError_apinPins (e : ErrorCode) (s : State) : (raiseError e s).apinPins = s.apinPins := rfl
@[simp] theorem raiseError_ddir (e : ErrorCode) (s : State) : (raiseError e s).ddir = s.ddir := rfl
@[simp] theorem raiseError_dout (e : ErrorCode) (s : State) : (raiseError e s).dout = s.dout := rfl
@[simp] theorem raiseError_ceN (e : ErrorCode) (s : State) : (raiseError e s).ceN = s.ceN := rfl
@[simp] theorem raiseError_oeN (e : ErrorCode) (s : State) : (raiseError e s).oeN = s.oeN := rfl
@[simp] theorem raiseError_weN (e : ErrorCode) (s : State) : (raiseError e s).weN = s.weN := rfl
@[simp] theorem raiseError_mem (e : ErrorCode) (s : State) : (raiseError e s).mem = s.mem := rfl
@[simp] theorem raiseError_memEpoch (e : ErrorCode) (s : State) : (raiseError e s).memEpoch = s.memEpoch := rfl
@[simp] theorem raiseError_pulse (e : ErrorCode) (s : State) : (raiseError e s).pulse = s.pulse := rfl
@[simp] theorem raiseError_hazard (e : ErrorCode) (s : State) : (raiseError e s).hazard = s.hazard := rfl
@[simp] theorem raiseError_draws (e : ErrorCode) (s : State) : (raiseError e s).draws = s.draws := rfl
@[simp] theorem raiseError_cmds (e : ErrorCode) (s : State) : (raiseError e s).cmds = s.cmds := rfl
@[simp] theorem raiseError_wd (e : ErrorCode) (s : State) : (raiseError e s).wd = s.wd := rfl
@[simp] theorem raiseError_rd (e : ErrorCode) (s : State) : (raiseError e s).rd = s.rd := rfl
@[simp] theorem raiseError_rsp (e : ErrorCode) (s : State) : (raiseError e s).rsp = s.rsp ++ [errorWord e] := rfl
@[simp] theorem raiseError_diag (e : ErrorCode) (s : State) : (raiseError e s).diag = s.diag := rfl
@[simp] theorem raiseError_trace (e : ErrorCode) (s : State) : (raiseError e s).trace = s.trace := rfl

/-! ### `respond` -/

@[simp] theorem respond_cfg (v : Byte) (s : State) : (respond v s).cfg = s.cfg := rfl
@[simp] theorem respond_rstN (v : Byte) (s : State) : (respond v s).rstN = s.rstN := rfl
@[simp] theorem respond_init (v : Byte) (s : State) : (respond v s).init = s.init := rfl
@[simp] theorem respond_seq (v : Byte) (s : State) : (respond v s).seq = .idle := rfl
@[simp] theorem respond_counters (v : Byte) (s : State) : (respond v s).counters = s.counters := rfl
@[simp] theorem respond_chain1 (v : Byte) (s : State) : (respond v s).chain1 = s.chain1 := rfl
@[simp] theorem respond_chain2 (v : Byte) (s : State) : (respond v s).chain2 = s.chain2 := rfl
@[simp] theorem respond_apin (v : Byte) (s : State) : (respond v s).apin = s.apin := rfl
@[simp] theorem respond_apinPins (v : Byte) (s : State) : (respond v s).apinPins = s.apinPins := rfl
@[simp] theorem respond_ddir (v : Byte) (s : State) : (respond v s).ddir = s.ddir := rfl
@[simp] theorem respond_dout (v : Byte) (s : State) : (respond v s).dout = s.dout := rfl
@[simp] theorem respond_ceN (v : Byte) (s : State) : (respond v s).ceN = s.ceN := rfl
@[simp] theorem respond_oeN (v : Byte) (s : State) : (respond v s).oeN = s.oeN := rfl
@[simp] theorem respond_weN (v : Byte) (s : State) : (respond v s).weN = s.weN := rfl
@[simp] theorem respond_mem (v : Byte) (s : State) : (respond v s).mem = s.mem := rfl
@[simp] theorem respond_memEpoch (v : Byte) (s : State) : (respond v s).memEpoch = s.memEpoch := rfl
@[simp] theorem respond_pulse (v : Byte) (s : State) : (respond v s).pulse = s.pulse := rfl
@[simp] theorem respond_hazard (v : Byte) (s : State) : (respond v s).hazard = s.hazard := rfl
@[simp] theorem respond_draws (v : Byte) (s : State) : (respond v s).draws = s.draws := rfl
@[simp] theorem respond_cmds (v : Byte) (s : State) : (respond v s).cmds = s.cmds := rfl
@[simp] theorem respond_wd (v : Byte) (s : State) : (respond v s).wd = s.wd := rfl
@[simp] theorem respond_rd (v : Byte) (s : State) : (respond v s).rd = s.rd := rfl
@[simp] theorem respond_rsp (v : Byte) (s : State) : (respond v s).rsp = s.rsp ++ [okWord v] := rfl
@[simp] theorem respond_diag (v : Byte) (s : State) : (respond v s).diag = s.diag := rfl
@[simp] theorem respond_trace (v : Byte) (s : State) : (respond v s).trace = s.trace := rfl

/-! ### `forgetMemory` -/

@[simp] theorem forgetMemory_cfg (s : State) : (forgetMemory s).cfg = s.cfg := rfl
@[simp] theorem forgetMemory_rstN (s : State) : (forgetMemory s).rstN = s.rstN := rfl
@[simp] theorem forgetMemory_init (s : State) : (forgetMemory s).init = s.init := rfl
@[simp] theorem forgetMemory_seq (s : State) : (forgetMemory s).seq = s.seq := rfl
@[simp] theorem forgetMemory_counters (s : State) : (forgetMemory s).counters = s.counters := rfl
@[simp] theorem forgetMemory_chain1 (s : State) : (forgetMemory s).chain1 = s.chain1 := rfl
@[simp] theorem forgetMemory_chain2 (s : State) : (forgetMemory s).chain2 = s.chain2 := rfl
@[simp] theorem forgetMemory_apin (s : State) : (forgetMemory s).apin = s.apin := rfl
@[simp] theorem forgetMemory_apinPins (s : State) : (forgetMemory s).apinPins = s.apinPins := rfl
@[simp] theorem forgetMemory_ddir (s : State) : (forgetMemory s).ddir = s.ddir := rfl
@[simp] theorem forgetMemory_dout (s : State) : (forgetMemory s).dout = s.dout := rfl
@[simp] theorem forgetMemory_ceN (s : State) : (forgetMemory s).ceN = s.ceN := rfl
@[simp] theorem forgetMemory_oeN (s : State) : (forgetMemory s).oeN = s.oeN := rfl
@[simp] theorem forgetMemory_weN (s : State) : (forgetMemory s).weN = s.weN := rfl
@[simp] theorem forgetMemory_mem (s : State) : (forgetMemory s).mem = [] := rfl
@[simp] theorem forgetMemory_memEpoch (s : State) : (forgetMemory s).memEpoch = s.memEpoch + 1 := rfl
@[simp] theorem forgetMemory_pulse (s : State) : (forgetMemory s).pulse = s.pulse := rfl
@[simp] theorem forgetMemory_hazard (s : State) : (forgetMemory s).hazard = s.hazard := rfl
@[simp] theorem forgetMemory_draws (s : State) : (forgetMemory s).draws = s.draws := rfl
@[simp] theorem forgetMemory_cmds (s : State) : (forgetMemory s).cmds = s.cmds := rfl
@[simp] theorem forgetMemory_wd (s : State) : (forgetMemory s).wd = s.wd := rfl
@[simp] theorem forgetMemory_rd (s : State) : (forgetMemory s).rd = s.rd := rfl
@[simp] theorem forgetMemory_rsp (s : State) : (forgetMemory s).rsp = s.rsp := rfl
@[simp] theorem forgetMemory_diag (s : State) : (forgetMemory s).diag = s.diag := rfl
@[simp] theorem forgetMemory_trace (s : State) : (forgetMemory s).trace = s.trace := rfl

/-! ### `memWrite` -/

@[simp] theorem memWrite_cfg (s : State) (a : Nat) (v : Byte) : (memWrite s a v).cfg = s.cfg := rfl
@[simp] theorem memWrite_rstN (s : State) (a : Nat) (v : Byte) : (memWrite s a v).rstN = s.rstN := rfl
@[simp] theorem memWrite_init (s : State) (a : Nat) (v : Byte) : (memWrite s a v).init = s.init := rfl
@[simp] theorem memWrite_seq (s : State) (a : Nat) (v : Byte) : (memWrite s a v).seq = s.seq := rfl
@[simp] theorem memWrite_counters (s : State) (a : Nat) (v : Byte) : (memWrite s a v).counters = s.counters := rfl
@[simp] theorem memWrite_chain1 (s : State) (a : Nat) (v : Byte) : (memWrite s a v).chain1 = s.chain1 := rfl
@[simp] theorem memWrite_chain2 (s : State) (a : Nat) (v : Byte) : (memWrite s a v).chain2 = s.chain2 := rfl
@[simp] theorem memWrite_apin (s : State) (a : Nat) (v : Byte) : (memWrite s a v).apin = s.apin := rfl
@[simp] theorem memWrite_apinPins (s : State) (a : Nat) (v : Byte) : (memWrite s a v).apinPins = s.apinPins := rfl
@[simp] theorem memWrite_ddir (s : State) (a : Nat) (v : Byte) : (memWrite s a v).ddir = s.ddir := rfl
@[simp] theorem memWrite_dout (s : State) (a : Nat) (v : Byte) : (memWrite s a v).dout = s.dout := rfl
@[simp] theorem memWrite_ceN (s : State) (a : Nat) (v : Byte) : (memWrite s a v).ceN = s.ceN := rfl
@[simp] theorem memWrite_oeN (s : State) (a : Nat) (v : Byte) : (memWrite s a v).oeN = s.oeN := rfl
@[simp] theorem memWrite_weN (s : State) (a : Nat) (v : Byte) : (memWrite s a v).weN = s.weN := rfl
@[simp] theorem memWrite_mem (s : State) (a : Nat) (v : Byte) : (memWrite s a v).mem = storeCell s.mem a v := rfl
@[simp] theorem memWrite_memEpoch (s : State) (a : Nat) (v : Byte) : (memWrite s a v).memEpoch = s.memEpoch := rfl
@[simp] theorem memWrite_pulse (s : State) (a : Nat) (v : Byte) : (memWrite s a v).pulse = s.pulse := rfl
@[simp] theorem memWrite_hazard (s : State) (a : Nat) (v : Byte) : (memWrite s a v).hazard = s.hazard := rfl
@[simp] theorem memWrite_draws (s : State) (a : Nat) (v : Byte) : (memWrite s a v).draws = s.draws := rfl
@[simp] theorem memWrite_cmds (s : State) (a : Nat) (v : Byte) : (memWrite s a v).cmds = s.cmds := rfl
@[simp] theorem memWrite_wd (s : State) (a : Nat) (v : Byte) : (memWrite s a v).wd = s.wd := rfl
@[simp] theorem memWrite_rd (s : State) (a : Nat) (v : Byte) : (memWrite s a v).rd = s.rd := rfl
@[simp] theorem memWrite_rsp (s : State) (a : Nat) (v : Byte) : (memWrite s a v).rsp = s.rsp := rfl
@[simp] theorem memWrite_diag (s : State) (a : Nat) (v : Byte) : (memWrite s a v).diag = s.diag := rfl
@[simp] theorem memWrite_trace (s : State) (a : Nat) (v : Byte) : (memWrite s a v).trace = s.trace := rfl

/-! ### `delay` -/

@[simp] theorem delay_cfg (d : Delay) (s : State) : (delay d s).cfg = s.cfg := rfl
@[simp] theorem delay_rstN (d : Delay) (s : State) : (delay d s).rstN = s.rstN := rfl
@[simp] theorem delay_init (d : Delay) (s : State) : (delay d s).init = s.init := rfl
@[simp] theorem delay_seq (d : Delay) (s : State) : (delay d s).seq = s.seq := rfl
@[simp] theorem delay_counters (d : Delay) (s : State) : (delay d s).counters = s.counters := rfl
@[simp] theorem delay_chain1 (d : Delay) (s : State) : (delay d s).chain1 = s.chain1 := rfl
@[simp] theorem delay_chain2 (d : Delay) (s : State) : (delay d s).chain2 = s.chain2 := rfl
@[simp] theorem delay_apin (d : Delay) (s : State) : (delay d s).apin = s.apin := rfl
@[simp] theorem delay_apinPins (d : Delay) (s : State) : (delay d s).apinPins = s.apinPins := rfl
@[simp] theorem delay_ddir (d : Delay) (s : State) : (delay d s).ddir = s.ddir := rfl
@[simp] theorem delay_dout (d : Delay) (s : State) : (delay d s).dout = s.dout := rfl
@[simp] theorem delay_ceN (d : Delay) (s : State) : (delay d s).ceN = s.ceN := rfl
@[simp] theorem delay_oeN (d : Delay) (s : State) : (delay d s).oeN = s.oeN := rfl
@[simp] theorem delay_weN (d : Delay) (s : State) : (delay d s).weN = s.weN := rfl
@[simp] theorem delay_mem (d : Delay) (s : State) : (delay d s).mem = s.mem := rfl
@[simp] theorem delay_memEpoch (d : Delay) (s : State) : (delay d s).memEpoch = s.memEpoch := rfl
@[simp] theorem delay_pulse (d : Delay) (s : State) : (delay d s).pulse = s.pulse := rfl
@[simp] theorem delay_hazard (d : Delay) (s : State) : (delay d s).hazard = s.hazard := rfl
@[simp] theorem delay_draws (d : Delay) (s : State) : (delay d s).draws = s.draws := rfl
@[simp] theorem delay_cmds (d : Delay) (s : State) : (delay d s).cmds = s.cmds := rfl
@[simp] theorem delay_wd (d : Delay) (s : State) : (delay d s).wd = s.wd := rfl
@[simp] theorem delay_rd (d : Delay) (s : State) : (delay d s).rd = s.rd := rfl
@[simp] theorem delay_rsp (d : Delay) (s : State) : (delay d s).rsp = s.rsp := rfl
@[simp] theorem delay_diag (d : Delay) (s : State) : (delay d s).diag = s.diag := rfl
@[simp] theorem chain_record (e : Event) (s : State) (c : ChainId) : (record e s).chain c = s.chain c := by cases c <;> rfl

end Sys2Proof.Machine
end

