-- ==== Sys2Proof/Laws/Memory.lean ====
section
/-!
SUPPORT. The laws of the memory cells (20_memory.md rules R66 to R68): a read after a write, and the canonical form kept
by every memory operation.
-/

namespace Sys2Proof.Machine

theorem lookupCell_storeCell_same (cells : List Host.Cell) (a : Nat) (v : Byte) :
    lookupCell (storeCell cells a v) a = some v := by
  induction cells with
  | nil => simp [storeCell, lookupCell]
  | cons c rest ih =>
    obtain ⟨k, w⟩ := c
    simp only [storeCell]
    split_ifs with h1 h2
    · simp [lookupCell]
    · simp [lookupCell]
    · simp [lookupCell, ih, Ne.symm h2]

theorem lookupCell_storeCell_of_ne (cells : List Host.Cell) {a b : Nat} (h : b ≠ a) (v : Byte) :
    lookupCell (storeCell cells a v) b = lookupCell cells b := by
  induction cells with
  | nil => simp [storeCell, lookupCell, Ne.symm h]
  | cons c rest ih =>
    obtain ⟨k, w⟩ := c
    simp only [storeCell]
    split_ifs with h1 h2
    · simp [lookupCell, Ne.symm h]
    · subst h2; simp [lookupCell, Ne.symm h]
    · simp [lookupCell, ih]

/-- `MemRead` after `MemWrite` to the same address gives the byte written (R68). -/
@[simp] theorem memRead_memWrite_same (s : State) (a : Nat) (v : Byte) : memRead (memWrite s a v) a = v := by
  simp [memRead, lookupCell_storeCell_same]

/-- `MemWrite` "changes no other cell" (R67). -/
theorem memRead_memWrite_of_ne (s : State) {a b : Nat} (h : b ≠ a) (v : Byte) :
    memRead (memWrite s a v) b = memRead s b := by
  simp [memRead, lookupCell_storeCell_of_ne _ h]

theorem cellsFrom_storeCell (cells : List Host.Cell) (lo a : Nat) (v : Byte) (hlo : lo ≤ a) (ha : a < 32768)
    (h : cellsFrom lo cells = true) : cellsFrom lo (storeCell cells a v) = true := by
  induction cells generalizing lo with
  | nil => simp [storeCell, cellsFrom, hlo, ha]
  | cons c rest ih =>
    obtain ⟨k, w⟩ := c
    simp only [cellsFrom, Bool.and_eq_true, decide_eq_true_eq] at h
    obtain ⟨⟨h1, h2⟩, h3⟩ := h
    simp only [storeCell]
    split_ifs with h4 h5
    · simp only [cellsFrom, Bool.and_eq_true, decide_eq_true_eq]
      exact ⟨⟨hlo, ha⟩, ⟨by omega, h2⟩, h3⟩
    · subst h5
      simp [cellsFrom, hlo, ha, h3]
    · simp only [cellsFrom, Bool.and_eq_true, decide_eq_true_eq]
      exact ⟨⟨h1, h2⟩, ih (k + 1) (by omega) h3⟩

/-- Storing a byte at an address of the space keeps the canonical form. -/
theorem storeCell_keeps_wf (cells : List Host.Cell) (a : Nat) (v : Byte) (ha : a < 32768)
    (h : Memory.wf cells = true) : Memory.wf (storeCell cells a v) = true :=
  cellsFrom_storeCell cells 0 a v (Nat.zero_le a) ha h

/-- `MemWrite` keeps the canonical form. -/
theorem memWrite_keeps_wf (s : State) (a : Nat) (v : Byte) (ha : a < 32768) (h : Memory.wf s.mem = true) :
    Memory.wf (memWrite s a v).mem = true :=
  storeCell_keeps_wf s.mem a v ha h

/-- The memory taken at the end of the first `BEGIN` has the canonical form (R40). -/
theorem forgetMemory_wf (s : State) : Memory.wf (forgetMemory s).mem = true := rfl

/-- The memory after reset has the canonical form. -/
theorem reset_memory_wf (c : Cfg) : Memory.wf (State.resetFor c).mem = true := rfl

/-- In the canonical form a cell below every listed address is not listed. -/
theorem lookupCell_of_lt_lo {cells : List Host.Cell} {lo a : Nat} (h : cellsFrom lo cells = true) (ha : a < lo) :
    lookupCell cells a = none := by
  induction cells generalizing lo with
  | nil => rfl
  | cons c rest ih =>
    obtain ⟨k, w⟩ := c
    simp only [cellsFrom, Bool.and_eq_true, decide_eq_true_eq] at h
    have hk : k ≠ a := by omega
    simp [lookupCell, hk, ih h.2 (by omega)]

theorem eq_of_lookupCell_from {c1 c2 : List Host.Cell} {lo : Nat} (h1 : cellsFrom lo c1 = true)
    (h2 : cellsFrom lo c2 = true) (h : ∀ a, lookupCell c1 a = lookupCell c2 a) : c1 = c2 := by
  induction c1 generalizing c2 lo with
  | nil =>
    cases c2 with
    | nil => rfl
    | cons c rest => have := h c.1; simp [lookupCell] at this
  | cons c rest ih =>
    obtain ⟨k, w⟩ := c
    cases c2 with
    | nil => have := h k; simp [lookupCell] at this
    | cons d rest2 =>
      obtain ⟨k2, w2⟩ := d
      simp only [cellsFrom, Bool.and_eq_true, decide_eq_true_eq] at h1 h2
      have hk : k = k2 := by
        rcases Nat.lt_trichotomy k k2 with hlt | heq | hgt
        · have := h k
          rw [lookupCell, if_pos rfl, lookupCell, if_neg (by omega), lookupCell_of_lt_lo h2.2 (by omega)] at this
          cases this
        · exact heq
        · have := h k2
          rw [lookupCell, if_neg (by omega), lookupCell_of_lt_lo h1.2 (by omega), lookupCell, if_pos rfl] at this
          cases this
      subst hk
      have hw := h k
      simp only [lookupCell, if_true, Option.some.injEq] at hw
      subst hw
      congr 1
      refine ih h1.2 h2.2 (fun a => ?_)
      rcases Nat.lt_or_ge a (k + 1) with ha | ha
      · rw [lookupCell_of_lt_lo h1.2 ha, lookupCell_of_lt_lo h2.2 ha]
      · have := h a
        rwa [lookupCell, if_neg (by omega), lookupCell, if_neg (by omega)] at this

/-- Two canonical memories that hold the same written bytes are equal data. -/
theorem memory_ext {c1 c2 : List Host.Cell} (h1 : Memory.wf c1 = true) (h2 : Memory.wf c2 = true)
    (h : ∀ a, lookupCell c1 a = lookupCell c2 a) : c1 = c2 :=
  eq_of_lookupCell_from h1 h2 h

end Sys2Proof.Machine
end

