-- ==== Sys2Proof/Laws/Events.lean ====
section
/-!
SUPPORT. What recorded events do to a state, and what a pin event does while the memory device is disabled: the pin moves,
the banks react, and the memory device does nothing (70_reset_and_hazards.md rules R290, R291).
-/

namespace Sys2Proof.Machine

/-! ### A run of recorded events -/

/-- `SEQ` moved on by `n` pin events (R30). -/
def advanceBy (n : Nat) : Seq → Seq
  | .idle => .idle
  | .busy i p => .busy i (p + n)

/-- The events `es` are seen at the pins and on `DIAG`, and `SEQ` moves on. -/
def played (es : List Event) (s : State) : State :=
  { s with trace := s.trace ++ es, seq := advanceBy (pinEvents es) s.seq, diag := s.diag ++ reports es }

@[simp] theorem played_cfg (es : List Event) (s : State) : (played es s).cfg = s.cfg := rfl
@[simp] theorem played_rstN (es : List Event) (s : State) : (played es s).rstN = s.rstN := rfl
@[simp] theorem played_init (es : List Event) (s : State) : (played es s).init = s.init := rfl
@[simp] theorem played_counters (es : List Event) (s : State) : (played es s).counters = s.counters := rfl
@[simp] theorem played_chain1 (es : List Event) (s : State) : (played es s).chain1 = s.chain1 := rfl
@[simp] theorem played_chain2 (es : List Event) (s : State) : (played es s).chain2 = s.chain2 := rfl
@[simp] theorem played_apin (es : List Event) (s : State) : (played es s).apin = s.apin := rfl
@[simp] theorem played_apinPins (es : List Event) (s : State) : (played es s).apinPins = s.apinPins := rfl
@[simp] theorem played_ddir (es : List Event) (s : State) : (played es s).ddir = s.ddir := rfl
@[simp] theorem played_dout (es : List Event) (s : State) : (played es s).dout = s.dout := rfl
@[simp] theorem played_ceN (es : List Event) (s : State) : (played es s).ceN = s.ceN := rfl
@[simp] theorem played_oeN (es : List Event) (s : State) : (played es s).oeN = s.oeN := rfl
@[simp] theorem played_weN (es : List Event) (s : State) : (played es s).weN = s.weN := rfl
@[simp] theorem played_mem (es : List Event) (s : State) : (played es s).mem = s.mem := rfl
@[simp] theorem played_memEpoch (es : List Event) (s : State) : (played es s).memEpoch = s.memEpoch := rfl
@[simp] theorem played_pulse (es : List Event) (s : State) : (played es s).pulse = s.pulse := rfl
@[simp] theorem played_hazard (es : List Event) (s : State) : (played es s).hazard = s.hazard := rfl
@[simp] theorem played_draws (es : List Event) (s : State) : (played es s).draws = s.draws := rfl
@[simp] theorem played_cmds (es : List Event) (s : State) : (played es s).cmds = s.cmds := rfl
@[simp] theorem played_wd (es : List Event) (s : State) : (played es s).wd = s.wd := rfl
@[simp] theorem played_rd (es : List Event) (s : State) : (played es s).rd = s.rd := rfl
@[simp] theorem played_rsp (es : List Event) (s : State) : (played es s).rsp = s.rsp := rfl
@[simp] theorem played_diag (es : List Event) (s : State) : (played es s).diag = s.diag ++ reports es := rfl
@[simp] theorem played_trace (es : List Event) (s : State) : (played es s).trace = s.trace ++ es := rfl
@[simp] theorem played_seq (es : List Event) (s : State) :
    (played es s).seq = advanceBy (pinEvents es) s.seq := rfl
@[simp] theorem chain_played (es : List Event) (s : State) (c : ChainId) : (played es s).chain c = s.chain c := by
  cases c <;> rfl
theorem played_setChain (es : List Event) (s : State) (c : ChainId) (ch : Chain) :
    played es (s.setChain c ch) = (played es s).setChain c ch := by
  cases c <;> rfl

@[simp] theorem advanceBy_zero (q : Seq) : advanceBy 0 q = q := by cases q <;> rfl
@[simp] theorem advanceBy_idle (n : Nat) : advanceBy n .idle = .idle := rfl
theorem advanceBy_advanceBy (m n : Nat) (q : Seq) : advanceBy m (advanceBy n q) = advanceBy (n + m) q := by
  cases q <;> simp [advanceBy, Nat.add_assoc]
theorem advance_eq (q : Seq) : advance q = advanceBy 1 q := by cases q <;> rfl

@[simp] theorem pinEvents_nil : pinEvents [] = 0 := rfl
@[simp] theorem pinEvents_append (a b : List Event) : pinEvents (a ++ b) = pinEvents a + pinEvents b := by
  simp [pinEvents]
theorem pinEvents_cons (e : Event) (es : List Event) : pinEvents (e :: es) = (if isDrive e then 1 else 0) + pinEvents es := by
  cases h : isDrive e <;> simp [pinEvents, h, Nat.add_comm]

@[simp] theorem reports_nil : reports [] = [] := rfl
@[simp] theorem reports_append (a b : List Event) : reports (a ++ b) = reports a ++ reports b := by
  simp [reports]
@[simp] theorem reports_drive (p : Pin) (l : Bool) (es : List Event) : reports (.drive p l :: es) = reports es := rfl
@[simp] theorem reports_mode (d : Dir) (es : List Event) : reports (.mode d :: es) = reports es := rfl
@[simp] theorem reports_data (b : Byte) (es : List Event) : reports (.data b :: es) = reports es := rfl
@[simp] theorem reports_sample (i : Fin 8) (v : Bool) (es : List Event) : reports (.sample i v :: es) = reports es := rfl
@[simp] theorem reports_delay (d : Delay) (n : Nat) (es : List Event) : reports (.delay d n :: es) = reports es := rfl
@[simp] theorem reports_take (b : Byte) (es : List Event) : reports (.take b :: es) = reports es := rfl
@[simp] theorem reports_give (b : Byte) (es : List Event) : reports (.give b :: es) = reports es := rfl
@[simp] theorem reports_report (d : Diag) (es : List Event) : reports (.report d :: es) = d :: reports es := rfl

/-- Pin events report nothing. -/
theorem reports_of_drives {es : List Event} (h : ∀ e ∈ es, isDrive e = true) : reports es = [] := by
  induction es with
  | nil => rfl
  | cons e es ih =>
    have h1 := h e (by simp)
    have h2 := ih fun x hx => h x (by simp [hx])
    cases e <;> simp_all [isDrive]

@[simp] theorem pinEvents_sampleEvents (v : Byte) : pinEvents (sampleEvents v) = 0 := rfl
@[simp] theorem reports_sampleEvents (v : Byte) : reports (sampleEvents v) = [] := rfl

@[simp] theorem played_nil (s : State) : played [] s = s := by
  cases s; simp [played]
theorem played_played (a b : List Event) (s : State) : played b (played a s) = played (a ++ b) s := by
  simp [played, advanceBy_advanceBy]

/-- An event that is neither a pin event nor a diagnostic leaves `SEQ` where it is. -/
theorem record_eq_played {e : Event} (h : isDrive e = false) (h' : reports [e] = []) (s : State) :
    record e s = played [e] s := by
  simp [record, played, pinEvents, h, h']

theorem emit_eq_played (d : Diag) (s : State) : emit d s = played [.report d] s := by
  simp [emit, record, played, pinEvents, isDrive]

theorem recordAll_sampleEvents (v : Byte) (s : State) : recordAll (sampleEvents v) s = played (sampleEvents v) s := by
  simp [recordAll, played]

/-! ### The memory device disabled -/

theorem deviceAccepts_of_ce_high {s : State} (h : s.ceN = .high) : deviceAccepts s = false := by
  simp [deviceAccepts, h]
theorem deviceDrives_of_ce_high {s : State} (h : s.ceN = .high) : deviceDrives s = false := by
  simp [deviceDrives, h]
theorem deviceDrives_of_oe_high {s : State} (h : s.oeN = .high) : deviceDrives s = false := by
  simp [deviceDrives, h]
theorem contended_of_not_drives {s : State} (h : deviceDrives s = false) : contended s = false := by
  simp [contended, h]
theorem contended_of_input {s : State} (h : s.ddir = .input) : contended s = false := by
  simp [contended, h]

/-- An event that neither opens, touches nor ends a write interval and leaves no contention makes the memory device do
nothing. -/
theorem react_nothing {before s : State} (h1 : deviceAccepts before = false) (h2 : deviceAccepts s = false)
    (h3 : contended s = false) : react before s = s := by
  simp [react, reactWrite, h1, h2, h3]

/-- While `CE_n` stays high the memory device does nothing. -/
theorem react_of_ce_high {before s : State} (h1 : before.ceN = .high) (h2 : s.ceN = .high) : react before s = s :=
  react_nothing (deviceAccepts_of_ce_high h1) (deviceAccepts_of_ce_high h2)
    (contended_of_not_drives (deviceDrives_of_ce_high h2))

theorem setPin_ceN {p : Pin} (hp : p.isControl = false) (l : Bool) (s : State) : (setPin p l s).ceN = s.ceN := by
  cases p <;> simp_all [setPin, Pin.isControl]

/-- The state in which a pin event is recorded, before the pin moves. -/
theorem recorded_drive (p : Pin) (l : Bool) (s : State) :
    { record (.drive p l) s with seq := advance s.seq } = played [.drive p l] s := by
  simp [played, record, advance_eq, pinEvents_cons, isDrive]

theorem drive_eq (p : Pin) (l : Bool) (s : State) :
    drive p l s = react s (setPin p l (played [.drive p l] s)) := by
  rw [drive, recorded_drive]

/-- A chain or address pin event while the memory device is disabled. -/
theorem drive_of_ce_high {p : Pin} (hp : p.isControl = false) (l : Bool) {s : State} (h : s.ceN = .high) :
    drive p l s = setPin p l (played [.drive p l] s) := by
  rw [drive_eq, react_of_ce_high h (by rw [setPin_ceN hp]; exact h)]

/-- The mode switch while the device does not drive the data lines and no write interval is open. -/
theorem setMode_of_quiet (d : Dir) {s : State} (h1 : deviceAccepts s = false) (h2 : deviceDrives s = false) :
    setMode d s = played [.mode d] { s with ddir := d } := by
  rw [setMode, react_nothing h1 (by simpa [deviceAccepts] using h1)]
  · simp [record, played, pinEvents, isDrive]
  · exact contended_of_not_drives (by simpa [deviceDrives] using h2)

/-- The data write in output mode while no write interval is open and the device does not drive. -/
theorem writeBus_output {s : State} (b : Byte) (hd : s.ddir = .output) (h1 : deviceAccepts s = false)
    (h2 : deviceDrives s = false) : writeBus b s = played [.data b] { s with dout := b } := by
  simp only [writeBus, hd]
  rw [react_nothing h1 (by simpa [deviceAccepts] using h1)]
  · simp [record, played, pinEvents, isDrive, hd]
  · exact contended_of_not_drives (by simpa [deviceDrives] using h2)

/-- The data write in input mode is a misuse: `DOUT` takes a free byte (R174). -/
theorem writeBus_input {s : State} (b : Byte) (hd : s.ddir = .input) :
    writeBus b s =
      played [.data b] { s with dout := Config.freeByte s.draws, draws := s.draws + 1 } := by
  simp [writeBus, record, played, pinEvents, isDrive, hd]

/-- A sample while the device drives and the block does not gives the device's byte (R177 case a). -/
theorem readBus_driven {s : State} {v : Byte} (hd : s.ddir = .input) (hv : dataLines s = some v) :
    readBus s = (v, played (sampleEvents v) s) := by
  simp [readBus, hd, hv, recordAll_sampleEvents]

/-- A sample with nothing driving, or in output mode, is a free byte (R177 cases b and c). -/
theorem readBus_free {s : State} (h : s.ddir = .output ∨ dataLines s = none) :
    readBus s = (Config.freeByte s.draws,
      played (sampleEvents (Config.freeByte s.draws)) { s with draws := s.draws + 1 }) := by
  rcases h with h | h
  · simp [readBus, h, recordAll, played]
  · cases hd : s.ddir <;> simp [readBus, h, hd, recordAll, played]

theorem delay_eq_played (d : Delay) (s : State) : ∃ n, delay d s = played [.delay d n] s := by
  cases d <;> exact ⟨_, record_eq_played rfl rfl s⟩

end Sys2Proof.Machine
end

