-- ==== Sys2Proof/Laws/Chain.lean ====
section
/-!
SUPPORT. The flush procedure and the banks (40_chain.md rules R121 to R123, R131).
-/

namespace Sys2Proof.Machine

/-! ### Bits of a mirror -/

/-- The bits a mirror spells, index 0 first. -/
def mirrorBits (m : List Byte) : List Bool := m.flatMap (fun w => (List.range 8).map (fun b => w.getLsbD b))

theorem mirrorLevels_eq (m : List Byte) : mirrorLevels m = (mirrorBits m).map levelOf := by
  simp [mirrorLevels, mirrorBits, List.map_flatMap, Function.comp_def]

theorem serialStream_eq (m : List Byte) : serialStream m = (mirrorBits m).reverse := by
  simp [serialStream, mirrorBits, List.reverse_flatMap, Function.comp_def, List.map_reverse]

@[simp] theorem mirrorBits_nil : mirrorBits [] = [] := rfl
theorem mirrorBits_cons (w : Byte) (m : List Byte) :
    mirrorBits (w :: m) = (List.range 8).map (fun b => w.getLsbD b) ++ mirrorBits m := rfl

@[simp] theorem length_mirrorBits (m : List Byte) : (mirrorBits m).length = 8 * m.length := by
  induction m with
  | nil => rfl
  | cons w m ih => simp [mirrorBits_cons, ih]; omega

@[simp] theorem length_mirrorLevels (m : List Byte) : (mirrorLevels m).length = 8 * m.length := by
  simp [mirrorLevels_eq]

theorem length_serialStream (m : List Byte) : (serialStream m).length = 8 * m.length := by
  simp [serialStream_eq]

/-- Bit `idx` of the levels is mirror bit `idx` (R131). -/
theorem getElem?_mirrorBits (m : List Byte) (idx : Nat) (h : idx < 8 * m.length) :
    (mirrorBits m)[idx]? = some (mirrorBit m idx) := by
  induction m generalizing idx with
  | nil => simp at h
  | cons w m ih =>
    rw [mirrorBits_cons]
    by_cases h8 : idx < 8
    · rw [List.getElem?_append_left (by simpa using h8)]
      have h0 : idx / 8 = 0 := by omega
      have hm : idx % 8 = idx := by omega
      simp [mirrorBit, h0, hm, h8]
    · rw [List.getElem?_append_right (by simpa using (by omega : 8 ≤ idx))]
      simp only [List.length_map, List.length_range, List.length_cons] at h ⊢
      rw [ih (idx - 8) (by omega)]
      have hd : idx / 8 = (idx - 8) / 8 + 1 := by omega
      have hm : idx % 8 = (idx - 8) % 8 := by omega
      simp [mirrorBit, hd, hm]

theorem getElem?_mirrorLevels (m : List Byte) (idx : Nat) (h : idx < 8 * m.length) :
    (mirrorLevels m)[idx]? = some (levelOf (mirrorBit m idx)) := by
  simp [mirrorLevels_eq, getElem?_mirrorBits m idx h]

/-! ### One mirror bit written -/

theorem getLsbD_putBit {n : Nat} (w : BitVec n) (i j : Nat) (v : Bool) (hi : i < n) :
    (putBit w i v).getLsbD j = if j = i then v else w.getLsbD j := by
  by_cases hj : j < n
  · cases v <;> by_cases h : j = i <;> simp [putBit, h, hj, hi]
  · have h : j ≠ i := by omega
    simp [h, BitVec.getLsbD_of_ge _ _ (Nat.le_of_not_lt hj)]

@[simp] theorem length_putMirrorBit (m : List Byte) (idx : Nat) (v : Bool) :
    (putMirrorBit m idx v).length = m.length := by
  simp [putMirrorBit]

/-- Writing mirror bit `idx` sets that bit and keeps the others (R126). -/
theorem mirrorBit_putMirrorBit (m : List Byte) (idx j : Nat) (v : Bool) (h : idx < 8 * m.length) :
    mirrorBit (putMirrorBit m idx v) j = if j = idx then v else mirrorBit m j := by
  have hr : idx / 8 < m.length := by omega
  simp only [mirrorBit, putMirrorBit, List.getD_eq_getElem?_getD, List.getElem?_modify]
  by_cases hj : idx / 8 = j / 8
  · have hr' : j / 8 < m.length := by omega
    simp only [hj, if_true, List.getElem?_eq_getElem hr', Option.map_eq_map, Option.map_some, Option.getD_some]
    rw [getLsbD_putBit _ _ _ _ (Nat.mod_lt _ (by decide))]
    by_cases hm : j % 8 = idx % 8
    · rw [if_pos hm, if_pos (by omega)]
    · rw [if_neg hm, if_neg (by omega)]
  · have hji : j ≠ idx := by rintro rfl; exact hj rfl
    simp [hj, hji]

theorem mirrorBits_ext {m n : List Byte} (hl : m.length = n.length)
    (h : ∀ i < 8 * m.length, mirrorBit m i = mirrorBit n i) : mirrorBits m = mirrorBits n := by
  apply List.ext_getElem?
  intro i
  by_cases hi : i < 8 * m.length
  · rw [getElem?_mirrorBits m i hi, getElem?_mirrorBits n i (by omega), h i hi]
  · rw [List.getElem?_eq_none (by simp; omega), List.getElem?_eq_none (by simp; omega)]

/-- The levels of a mirror with one bit written. -/
theorem mirrorLevels_putMirrorBit (m : List Byte) (idx : Nat) (v : Bool) (h : idx < 8 * m.length) :
    mirrorLevels (putMirrorBit m idx v) = (mirrorLevels m).set idx (levelOf v) := by
  apply List.ext_getElem?
  intro j
  by_cases hj : j < 8 * m.length
  · rw [getElem?_mirrorLevels _ j (by simpa using hj), mirrorBit_putMirrorBit m idx j v h, List.getElem?_set]
    by_cases hji : j = idx
    · subst hji; simp [hj]
    · rw [if_neg hji, if_neg (Ne.symm hji), getElem?_mirrorLevels m j hj]
  · rw [List.getElem?_eq_none (by simp; omega), List.getElem?_eq_none (by simp; omega)]

/-! ### The serial stream through the banks -/

/-- What `bits`, sent in order, make of the shift stages (R121). -/
def shiftedIn (bits : List Bool) (sh : List Level) : List Level :=
  bits.foldl (fun st b => shiftedStages (levelOf b) st) sh

@[simp] theorem length_shiftedStages (l : Level) (sh : List Level) : (shiftedStages l sh).length = sh.length := by
  simp [shiftedStages]

theorem shiftedIn_eq (bits : List Bool) (sh : List Level) :
    shiftedIn bits sh = ((bits.reverse.map levelOf) ++ sh).take sh.length := by
  induction bits generalizing sh with
  | nil => simp [shiftedIn]
  | cons b bits ih =>
    have hstep : shiftedIn (b :: bits) sh = shiftedIn bits (shiftedStages (levelOf b) sh) := rfl
    rw [hstep, ih, length_shiftedStages]
    simp only [shiftedStages, List.reverse_cons, List.map_append, List.map_cons, List.map_nil, List.append_assoc,
      List.singleton_append]
    rw [List.take_append, List.take_take, List.take_append]
    congr 1
    rw [Nat.min_eq_left (by omega)]

/-- After a whole stream the stages spell the mirror; nothing of the old contents survives (R131). -/
theorem shiftedIn_serialStream (m : List Byte) (sh : List Level) (h : sh.length = 8 * m.length) :
    shiftedIn (serialStream m) sh = mirrorLevels m := by
  rw [shiftedIn_eq, serialStream_eq, List.reverse_reverse, ← mirrorLevels_eq, h, List.take_append_of_le_length (by simp),
    List.take_of_length_le (by simp)]

theorem chainConsistent_iff (ch : Chain) : chainConsistent ch ↔ ch = settledChain ch.mirror := by
  obtain ⟨m, ser, sck, lat, sh, out⟩ := ch
  simp only [settledChain, chainConsistent, Chain.mk.injEq, true_and]
  tauto

theorem chainConsistent_settled (m : List Byte) : chainConsistent (settledChain m) :=
  (chainConsistent_iff _).2 rfl

theorem chainShape_settled {n : Nat} {m : List Byte} (h : m.length = n) : chainShape n (settledChain m) := by
  simp [chainShape, settledChain, h]

/-- The events of sending `bits` (R123). -/
def sendEvents (c : ChainId) (bits : List Bool) : List Event :=
  bits.flatMap (fun b => [.drive (.ser c) b, .drive (.sck c) true, .drive (.sck c) false])

/-- The chain after sending `bits` with the clock low. -/
def sentChain (bits : List Bool) (ch : Chain) : Chain :=
  { ch with ser := (bits.getLast?.map levelOf).getD ch.ser, sck := .low, sh := shiftedIn bits ch.sh }

theorem sendBit_eq (c : ChainId) {s : State} (b : Bool) (h : s.ceN = .high) (hc : (s.chain c).sck = .low) :
    sendBit c s b = (played (sendEvents c [b]) s).setChain c (sentChain [b] (s.chain c)) := by
  rw [sendBit, drive_of_ce_high rfl b h, drive_of_ce_high rfl true (by simpa [setPin] using h),
    drive_of_ce_high rfl false (by simpa [setPin] using h)]
  simp only [setPin, played_setChain, played_played, chain_setChain, setChain_setChain, chain_played]
  simp [sendEvents, sentChain, driveClock, hc, shiftedIn, levelOf]

theorem sendBits_eq (c : ChainId) (bits : List Bool) {s : State} (h : s.ceN = .high) (hc : (s.chain c).sck = .low) :
    bits.foldl (sendBit c) s = (played (sendEvents c bits) s).setChain c (sentChain bits (s.chain c)) := by
  induction bits generalizing s with
  | nil =>
    have : sentChain [] (s.chain c) = s.chain c := by simp [sentChain, shiftedIn, ← hc]
    simp [sendEvents, this]
  | cons b bits ih =>
    rw [List.foldl_cons, sendBit_eq c b h hc, ih (by simpa using h) (by simp [sentChain])]
    simp only [played_setChain, played_played, chain_setChain, setChain_setChain]
    have h1 : sendEvents c [b] ++ sendEvents c bits = sendEvents c (b :: bits) := by simp [sendEvents]
    have h2 : sentChain bits (sentChain [b] (s.chain c)) = sentChain (b :: bits) (s.chain c) := by
      simp only [sentChain, shiftedIn, List.foldl_cons, List.foldl_nil, Chain.mk.injEq, true_and, and_true]
      cases bits with
      | nil => simp
      | cons b' bs => simp [List.getLast?_cons]
    rw [h1, h2]

/-- The whole flush, from a clock at rest and the memory device disabled (R123, R131). -/
theorem flush_eq (c : ChainId) {s : State} (h : s.ceN = .high) (hc : (s.chain c).sck = .low)
    (hm : (s.chain c).mirror ≠ []) (hl : (s.chain c).sh.length = 8 * (s.chain c).mirror.length) :
    flush c s =
      (played (flushEvents c (s.chain c).mirror) s).setChain c (settledChain (s.chain c).mirror) := by
  rw [flush, drive_of_ce_high rfl false h, sendBits_eq c _ (by simpa [setPin] using h)
    (by simpa [setPin, driveLatch] using hc), drive_of_ce_high rfl true (by simpa [setPin] using h)]
  simp only [setPin, played_setChain, played_played, chain_setChain, setChain_setChain, chain_played]
  congr 1
  · obtain ⟨w, m', hw⟩ := List.exists_cons_of_ne_nil hm
    have hstream := shiftedIn_serialStream (s.chain c).mirror (s.chain c).sh hl
    have hlast : ((serialStream (s.chain c).mirror).getLast?.map levelOf).getD (s.chain c).ser =
        levelOf (mirrorBit (s.chain c).mirror 0) := by
      have h0 := getElem?_mirrorBits (s.chain c).mirror 0 (by simp [hw])
      rw [serialStream_eq, List.getLast?_reverse, List.head?_eq_getElem?, h0]
      rfl
    simp only [driveLatch, sentChain, settledChain, hstream, levelOf, hlast]
    simp

theorem pinEvents_sendEvents (c : ChainId) (bits : List Bool) : pinEvents (sendEvents c bits) = 3 * bits.length := by
  induction bits with
  | nil => rfl
  | cons b bits ih =>
    have : sendEvents c (b :: bits) = sendEvents c [b] ++ sendEvents c bits := by simp [sendEvents]
    rw [this, pinEvents_append, ih]
    simp [sendEvents, pinEvents_cons, isDrive]; omega

/-- A flush of `n` banks performs `2 + 24*n` pin events (R123). -/
theorem pinEvents_flushEvents (c : ChainId) (m : List Byte) : pinEvents (flushEvents c m) = flushCount m.length := by
  have : flushEvents c m = [Event.drive (.lat c) false] ++ sendEvents c (serialStream m) ++ [.drive (.lat c) true] := rfl
  rw [this, pinEvents_append, pinEvents_append, pinEvents_sendEvents, length_serialStream]
  simp [pinEvents_cons, isDrive, flushCount]; omega

/-- Every event of a flush is a pin event. -/
@[simp] theorem reports_flushEvents (c : ChainId) (m : List Byte) : reports (flushEvents c m) = [] := by
  apply reports_of_drives
  intro e he
  simp only [flushEvents, List.mem_append, List.mem_cons, List.mem_flatMap, List.not_mem_nil, or_false] at he
  rcases he with (rfl | ⟨b, -, rfl | rfl | rfl⟩) | rfl <;> rfl

end Sys2Proof.Machine
end

