-- ==== Sys2Proof/Laws/Address.lean ====
section
/-!
SUPPORT. The address procedure (41_address_bus.md rules R152, R154 to R156): what programming the first `n` address bits
does, on every backend at once.
-/

namespace Sys2Proof.Machine

/-! ### Levels and numbers -/

@[simp] theorem levelOf_true : levelOf true = .high := rfl
@[simp] theorem levelOf_false : levelOf false = .low := rfl

theorem lineValue_testBit (n x : Nat) :
    lineValue ((List.range n).map (fun i => levelOf (x.testBit i))) = some (x % 2 ^ n) := by
  induction n generalizing x with
  | zero => simp [lineValue, Nat.mod_one]
  | succ n ih =>
    have hs : (List.range (n + 1)).map (fun i => levelOf (x.testBit i)) =
        levelOf (x.testBit 0) :: (List.range n).map (fun i => levelOf ((x / 2).testBit i)) := by
      simp [List.range_succ_eq_map, Function.comp_def, Nat.testBit_succ]
    rw [hs]
    have hx : x % 2 ^ (n + 1) = 2 * (x / 2 % 2 ^ n) + x % 2 := by
      rw [Nat.pow_succ, Nat.mul_comm, Nat.mod_mul]; omega
    rcases Nat.mod_two_eq_zero_or_one x with h | h
    · have : x.testBit 0 = false := by simp [h]
      rw [this, levelOf_false, lineValue, ih, hx, h]; rfl
    · have : x.testBit 0 = true := by simp [h]
      rw [this, levelOf_true, lineValue, ih, hx, h]; rfl

/-- Lines that spell the bits of an address show that address. -/
theorem lineValue_addressLevels (a : Addr) : lineValue (addressLevels a) = some a.toNat := by
  have h := lineValue_testBit 15 a.toNat
  rwa [Nat.mod_eq_of_lt a.isLt] at h

@[simp] theorem length_addressLevels (a : Addr) : (addressLevels a).length = 15 := by simp [addressLevels]

theorem getElem?_addressLevels (a : Addr) {i : Nat} (h : i < 15) :
    (addressLevels a)[i]? = some (levelOf (a.getLsbD i)) := by
  simp [addressLevels, h]

theorem addressLevels_putBit (a : Addr) {i : Nat} (h : i < 15) (v : Bool) :
    addressLevels (putBit a i v) = (addressLevels a).set i (levelOf v) := by
  apply List.ext_getElem?
  intro j
  by_cases hj : j < 15
  · rw [getElem?_addressLevels _ hj, getLsbD_putBit _ _ _ _ h, List.getElem?_set]
    by_cases hji : j = i
    · subst hji; simp [h]
    · rw [if_neg hji, if_neg (Ne.symm hji), getElem?_addressLevels a hj]
  · rw [List.getElem?_eq_none (by simp; omega), List.getElem?_eq_none (by simp; omega)]

/-! ### Configurations that pass the checks -/

theorem wf_cases {c : Cfg} (h : c.wf = true) :
    (c.backend = .direct ∧ c.n1 = 0 ∧ c.n2 = 0) ∨
    (c.backend = .chain1 ∧ c.k = 15 ∧ 15 ≤ 8 * c.n1 ∧ c.n2 = 0) ∨
    (c.backend = .chain2 ∧ 1 ≤ c.k ∧ c.k ≤ 14 ∧ c.k ≤ 8 * c.n1 ∧ 15 - c.k ≤ 8 * c.n2) := by
  obtain ⟨b, k, n1, n2, v, t1, t2, t3⟩ := c
  cases b <;>
    simp [Cfg.wf, Cfg.backendPresent, Cfg.kInRange, Cfg.chain1WideEnough, Cfg.chain2WideEnough, Cfg.bankCountInRange,
      Cfg.bankCountOk] at h ⊢ <;> omega

/-! ### One address bit -/

/-- The state an address can be programmed in: a legal configuration, registers of their widths, chains and pins
consistent, the memory device disabled. -/
abbrev Programmable (s : State) : Prop :=
  s.cfg.wf = true ∧ chainShape s.cfg.n1 s.chain1 ∧ chainShape s.cfg.n2 s.chain2 ∧ s.apinPins.length = 15 ∧
    s.Consistent ∧ s.ceN = .high

theorem Programmable.of_ready {s : State} (h : s.Ready) : Programmable s :=
  ⟨h.1.1, h.1.2.1, h.1.2.2.1, h.1.2.2.2.1, h.2.2.2, h.2.2.1.1⟩

/-- `t` differs from `s` at most in the address registers and in the events `es`. -/
def MovedBy (es : List Event) (s t : State) : Prop :=
  t = played es { s with chain1 := t.chain1, chain2 := t.chain2, apin := t.apin, apinPins := t.apinPins }

theorem MovedBy.refl (s : State) : MovedBy [] s s := by simp [MovedBy]

theorem MovedBy.trans {a b : List Event} {s t u : State} (h1 : MovedBy a s t) (h2 : MovedBy b t u) :
    MovedBy (a ++ b) s u := by
  unfold MovedBy at *
  rw [h2, h1]
  simp [played, advanceBy_advanceBy]

/-- How many pin events address bit `i` takes (R156). -/
def bitCount (c : Cfg) (i : Nat) : Nat :=
  match c.backend with
  | .direct => 1
  | .chain1 => flushCount c.n1
  | .chain2 => if i < c.k then flushCount c.n1 else flushCount c.n2
  | .unsupplied => 0

/-- Pin events of chain and address pins only. -/
def AddressEvents (es : List Event) : Prop := ∀ e ∈ es, isAddressDrive e = true

theorem AddressEvents.nil : AddressEvents [] := by simp [AddressEvents]

theorem AddressEvents.append {a b : List Event} (ha : AddressEvents a) (hb : AddressEvents b) :
    AddressEvents (a ++ b) := by
  intro e he
  rcases List.mem_append.1 he with h | h
  · exact ha e h
  · exact hb e h

theorem addressEvents_flush (c : ChainId) (m : List Byte) : AddressEvents (flushEvents c m) := by
  intro e he
  simp only [flushEvents, List.mem_append, List.mem_cons, List.mem_flatMap, List.not_mem_nil, or_false] at he
  rcases he with (rfl | ⟨b, -, rfl | rfl | rfl⟩) | rfl <;> rfl

theorem isDrive_of_addressDrive {e : Event} (h : isAddressDrive e = true) : isDrive e = true := by
  cases e <;> simp_all [isAddressDrive, isDrive]

/-- All of them are pin events. -/
theorem AddressEvents.pinEvents {es : List Event} (h : AddressEvents es) : pinEvents es = es.length := by
  rw [Machine.pinEvents, List.filter_eq_self.2]
  exact fun e he => isDrive_of_addressDrive (h e he)

theorem AddressEvents.reports {es : List Event} (h : AddressEvents es) : reports es = [] :=
  reports_of_drives fun e he => isDrive_of_addressDrive (h e he)

theorem AddressFrame.refl (s : State) : AddressFrame s s :=
  ⟨fun _ => ⟨rfl, rfl⟩, fun _ => rfl, fun _ => rfl, fun _ _ => rfl, fun _ _ => rfl⟩

theorem AddressFrame.trans {s t u : State} (hc : t.cfg = s.cfg) (h1 : AddressFrame s t) (h2 : AddressFrame t u) :
    AddressFrame s u := by
  obtain ⟨a1, a2, a3, a4, a5⟩ := h1
  obtain ⟨b1, b2, b3, b4, b5⟩ := h2
  rw [hc] at b1 b2 b3 b4 b5
  exact ⟨fun h => ⟨(b1 h).1.trans (a1 h).1, (b1 h).2.trans (a1 h).2⟩, fun h => (b2 h).trans (a2 h),
    fun h => (b3 h).trans (a3 h), fun j h => (b4 j h).trans (a4 j h), fun j h => (b5 j h).trans (a5 j h)⟩

/-- What is known after programming one address bit. -/
structure BitProgrammed (a : Addr) (i : Nat) (s t : State) (es : List Event) : Prop where
  moved : MovedBy es s t
  programmable : Programmable t
  events : AddressEvents es
  frame : AddressFrame s t
  lines : addressLines t = (addressLines s).set i (levelOf (a.getLsbD i))
  count : pinEvents es = bitCount s.cfg i
  apin : ∀ j, t.apin.getLsbD j = if s.cfg.backend = .direct ∧ j = i then a.getLsbD i else s.apin.getLsbD j
  mirror1 : ∀ j, mirrorBit t.chain1.mirror j =
    if i < lowBits s.cfg ∧ j = i then a.getLsbD i else mirrorBit s.chain1.mirror j
  mirror2 : ∀ j, mirrorBit t.chain2.mirror j =
    if s.cfg.backend = .chain2 ∧ s.cfg.k ≤ i ∧ j = i - s.cfg.k then a.getLsbD i else mirrorBit s.chain2.mirror j

theorem flush_written (c : ChainId) {s : State} (hce : s.ceN = .high) (n : Nat) (hn : 1 ≤ n)
    (hs : chainShape n (s.chain c)) (hc : chainConsistent (s.chain c)) (idx : Nat) (v : Bool) :
    flush c (writeMirrorBit c idx v s) =
      (played (flushEvents c (putMirrorBit (s.chain c).mirror idx v)) s).setChain c
        (settledChain (putMirrorBit (s.chain c).mirror idx v)) := by
  have hm : putMirrorBit (s.chain c).mirror idx v ≠ [] := by
    intro h0
    have := congrArg List.length h0
    rw [length_putMirrorBit, hs.1] at this
    simp only [List.length_nil] at this; omega
  rw [flush_eq c (by simpa [writeMirrorBit] using hce) (by simpa [writeMirrorBit] using hc.2.2.1)
    (by simpa [writeMirrorBit] using hm) (by simp [writeMirrorBit, hs.1, hs.2.1])]
  simp [writeMirrorBit, played_setChain]

theorem putMirrorBit_ne_nil {m : List Byte} (h : m ≠ []) (idx : Nat) (v : Bool) : putMirrorBit m idx v ≠ [] := by
  intro h0
  have := congrArg List.length h0
  rw [length_putMirrorBit] at this
  exact h (List.eq_nil_of_length_eq_zero (by simpa using this))

theorem ne_nil_of_length {α : Type} {l : List α} {n : Nat} (h : l.length = n) (hn : 1 ≤ n) : l ≠ [] := by
  rintro rfl; simp at h; omega

theorem programBit_spec (a : Addr) {s : State} (h : Programmable s) (i : Fin 15) :
    ∃ es, BitProgrammed a i s (programBit a s i) es := by
  obtain ⟨hwf, hs1, hs2, hpins, hcons, hce⟩ := h
  have hi := i.isLt
  rcases wf_cases hwf with ⟨hb, hn1, hn2⟩ | ⟨hb, hk, hn1, hn2⟩ | ⟨hb, hk1, hk14, hn1, hn2⟩
  · -- direct pins
    have heq : programBit a s i = played [.drive (.apin i) (a.getLsbD i)]
        { s with apin := putBit s.apin i (a.getLsbD i), apinPins := s.apinPins.set i (levelOf (a.getLsbD i)) } := by
      simp only [programBit, hb]
      rw [drive_of_ce_high rfl _ (by simpa using hce)]
      rfl
    have hc3 : s.apinPins = addressLevels s.apin := hcons.2.2 hb
    refine ⟨[.drive (.apin i) (a.getLsbD i)], ?_⟩
    rw [heq]
    refine ⟨rfl, ⟨hwf, hs1, hs2, by simpa using hpins, ⟨hcons.1, hcons.2.1, fun _ => ?_⟩, hce⟩, ?_, ?_, ?_, ?_, ?_, ?_, ?_⟩
    · simp [addressLevels_putBit _ hi, hc3]
    · intro e he
      obtain rfl : e = _ := by simpa using he
      rfl
    · exact ⟨fun hd => absurd hb hd, fun _ => rfl, fun _ => rfl, fun _ _ => rfl, fun _ _ => rfl⟩
    · simp [addressLines, hb]
    · simp [bitCount, hb, pinEvents_cons, isDrive]
    · intro j; simp [getLsbD_putBit _ _ _ _ hi, hb]
    · intro j; simp [lowBits, hb]
    · intro j; simp [hb]
  · -- one chain
    have hc1 : chainConsistent s.chain1 := hcons.1 (by simp [chainExists, nchains, hb, chainNumber])
    have hne : 1 ≤ s.cfg.n1 := by omega
    have heq : programBit a s i = (played (flushEvents .one (putMirrorBit s.chain1.mirror i (a.getLsbD i))) s).setChain
        .one (settledChain (putMirrorBit s.chain1.mirror i (a.getLsbD i))) := by
      simp only [programBit, hb]
      exact flush_written .one hce _ hne hs1 hc1 _ _
    have hlen : i.val < 8 * s.chain1.mirror.length := by rw [hs1.1]; omega
    have hmne := putMirrorBit_ne_nil (ne_nil_of_length hs1.1 hne) i.val (a.getLsbD i)
    refine ⟨flushEvents .one (putMirrorBit s.chain1.mirror i (a.getLsbD i)), ?_⟩
    rw [heq]
    refine ⟨rfl, ⟨hwf, chainShape_settled (by simpa using hs1.1), hs2, hpins, ⟨fun _ => chainConsistent_settled _,
      hcons.2.1, hcons.2.2⟩, hce⟩, addressEvents_flush _ _, ?_, ?_, ?_, ?_, ?_, ?_⟩
    · refine ⟨fun _ => ⟨rfl, rfl⟩, fun hx => ?_, fun _ => rfl, fun j hj => ?_, fun _ _ => rfl⟩
      · simp [chainExists, nchains, hb, chainNumber] at hx
      · have : j ≠ i.val := by simp [lowBits, hb] at hj; omega
        simp [settledChain, mirrorBit_putMirrorBit _ _ _ _ hlen, this]
    · simp [addressLines, hb, settledChain, mirrorLevels_putMirrorBit _ _ _ hlen, List.take_set, hc1.1]
    · simp [bitCount, hb, pinEvents_flushEvents, hs1.1]
    · intro j; simp [hb]
    · intro j; simp [lowBits, hb, settledChain, mirrorBit_putMirrorBit _ _ _ _ hlen, hi]
    · intro j; simp [hb]
  · -- two chains
    have hc1 : chainConsistent s.chain1 := hcons.1 (by simp [chainExists, nchains, hb, chainNumber])
    have hc2 : chainConsistent s.chain2 := hcons.2.1 (by simp [chainExists, nchains, hb, chainNumber])
    have hne1 : 1 ≤ s.cfg.n1 := by omega
    have hne2 : 1 ≤ s.cfg.n2 := by omega
    by_cases hik : i.val < s.cfg.k
    · have heq : programBit a s i =
          (played (flushEvents .one (putMirrorBit s.chain1.mirror i (a.getLsbD i))) s).setChain
            .one (settledChain (putMirrorBit s.chain1.mirror i (a.getLsbD i))) := by
        simp only [programBit, hb, hik, if_true]
        exact flush_written .one hce _ hne1 hs1 hc1 _ _
      have hlen : i.val < 8 * s.chain1.mirror.length := by rw [hs1.1]; omega
      have hmne := putMirrorBit_ne_nil (ne_nil_of_length hs1.1 hne1) i.val (a.getLsbD i)
      refine ⟨flushEvents .one (putMirrorBit s.chain1.mirror i (a.getLsbD i)), ?_⟩
      rw [heq]
      refine ⟨rfl, ⟨hwf, chainShape_settled (by simpa using hs1.1), hs2, hpins, ⟨fun _ => chainConsistent_settled _,
        hcons.2.1, hcons.2.2⟩, hce⟩, addressEvents_flush _ _, ?_, ?_, ?_, ?_, ?_, ?_⟩
      · refine ⟨fun _ => ⟨rfl, rfl⟩, fun hx => ?_, fun _ => rfl, fun j hj => ?_, fun _ _ => rfl⟩
        · simp [chainExists, nchains, hb, chainNumber] at hx
        · have : j ≠ i.val := by simp [lowBits, hb] at hj; omega
          simp [settledChain, mirrorBit_putMirrorBit _ _ _ _ hlen, this]
      · have hl : i.val < (s.chain1.out.take s.cfg.k).length := by
          rw [List.length_take, hs1.2.2]; omega
        simp only [addressLines, hb, settledChain, mirrorLevels_putMirrorBit _ _ _ hlen, List.take_set, played_cfg,
          setChain_one, played_chain2]
        rw [List.set_append_left _ _ hl, hc1.1]
      · simp [bitCount, hb, pinEvents_flushEvents, hs1.1, hik]
      · intro j; simp [hb]
      · intro j; simp [lowBits, hb, settledChain, mirrorBit_putMirrorBit _ _ _ _ hlen, hik]
      · intro j
        have : ¬ s.cfg.k ≤ i.val := by omega
        simp [hb, this]
    · have heq : programBit a s i =
          (played (flushEvents .two (putMirrorBit s.chain2.mirror (i.val - s.cfg.k) (a.getLsbD i))) s).setChain
            .two (settledChain (putMirrorBit s.chain2.mirror (i.val - s.cfg.k) (a.getLsbD i))) := by
        simp only [programBit, hb, hik, if_false]
        exact flush_written .two hce _ hne2 hs2 hc2 _ _
      have hlen : i.val - s.cfg.k < 8 * s.chain2.mirror.length := by rw [hs2.1]; omega
      have hmne := putMirrorBit_ne_nil (ne_nil_of_length hs2.1 hne2) (i.val - s.cfg.k) (a.getLsbD i)
      refine ⟨flushEvents .two (putMirrorBit s.chain2.mirror (i.val - s.cfg.k) (a.getLsbD i)), ?_⟩
      rw [heq]
      refine ⟨rfl, ⟨hwf, hs1, chainShape_settled (by simpa using hs2.1), hpins, ⟨hcons.1,
        fun _ => chainConsistent_settled _, hcons.2.2⟩, hce⟩, addressEvents_flush _ _, ?_, ?_, ?_, ?_, ?_, ?_⟩
      · refine ⟨fun _ => ⟨rfl, rfl⟩, fun _ => rfl, fun hx => ?_, fun _ _ => rfl, fun j hj => ?_⟩
        · simp [chainExists, nchains, hb, chainNumber] at hx
        · have : j ≠ i.val - s.cfg.k := by omega
          simp [settledChain, mirrorBit_putMirrorBit _ _ _ _ hlen, this]
      · have hl : (s.chain1.out.take s.cfg.k).length = s.cfg.k := by
          rw [List.length_take, hs1.2.2]; omega
        simp only [addressLines, hb, settledChain, mirrorLevels_putMirrorBit _ _ _ hlen, List.take_set, played_cfg,
          setChain_two, played_chain1]
        rw [List.set_append_right _ _ (by omega), hl, hc2.1]
      · simp [bitCount, hb, pinEvents_flushEvents, hs2.1, hik]
      · intro j; simp [hb]
      · intro j; simp [lowBits, hb, hik]
      · intro j
        have : s.cfg.k ≤ i.val := by omega
        simp [hb, settledChain, mirrorBit_putMirrorBit _ _ _ _ hlen, this]

/-! ### The first `n` address bits -/

theorem programBits_zero (a : Addr) (s : State) : programBits a 0 s = s := by simp [programBits]

theorem programBits_succ (a : Addr) (n : Nat) (h : n < 15) (s : State) :
    programBits a (n + 1) s = programBit a (programBits a n s) ⟨n, h⟩ := by
  simp only [programBits]
  rw [List.take_add_one, List.getElem?_eq_getElem (by simpa using h)]
  simp

/-- The pin events of the first `n` address bits. -/
def bitsCount (c : Cfg) (n : Nat) : Nat := ((List.range n).map (bitCount c)).sum

theorem bitsCount_succ (c : Cfg) (n : Nat) : bitsCount c (n + 1) = bitsCount c n + bitCount c n := by
  simp [bitsCount, List.range_succ]

/-- What is known after programming the first `n` address bits (R154, R155). -/
structure BitsProgrammed (a : Addr) (n : Nat) (s t : State) (es : List Event) : Prop where
  moved : MovedBy es s t
  programmable : Programmable t
  events : AddressEvents es
  frame : AddressFrame s t
  lines : ∀ j, j < 15 →
    (addressLines t)[j]? = if j < n then some (levelOf (a.getLsbD j)) else (addressLines s)[j]?
  length : (addressLines t).length = (addressLines s).length
  count : pinEvents es = bitsCount s.cfg n
  apin : ∀ j, t.apin.getLsbD j = if s.cfg.backend = .direct ∧ j < n then a.getLsbD j else s.apin.getLsbD j
  mirror1 : ∀ j, mirrorBit t.chain1.mirror j =
    if j < n ∧ j < lowBits s.cfg then a.getLsbD j else mirrorBit s.chain1.mirror j
  mirror2 : ∀ j, mirrorBit t.chain2.mirror j =
    if s.cfg.backend = .chain2 ∧ j + s.cfg.k < n then a.getLsbD (j + s.cfg.k) else mirrorBit s.chain2.mirror j

theorem MovedBy.cfg {es : List Event} {s t : State} (h : MovedBy es s t) : t.cfg = s.cfg := by rw [h]; rfl

theorem length_addressLines {s : State} (h : Programmable s) : (addressLines s).length = 15 := by
  obtain ⟨hwf, hs1, hs2, hpins, -, -⟩ := h
  rcases wf_cases hwf with ⟨hb, hn1, hn2⟩ | ⟨hb, hk, hn1, hn2⟩ | ⟨hb, hk1, hk14, hn1, hn2⟩
  · simp [addressLines, hb, hpins]
  · simp only [addressLines, hb, List.length_take, hs1.2.2]; omega
  · simp only [addressLines, hb, List.length_append, List.length_take, hs1.2.2, hs2.2.2]; omega

theorem programBits_spec (a : Addr) {s : State} (h : Programmable s) (n : Nat) (hn : n ≤ 15) :
    ∃ es, BitsProgrammed a n s (programBits a n s) es := by
  induction n with
  | zero =>
    refine ⟨[], ?_⟩
    rw [programBits_zero]
    exact ⟨.refl s, h, .nil, .refl s, by simp, rfl, rfl, by simp, by simp, by simp⟩
  | succ n ih =>
    obtain ⟨es, hp⟩ := ih (by omega)
    obtain ⟨es', hq⟩ := programBit_spec a hp.programmable ⟨n, by omega⟩
    rw [← programBits_succ] at hq
    have hcfg := hp.moved.cfg
    have hlen : (addressLines (programBits a n s)).length = 15 := length_addressLines hp.programmable
    refine ⟨es ++ es', hp.moved.trans hq.moved, hq.programmable, hp.events.append hq.events,
      hp.frame.trans hcfg hq.frame, ?_, ?_, ?_, ?_, ?_, ?_⟩
    · intro j hj
      rw [hq.lines, List.getElem?_set]
      by_cases hjn : n = j
      · subst hjn; simp [hlen, hj]
      · rw [if_neg hjn, hp.lines j hj]
        by_cases hjl : j < n
        · rw [if_pos hjl, if_pos (by omega)]
        · rw [if_neg hjl, if_neg (by omega)]
    · rw [hq.lines, List.length_set, hp.length]
    · rw [pinEvents_append, hp.count, hq.count, bitsCount_succ, hcfg]
    · intro j
      rw [hq.apin, hp.apin, hcfg]
      by_cases hb : s.cfg.backend = .direct <;> by_cases hjn : j = n
      · simp [hb, hjn]
      · have : j < n + 1 ↔ j < n := by omega
        simp [hb, hjn, this]
      · simp [hb]
      · simp [hb]
    · intro j
      rw [hq.mirror1, hp.mirror1, hcfg]
      by_cases hjn : j = n
      · subst hjn
        by_cases hl : j < lowBits s.cfg <;> simp [hl]
      · have : j < n + 1 ↔ j < n := by omega
        simp [hjn, this]
    · intro j
      rw [hq.mirror2, hp.mirror2, hcfg]
      by_cases hb : s.cfg.backend = .chain2
      · by_cases hjn : j + s.cfg.k = n
        · have h1 : s.cfg.k ≤ n ∧ j = n - s.cfg.k := by omega
          simp [hb, h1]
        · have h1 : ¬ (s.cfg.k ≤ n ∧ j = n - s.cfg.k) := by omega
          have h2 : j + s.cfg.k < n + 1 ↔ j + s.cfg.k < n := by omega
          simp [hb, h1, h2]
      · simp [hb]

/-- After all 15 bits the lines spell the operand, whatever the backend (R155, R158). -/
theorem programBits_lines (a : Addr) {s : State} (h : Programmable s) :
    addressLines (programBits a 15 s) = addressLevels a := by
  obtain ⟨es, hp⟩ := programBits_spec a h 15 (Nat.le_refl _)
  have hlen := length_addressLines hp.programmable
  apply List.ext_getElem?
  intro j
  by_cases hj : j < 15
  · rw [hp.lines j hj, if_pos hj, getElem?_addressLevels a hj]
  · rw [List.getElem?_eq_none (by omega), List.getElem?_eq_none (by simp; omega)]

theorem bitsCount_two_chains {c : Cfg} (hb : c.backend = .chain2) (n : Nat) :
    bitsCount c n = min n c.k * flushCount c.n1 + (n - min n c.k) * flushCount c.n2 := by
  induction n with
  | zero => simp [bitsCount]
  | succ n ih =>
    rw [bitsCount_succ, ih]
    simp only [bitCount, hb]
    by_cases h : n < c.k
    · rw [if_pos h, Nat.min_eq_left (by omega), Nat.min_eq_left (by omega), Nat.succ_mul]
      simp
    · rw [if_neg h, Nat.min_eq_right (by omega), Nat.min_eq_right (by omega), Nat.succ_sub (by omega), Nat.succ_mul]
      omega

/-- R156's count is the sum over the bits. -/
theorem bitsCount_all {c : Cfg} (h : c.wf = true) : bitsCount c 15 = addressCount c := by
  rcases wf_cases h with ⟨hb, -⟩ | ⟨hb, hk, -⟩ | ⟨hb, hk1, hk14, -⟩
  · have : bitCount c = fun _ => 1 := by funext i; simp [bitCount, hb]
    simp [bitsCount, this, addressCount, hb]
  · have : bitCount c = fun _ => flushCount c.n1 := by funext i; simp [bitCount, hb]
    simp [bitsCount, this, addressCount, hb]
    omega
  · rw [bitsCount_two_chains hb, Nat.min_eq_right (by omega)]
    simp [addressCount, hb]

end Sys2Proof.Machine
end

