-- ==== Sys2Proof/Laws/Transactions.lean ====
section
/-!
SUPPORT. The byte and block transactions from a ready state (43_memory_controller.md rules R195, R197, R198, R205, R206):
each as one equation or one structure that says everything it does.
-/

namespace Sys2Proof.Machine

/-! ### `setAddress` -/

/-- The events of `setAddress` whose pin events are `es`: the settle delay and the diagnostic follow (R152, R153). -/
def addressEventsWith (c : Cfg) (a : Addr) (es : List Event) : List Event :=
  es ++ [.delay .addressSettle c.tAS, .report (.addrSet a)]

/-- Everything `setAddress` does (R152, R153, R155, R156); `es` are its pin events. -/
structure AddressSet (a : Addr) (s t : State) (es : List Event) : Prop where
  eq : t = played (addressEventsWith s.cfg a es)
                 { s with chain1 := t.chain1, chain2 := t.chain2, apin := t.apin, apinPins := t.apinPins }
  programmable : Programmable t
  events : AddressEvents es
  frame : AddressFrame s t
  lines : addressLines t = addressLevels a
  count : pinEvents es = addressCount s.cfg
  apin : ∀ j, t.apin.getLsbD j = if s.cfg.backend = .direct ∧ j < 15 then a.getLsbD j else s.apin.getLsbD j
  mirror1 : ∀ j, mirrorBit t.chain1.mirror j =
    if j < 15 ∧ j < lowBits s.cfg then a.getLsbD j else mirrorBit s.chain1.mirror j
  mirror2 : ∀ j, mirrorBit t.chain2.mirror j =
    if s.cfg.backend = .chain2 ∧ j + s.cfg.k < 15 then a.getLsbD (j + s.cfg.k) else mirrorBit s.chain2.mirror j

theorem setAddress_spec (a : Addr) {s : State} (h : Programmable s) : ∃ es, AddressSet a s (setAddress a s) es := by
  obtain ⟨es, hp⟩ := programBits_spec a h 15 (Nat.le_refl _)
  have hm := hp.moved
  have hcfg := hm.cfg
  have hq : setAddress a s =
      played [.delay .addressSettle s.cfg.tAS, .report (.addrSet a)] (programBits a 15 s) := by
    rw [setAddress, delay, hcfg, record_eq_played rfl rfl, emit_eq_played, played_played]; rfl
  refine ⟨es, ?_, ?_, hp.events, ?_, ?_, ?_, ?_, ?_, ?_⟩
  · rw [hq]
    unfold MovedBy at hm
    conv_lhs => rw [hm]
    exact played_played _ _ _
  · rw [hq]; exact hp.programmable
  · rw [hq]; exact hp.frame
  · rw [hq]; exact programBits_lines a h
  · rw [hp.count, bitsCount_all h.1]
  · rw [hq]; exact hp.apin
  · rw [hq]; exact hp.mirror1
  · rw [hq]; exact hp.mirror2

/-- The fields an address change leaves alone. -/
theorem setAddress_frame (a : Addr) {s : State} (h : Programmable s) :
    (setAddress a s).cfg = s.cfg ∧ (setAddress a s).rstN = s.rstN ∧ (setAddress a s).init = s.init ∧
    (setAddress a s).counters = s.counters ∧ (setAddress a s).ddir = s.ddir ∧ (setAddress a s).dout = s.dout ∧
    (setAddress a s).ceN = s.ceN ∧ (setAddress a s).oeN = s.oeN ∧ (setAddress a s).weN = s.weN ∧
    (setAddress a s).mem = s.mem ∧ (setAddress a s).memEpoch = s.memEpoch ∧ (setAddress a s).pulse = s.pulse ∧
    (setAddress a s).hazard = s.hazard ∧ (setAddress a s).draws = s.draws ∧ (setAddress a s).cmds = s.cmds ∧
    (setAddress a s).wd = s.wd ∧ (setAddress a s).rd = s.rd ∧ (setAddress a s).rsp = s.rsp := by
  obtain ⟨es, hp⟩ := setAddress_spec a h
  have := hp.eq
  refine ⟨?_, ?_, ?_, ?_, ?_, ?_, ?_, ?_, ?_, ?_, ?_, ?_, ?_, ?_, ?_, ?_, ?_, ?_⟩ <;> rw [this] <;> rfl

theorem setAddress_shown (a : Addr) {s : State} (h : Programmable s) :
    shownAddress (setAddress a s) = some a.toNat := by
  obtain ⟨es, hp⟩ := setAddress_spec a h
  rw [shownAddress, hp.lines, lineValue_addressLevels]

theorem ready_setAddress {s : State} (a : Addr) (h : s.Ready) : (setAddress a s).Ready := by
  have hP := Programmable.of_ready h
  obtain ⟨es, hp⟩ := setAddress_spec a hP
  obtain ⟨hcfg, -, hinit, -, -, -, hce, hoe, hwe, hmem, -, hpulse, hhaz, -⟩ := setAddress_frame a hP
  obtain ⟨h1, h2, h3, h4, h5, h6⟩ := hp.programmable
  obtain ⟨⟨-, -, -, -, hw, hpu, hha⟩, hi, ⟨hl1, hl2, hl3⟩, -⟩ := h
  exact ⟨⟨h1, h2, h3, h4, by rw [hmem]; exact hw, by rw [hpulse]; exact hpu, by rw [hhaz]; exact hha⟩,
    by rw [hinit]; exact hi, ⟨h6, by rw [hoe]; exact hl2, by rw [hwe]; exact hl3⟩, h5⟩

/-! ### The registers an address change leaves are those of the address -/

/-- Two mirrors of one length with the same bits are the same mirror (R25). -/
theorem mirror_ext {m n : List Byte} (hl : m.length = n.length) (h : ∀ j, mirrorBit m j = mirrorBit n j) : m = n := by
  apply List.ext_getElem hl
  intro i h1 h2
  apply BitVec.eq_of_getLsbD_eq
  intro b hb
  have := h (8 * i + b)
  have e1 : (8 * i + b) / 8 = i := by omega
  have e2 : (8 * i + b) % 8 = b := by omega
  simpa [mirrorBit, e1, e2, h1, h2] using this

/-- The record of `setAddress` (R152, R153, R156, R207). -/
theorem AddressSet.record {a : Addr} {s t : State} {es : List Event} (h : AddressSet a s t es) :
    IsAddressRecord s.cfg a (addressEventsWith s.cfg a es) :=
  ⟨es, rfl, by rw [← h.count, h.events.pinEvents], h.events⟩

theorem AddressSet.cfg {a : Addr} {s t : State} {es : List Event} (h : AddressSet a s t es) : t.cfg = s.cfg := by
  rw [h.eq]; rfl

/-- Setting one address from two states that differ at most in that address's own bits gives the same registers
(R152, R155). -/
theorem AddressSet.registers_eq {a : Addr} {s s' t t' : State} {es es' : List Event} (h : AddressSet a s t es)
    (h' : AddressSet a s' t' es') (hc : s'.cfg = s.cfg) (hf : AddressFrame s s') :
    t'.chain1 = t.chain1 ∧ t'.chain2 = t.chain2 ∧ t'.apin = t.apin ∧ t'.apinPins = t.apinPins := by
  obtain ⟨f1, f2, f3, f4, f5⟩ := hf
  obtain ⟨g1, g2, g3, -, -⟩ := h.frame
  obtain ⟨g1', g2', g3', -, -⟩ := h'.frame
  have hcf := h.cfg
  have hcf' := h'.cfg.trans hc
  obtain ⟨hw, s1, s2, -, c1, -⟩ := h.programmable
  obtain ⟨-, s1', s2', -, c1', -⟩ := h'.programmable
  rw [hcf] at hw s1 s2
  rw [hcf'] at s1' s2'
  rw [hc] at g1' g2' g3'
  have hlow : lowBits s.cfg ≤ 15 := by
    rcases wf_cases hw with ⟨hb, -⟩ | ⟨hb, -⟩ | ⟨hb, -, hk, -⟩ <;> simp only [lowBits, hb] <;> omega
  have hm1 : t'.chain1.mirror = t.chain1.mirror := by
    refine mirror_ext (s1'.1.trans s1.1.symm) fun j => ?_
    rw [h'.mirror1, h.mirror1, hc]
    split
    · rfl
    · exact f4 j (by omega)
  have hchain : ∀ {x y : Chain}, chainConsistent x → chainConsistent y → x.mirror = y.mirror → x = y := fun hx hy hxy => by
    rw [(chainConsistent_iff _).1 hx, (chainConsistent_iff _).1 hy, hxy]
  have hap : t'.apin = t.apin := by
    by_cases hd : s.cfg.backend = .direct
    · apply BitVec.eq_of_getLsbD_eq
      intro j hj
      rw [h'.apin, h.apin, hc, if_pos ⟨hd, hj⟩, if_pos ⟨hd, hj⟩]
    · rw [(g1' hd).1, (g1 hd).1, (f1 hd).1]
  refine ⟨?_, ?_, hap, ?_⟩
  · cases he : chainExists s.cfg .one
    · rw [g2' he, g2 he, f2 he]
    · exact hchain (c1'.1 (by rw [hcf']; exact he)) (c1.1 (by rw [hcf]; exact he)) hm1
  · cases he : chainExists s.cfg .two
    · rw [g3' he, g3 he, f3 he]
    · have hb : s.cfg.backend = .chain2 := by
        revert he; cases hb : s.cfg.backend <;> simp [chainExists, nchains, hb, chainNumber]
      refine hchain (c1'.2.1 (by rw [hcf']; exact he)) (c1.2.1 (by rw [hcf]; exact he))
        (mirror_ext (s2'.1.trans s2.1.symm) fun j => ?_)
      rw [h'.mirror2, h.mirror2, hc]
      split
      · rfl
      · exact f5 j (by rename_i hh; simp only [hb, true_and] at hh; omega)
  · by_cases hd : s.cfg.backend = .direct
    · rw [c1'.2.2 (by rw [hcf']; exact hd), c1.2.2 (by rw [hcf]; exact hd), hap]
    · rw [(g1' hd).2, (g1 hd).2, (f1 hd).2]

/-- The same for `setAddress` itself. -/
theorem setAddress_registers_eq (a : Addr) {s s' : State} (h : Programmable s) (h' : Programmable s') (hc : s'.cfg = s.cfg)
    (hf : AddressFrame s s') :
    (setAddress a s').chain1 = (setAddress a s).chain1 ∧ (setAddress a s').chain2 = (setAddress a s).chain2 ∧
      (setAddress a s').apin = (setAddress a s).apin ∧ (setAddress a s').apinPins = (setAddress a s).apinPins := by
  obtain ⟨es, hp⟩ := setAddress_spec a h
  obtain ⟨es', hp'⟩ := setAddress_spec a h'
  exact hp.registers_eq hp' hc hf

/-! ### Control lines -/

/-- A pin event to which the memory device does not react. -/
theorem drive_of_quiet {p : Pin} {l : Bool} {s : State} (h1 : deviceAccepts s = false)
    (h2 : deviceAccepts (setPin p l s) = false) (h3 : contended (setPin p l s) = false) :
    drive p l s = setPin p l (played [.drive p l] s) := by
  rw [drive_eq, react_nothing h1]
  · cases p <;> simpa [deviceAccepts, setPin] using h2
  · cases p <;> simpa [contended, deviceDrives, setPin] using h3

theorem deviceAccepts_of_we_high {s : State} (h : s.weN = .high) : deviceAccepts s = false := by
  simp [deviceAccepts, h]

/-- The device drives the byte of the cell the lines show (R36, R63). -/
theorem dataLines_driven {q : State} {a : Nat} (hd : q.ddir = .input) (h1 : q.ceN = .low) (h2 : q.oeN = .low)
    (h3 : q.weN = .high) (ha : shownAddress q = some a) : dataLines q = some (memRead q a) := by
  simp [dataLines, deviceDrives, hd, h1, h2, h3, ha]

/-! ### `readByte` -/

/-- The read transaction from a state whose lines already show the address. -/
theorem readTail_eq {p : State} {a : Nat} (hl : p.LinesIdle) (ha : shownAddress p = some a) :
    readBus (delay .readHold (drive .oeN false (drive .ceN false (setMode .input p)))) =
      (memRead p a, played ([.mode .input, .drive .ceN false, .drive .oeN false, .delay .readHold p.cfg.tRD] ++
        sampleEvents (memRead p a)) { p with ddir := .input, ceN := .low, oeN := .low }) := by
  obtain ⟨h1, h2, h3⟩ := hl
  have e1 : setMode .input p = played [.mode .input] { p with ddir := .input } :=
    setMode_of_quiet .input (deviceAccepts_of_ce_high h1) (deviceDrives_of_ce_high h1)
  have e2 : drive .ceN false (setMode .input p) =
      played [.mode .input, .drive .ceN false] { p with ddir := .input, ceN := .low } := by
    rw [e1, drive_of_quiet (by simp [deviceAccepts, h1]) (by simp [deviceAccepts, setPin, h3])
      (by simp [contended, setPin])]
    simp [setPin, played, pinEvents_cons, isDrive]
  have e3 : drive .oeN false (drive .ceN false (setMode .input p)) =
      played [.mode .input, .drive .ceN false, .drive .oeN false]
        { p with ddir := .input, ceN := .low, oeN := .low } := by
    rw [e2, drive_of_quiet (by simp [deviceAccepts, h3]) (by simp [deviceAccepts, setPin, h3])
      (by simp [contended, setPin])]
    simp [setPin, played, advanceBy_advanceBy, pinEvents_cons, isDrive]
  have e4 : delay .readHold (drive .oeN false (drive .ceN false (setMode .input p))) =
      played [.mode .input, .drive .ceN false, .drive .oeN false, .delay .readHold p.cfg.tRD]
        { p with ddir := .input, ceN := .low, oeN := .low } := by
    rw [e3, delay, record_eq_played rfl rfl, played_played]
    rfl
  have hd : dataLines (played [.mode .input, .drive .ceN false, .drive .oeN false, .delay .readHold p.cfg.tRD]
      { p with ddir := .input, ceN := .low, oeN := .low }) = some (memRead p a) := by
    exact dataLines_driven rfl rfl rfl h3 ha
  rw [e4, readBus_driven rfl hd, played_played]

/-- The deassertion of output-enable, then chip-enable (R198). -/
theorem readEnd_eq {p : State} (es : List Event) (hl : p.LinesIdle) :
    drive .ceN true (drive .oeN true (played es { p with ddir := .input, ceN := .low, oeN := .low })) =
      played (es ++ [.drive .oeN true, .drive .ceN true]) { p with ddir := .input } := by
  obtain ⟨h1, h2, h3⟩ := hl
  have e1 : drive .oeN true (played es { p with ddir := .input, ceN := .low, oeN := .low }) =
      played (es ++ [.drive .oeN true]) { p with ddir := .input, ceN := .low } := by
    rw [drive_of_quiet (by simp [deviceAccepts, h3]) (by simp [deviceAccepts, setPin, h3])
      (by simp [contended, setPin]), played_played]
    simp only [setPin, levelOf_true, ← h2]
    rfl
  rw [e1, drive_of_quiet (by simp [deviceAccepts, h3]) (by simp [deviceAccepts, setPin, h3])
      (by simp [contended, setPin]), played_played]
  simp only [setPin, levelOf_true, ← h1, List.append_assoc]
  rfl

/-- The whole read transaction from a state whose lines already show the address. -/
theorem readWhole_eq {p : State} {a : Nat} (hl : p.LinesIdle) (ha : shownAddress p = some a) :
    drive .ceN true (drive .oeN true
        (readBus (delay .readHold (drive .oeN false (drive .ceN false (setMode .input p))))).2) =
      played (readEvents p.cfg (memRead p a)) { p with ddir := .input } := by
  rw [readTail_eq hl ha]
  exact readEnd_eq _ hl

/-- The read transaction (R198): the cell's byte, and nothing changes but the address registers, `DDIR`, the events and
the diagnostics. -/
theorem readByte_eq (a : Addr) {s : State} (h : s.Ready) :
    readByte a s =
      (memRead s a.toNat,
        played (readEvents s.cfg (memRead s a.toNat) ++ [.report (.byteRead a (memRead s a.toNat))])
          { setAddress a s with ddir := .input }) := by
  have hP := Programmable.of_ready h
  have hl : (setAddress a s).LinesIdle := (ready_setAddress a h).2.2.1
  have hsh := setAddress_shown a hP
  have hmr : memRead (setAddress a s) a.toNat = memRead s a.toNat := by
    obtain ⟨-, -, -, -, -, -, -, -, -, hm, he, -⟩ := setAddress_frame a hP
    rw [memRead, hm, he, memRead]
  have hcfg := (setAddress_frame a hP).1
  rw [readByte]
  generalize setAddress a s = p at *
  have ht := congrArg Prod.fst (readTail_eq hl hsh)
  have hw := readWhole_eq hl hsh
  rw [← hcfg, ← hmr]
  simp only [hw, ht, emit_eq_played, played_played]

theorem ready_with_dir {s : State} (d : Dir) (h : s.Ready) : ({ s with ddir := d } : State).Ready := h

theorem ready_played {s : State} (es : List Event) (h : s.Ready) : (played es s).Ready := h

theorem ready_readByte {s : State} (a : Addr) (h : s.Ready) : (readByte a s).2.Ready := by
  have hr := ready_setAddress a h
  rw [readByte_eq a h]
  generalize setAddress a s = p at *
  exact ready_played _ (ready_with_dir _ hr)

/-! ### `writeByte` -/

theorem openPulse_good {s : State} (h : ((shownAddress s).isSome && s.ddir == .output && !deviceDrives s) = true) :
    openPulse s = { s with pulse := .stable } := by
  simp only [openPulse, h, if_true]

/-- Write-enable falls with address and data steady: the write interval opens (R64). -/
theorem drive_we_opens {q : State} {a : Nat} (h1 : q.ceN = .low) (h2 : q.weN = .high) (hd : q.ddir = .output)
    (ha : shownAddress q = some a) :
    drive .weN false q = played [.drive .weN false] { q with weN := .low, pulse := .stable } := by
  rw [drive_eq]
  have e1 : deviceAccepts q = false := by simp [deviceAccepts, h2]
  have e2 : deviceAccepts (setPin .weN false (played [.drive .weN false] q)) = true := by
    simp [deviceAccepts, setPin, h1]
  have e3 : shownAddress (setPin .weN false (played [.drive .weN false] q)) = some a := ha
  have e4 : deviceDrives (setPin .weN false (played [.drive .weN false] q)) = false := by
    simp [deviceDrives, setPin]
  have e5 : (setPin .weN false (played [.drive .weN false] q)).ddir = .output := hd
  have e6 : openPulse (setPin .weN false (played [.drive .weN false] q)) =
      played [.drive .weN false] { q with weN := .low, pulse := .stable } := by
    rw [openPulse_good (by rw [e3, e4, e5]; rfl)]; rfl
  have e7 : contended (played [.drive .weN false] { q with weN := .low, pulse := .stable }) = false := by
    simp [contended, deviceDrives]
  simp only [react, reactWrite, e1, e2, e6, e7]
  rfl

/-- Write-enable rises at the end of a steady interval: the device commits (R64). -/
theorem drive_we_commits {q : State} {a : Nat} (h1 : q.ceN = .low) (h2 : q.weN = .low) (h3 : q.oeN = .high)
    (hd : q.ddir = .output) (ha : shownAddress q = some a) (hp : q.pulse = .stable) :
    drive .weN true q =
      played [.drive .weN true] { q with weN := .high, pulse := .off, mem := storeCell q.mem a q.dout } := by
  rw [drive_eq]
  have e1 : deviceAccepts q = true := by simp [deviceAccepts, h1, h2]
  have e2 : deviceAccepts (setPin .weN true (played [.drive .weN true] q)) = false := by
    simp [deviceAccepts, setPin]
  have e0 : deviceDrives q = false := by simp [deviceDrives, h2]
  have e3 : dataLines q = some q.dout := by simp only [dataLines, e0, hd]
  have e4 : commitPulse q (setPin .weN true (played [.drive .weN true] q)) =
      played [.drive .weN true] { q with weN := .high, pulse := .off, mem := storeCell q.mem a q.dout } := by
    simp only [commitPulse, hp, ha, e3]; rfl
  have e5 : contended (played [.drive .weN true]
      { q with weN := .high, pulse := .off, mem := storeCell q.mem a q.dout }) = false := by
    simp [contended, deviceDrives, h3]
  simp only [react, reactWrite, e1, e2, e4, e5]
  rfl

/-- The mode switch, the data and the write pulse from a state whose lines already show the address (R195). -/
theorem writeWhole_eq (d : Byte) {p : State} {a : Nat} (hl : p.LinesIdle) (hpu : p.pulse = .off)
    (ha : shownAddress p = some a) :
    drive .ceN true (drive .weN true (delay .writePulse (drive .weN false (drive .ceN false
      (writeBus d (setMode .output p)))))) =
      played (writeEvents p.cfg d) { p with ddir := .output, dout := d, mem := storeCell p.mem a d } := by
  obtain ⟨h1, h2, h3⟩ := hl
  have e1 : setMode .output p = played [.mode .output] { p with ddir := .output } :=
    setMode_of_quiet .output (deviceAccepts_of_ce_high h1) (deviceDrives_of_ce_high h1)
  have e2 : writeBus d (setMode .output p) =
      played [.mode .output, .data d] { p with ddir := .output, dout := d } := by
    rw [e1, writeBus_output d rfl (by simp [deviceAccepts, h1]) (by simp [deviceDrives, h1])]
    exact played_played _ _ { p with ddir := .output, dout := d }
  have e3 : drive .ceN false (writeBus d (setMode .output p)) =
      played [.mode .output, .data d, .drive .ceN false] { p with ddir := .output, dout := d, ceN := .low } := by
    rw [e2, drive_of_quiet (by simp [deviceAccepts, h1]) (by simp [deviceAccepts, setPin, h3])
      (by simp [contended, deviceDrives, setPin, h2]), played_played]
    rfl
  have e4 : drive .weN false (drive .ceN false (writeBus d (setMode .output p))) =
      played [.mode .output, .data d, .drive .ceN false, .drive .weN false]
        { p with ddir := .output, dout := d, ceN := .low, weN := .low, pulse := .stable } := by
    rw [e3]
    refine (drive_we_opens (a := a) ?_ ?_ ?_ ?_).trans
      (played_played _ _ { p with ddir := .output, dout := d, ceN := .low, weN := .low, pulse := .stable })
    exacts [rfl, h3, rfl, ha]
  have e5 : delay .writePulse (drive .weN false (drive .ceN false (writeBus d (setMode .output p)))) =
      played [.mode .output, .data d, .drive .ceN false, .drive .weN false, .delay .writePulse p.cfg.tWP]
        { p with ddir := .output, dout := d, ceN := .low, weN := .low, pulse := .stable } := by
    rw [e4, delay, record_eq_played rfl rfl, played_played]
    rfl
  have e6 : drive .weN true (delay .writePulse (drive .weN false (drive .ceN false
      (writeBus d (setMode .output p))))) =
      played [.mode .output, .data d, .drive .ceN false, .drive .weN false, .delay .writePulse p.cfg.tWP,
        .drive .weN true]
        { p with ddir := .output, dout := d, ceN := .low, mem := storeCell p.mem a d } := by
    rw [e5]
    refine (drive_we_commits (a := a) ?_ ?_ ?_ ?_ ?_ ?_).trans ?_
    · rfl
    · rfl
    · exact h2
    · rfl
    · exact ha
    · rfl
    · rw [← h3, ← hpu]
      exact played_played _ _ { p with ddir := .output, dout := d, ceN := .low, mem := storeCell p.mem a d }
  rw [e6, drive_of_quiet (by simp [deviceAccepts, h3]) (by simp [deviceAccepts, setPin, h3])
    (by simp [contended, deviceDrives, setPin, h2]), played_played]
  simp only [setPin, levelOf_true, ← h1]
  rfl

/-- The write pulse commits exactly the operand's byte at the operand's address (R64, R195). -/
theorem writePulse_eq (a : Addr) (d : Byte) {s : State} (h : s.Ready) :
    writePulse a d s =
      played (writeEvents s.cfg d)
        { setAddress a s with ddir := .output, dout := d, mem := storeCell s.mem a.toNat d } := by
  have hP := Programmable.of_ready h
  have hr := ready_setAddress a h
  obtain ⟨hcfg, -, -, -, -, -, -, -, -, hmem, -⟩ := setAddress_frame a hP
  rw [writePulse, writeWhole_eq d hr.2.2.1 hr.1.2.2.2.2.2.1 (setAddress_shown a hP), ← hcfg, ← hmem]

/-- The state after the write part of `writeByte`, before any verification. -/
def writtenState (a : Addr) (d : Byte) (s : State) : State :=
  played (writeEvents s.cfg d ++ [.report (.byteWritten a d)])
    { setAddress a s with ddir := .output, dout := d, mem := storeCell s.mem a.toNat d }

theorem writeByte_eq (a : Addr) (d : Byte) {s : State} (h : s.Ready) :
    writeByte a d s = if s.cfg.verify then verifyByte a d (writtenState a d s) else writtenState a d s := by
  have hcfg := (setAddress_frame a (Programmable.of_ready h)).1
  have : (writtenState a d s).cfg = s.cfg := by
    rw [writtenState]
    generalize setAddress a s = p at *
    exact hcfg
  simp only [writeByte, writePulse_eq a d h, emit_eq_played, played_played]
  rw [← writtenState, this]

theorem ready_writtenState {s : State} (a : Addr) (d : Byte) (h : s.Ready) : (writtenState a d s).Ready := by
  have hr := ready_setAddress a h
  have hm := storeCell_keeps_wf s.mem a.toNat d a.isLt h.1.2.2.2.2.1
  rw [writtenState]
  generalize setAddress a s = p at *
  generalize storeCell s.mem a.toNat d = m at *
  obtain ⟨⟨hw, hs1, hs2, hp, -, hpu, hha⟩, hi, hl, hc⟩ := hr
  exact ⟨⟨hw, hs1, hs2, hp, hm, hpu, hha⟩, hi, hl, hc⟩

theorem memRead_congr {s t : State} (h1 : t.mem = s.mem) (h2 : t.memEpoch = s.memEpoch) (b : Nat) :
    memRead t b = memRead s b := by
  rw [memRead, memRead, h1, h2]

theorem writtenState_mem (a : Addr) (d : Byte) (s : State) :
    (writtenState a d s).mem = storeCell s.mem a.toNat d := by
  rw [writtenState]; generalize setAddress a s = p; rfl

theorem writtenState_memEpoch (a : Addr) (d : Byte) {s : State} (h : s.Ready) :
    (writtenState a d s).memEpoch = s.memEpoch := by
  obtain ⟨-, -, -, -, -, -, -, -, -, -, he, -⟩ := setAddress_frame a (Programmable.of_ready h)
  rw [writtenState]
  generalize setAddress a s = p at *
  exact he

theorem memRead_writtenState (a : Addr) (d : Byte) {s : State} (h : s.Ready) (b : Nat) :
    memRead (writtenState a d s) b = if b = a.toNat then d else memRead s b := by
  rw [memRead, writtenState_mem, writtenState_memEpoch a d h]
  by_cases hb : b = a.toNat
  · rw [if_pos hb, hb, lookupCell_storeCell_same]
  · rw [if_neg hb, lookupCell_storeCell_of_ne _ hb, memRead]

/-- With the ideal device of R65 the verification finds the byte just written, and only its read transaction is left
(R197). -/
theorem verifyByte_eq (a : Addr) (d : Byte) {s : State} (h : s.Ready) (hd : memRead s a.toNat = d) :
    verifyByte a d s = (readByte a s).2 := by
  have : (readByte a s).1 = d := by rw [readByte_eq a h]; exact hd
  simp only [verifyByte, this, if_true]

/-- A read transaction changes no cell (R198). -/
theorem readByte_mem (a : Addr) {s : State} (h : s.Ready) :
    (readByte a s).2.mem = s.mem ∧ (readByte a s).2.memEpoch = s.memEpoch := by
  obtain ⟨-, -, -, -, -, -, -, -, -, hm, he, -⟩ := setAddress_frame a (Programmable.of_ready h)
  rw [readByte_eq a h]
  generalize setAddress a s = p at *
  exact ⟨hm, he⟩

theorem memRead_written_self (a : Addr) (d : Byte) {s : State} (h : s.Ready) :
    memRead (writtenState a d s) a.toNat = d := by
  rw [memRead_writtenState a d h, if_pos rfl]

/-- `writeByte` as one equation: the written state, or the read transaction after it (R195, R197). -/
theorem writeByte_cases (a : Addr) (d : Byte) {s : State} (h : s.Ready) :
    writeByte a d s = if s.cfg.verify then (readByte a (writtenState a d s)).2 else writtenState a d s := by
  rw [writeByte_eq a d h, verifyByte_eq a d (ready_writtenState a d h) (memRead_written_self a d h)]

theorem ready_writeByte {s : State} (a : Addr) (d : Byte) (h : s.Ready) : (writeByte a d s).Ready := by
  rw [writeByte_cases a d h]
  split
  · exact ready_readByte a (ready_writtenState a d h)
  · exact ready_writtenState a d h

/-- What a byte write does to the memory, whatever `VERIFY` (R195). -/
theorem memRead_writeByte (a : Addr) (d : Byte) {s : State} (h : s.Ready) (b : Nat) :
    memRead (writeByte a d s) b = if b = a.toNat then d else memRead s b := by
  rw [writeByte_cases a d h, ← memRead_writtenState a d h b]
  split
  · obtain ⟨h1, h2⟩ := readByte_mem a (ready_writtenState a d h)
    exact memRead_congr h1 h2 b
  · rfl

/-! ### The byte transactions in closed form -/

/-- `AddressFrame` and the lines read the address registers only. -/
theorem addressLines_congr {s t : State} (h0 : t.cfg = s.cfg) (h1 : t.chain1 = s.chain1) (h2 : t.chain2 = s.chain2)
    (h3 : t.apinPins = s.apinPins) : addressLines t = addressLines s := by
  simp only [addressLines, h0, h1, h2, h3]

theorem shownAddress_congr {s t : State} (h0 : t.cfg = s.cfg) (h1 : t.chain1 = s.chain1) (h2 : t.chain2 = s.chain2)
    (h3 : t.apinPins = s.apinPins) : shownAddress t = shownAddress s := by
  rw [shownAddress, shownAddress, addressLines_congr h0 h1 h2 h3]

/-- `s` with the address registers of `p`. -/
def withRegisters (p s : State) : State :=
  { s with chain1 := p.chain1, chain2 := p.chain2, apin := p.apin, apinPins := p.apinPins }

/-- The events of `readByte(a)` that reads `v`, whose address change has the pin events `es` (R198, R207). -/
def readByteEvents (c : Cfg) (a : Addr) (v : Byte) (es : List Event) : List Event :=
  addressEventsWith c a es ++ readEvents c v ++ [.report (.byteRead a v)]

/-- `readByte` in closed form: `p` holds the address registers, `es` are the pin events of its address change (R198). -/
theorem readByte_closed (a : Addr) {s : State} (h : s.Ready) :
    ∃ p es, setAddress a s = p ∧ AddressSet a s p es ∧
      readByte a s = (memRead s a.toNat,
        played (readByteEvents s.cfg a (memRead s a.toNat) es) { withRegisters p s with ddir := .input }) := by
  obtain ⟨es, hp⟩ := setAddress_spec a (Programmable.of_ready h)
  refine ⟨_, es, rfl, hp, ?_⟩
  rw [readByte_eq a h]
  have he := hp.eq
  generalize setAddress a s = p at he ⊢
  congr 1
  conv_lhs => rw [he]
  simp [played, advanceBy_advanceBy, withRegisters, readByteEvents]

/-- `writtenState` in closed form (R195). -/
theorem writtenState_closed (a : Addr) (d : Byte) {s : State} (h : s.Ready) :
    ∃ p es, setAddress a s = p ∧ AddressSet a s p es ∧
      writtenState a d s =
        played (addressEventsWith s.cfg a es ++ writeEvents s.cfg d ++ [.report (.byteWritten a d)])
          { withRegisters p s with ddir := .output, dout := d, mem := storeCell s.mem a.toNat d } := by
  obtain ⟨es, hp⟩ := setAddress_spec a (Programmable.of_ready h)
  refine ⟨_, es, rfl, hp, ?_⟩
  rw [writtenState]
  have he := hp.eq
  generalize setAddress a s = p at he ⊢
  conv_lhs => rw [he]
  simp [played, advanceBy_advanceBy, withRegisters]

/-- The events of `writeByte(a, d)`: the write transaction, and with verification the read transaction; `es` and `es'` are
the pin events of their address changes (R195, R197, R207). -/
def writeByteEvents (c : Cfg) (a : Addr) (d : Byte) (es es' : List Event) : List Event :=
  addressEventsWith c a es ++ writeEvents c d ++ [.report (.byteWritten a d)] ++
    if c.verify then readByteEvents c a d es' else []

/-- `writeByte` in closed form (R195, R197): setting the same address again for the verification moves no register. -/
theorem writeByte_closed (a : Addr) (d : Byte) {s : State} (h : s.Ready) :
    ∃ p es es', setAddress a s = p ∧ AddressSet a s p es ∧ AddressEvents es' ∧ es'.length = addressCount s.cfg ∧
      writeByte a d s =
        played (writeByteEvents s.cfg a d es es')
          { withRegisters p s with
            ddir := if s.cfg.verify then .input else .output, dout := d, mem := storeCell s.mem a.toNat d } := by
  obtain ⟨p, es, hpe, hp, hw⟩ := writtenState_closed a d h
  have hwr := ready_writtenState a d h
  have hmr := memRead_written_self a d h
  rw [writeByte_cases a d h]
  generalize writtenState a d s = w at *
  obtain ⟨p', es', hpe', hp', hr⟩ := readByte_closed a hwr
  have hcw : w.cfg = s.cfg := by rw [hw]; rfl
  have hf : AddressFrame s w := by rw [hw]; exact hp.frame
  obtain ⟨e1, e2, e3, e4⟩ := hp.registers_eq hp' hcw hf
  refine ⟨p, es, es', hpe, hp, hp'.events, by rw [← hcw, ← hp'.count, hp'.events.pinEvents], ?_⟩
  cases hv : s.cfg.verify
  · rw [if_neg (by simp), hw]; simp [writeByteEvents, hv]
  · rw [if_pos rfl, hr, hmr, hcw]
    simp only [withRegisters, e1, e2, e3, e4]
    rw [hw]
    simp only [played, advanceBy_advanceBy, withRegisters, writeByteEvents, hv, if_true, pinEvents_append, reports_append,
      List.append_assoc, Nat.add_comm, Nat.add_left_comm]

/-! ### The records of the byte transactions -/

/-- The record of `readByte` (R198, R207). -/
theorem readByte_record {c : Cfg} {a : Addr} {es : List Event} (h : IsAddressRecord c a (addressEventsWith c a es)) (v : Byte) :
    IsReadRecord c a v (readByteEvents c a v es) :=
  ⟨_, h, rfl⟩

/-- The record of `writeByte` (R195, R197, R207). -/
theorem writeByte_record {c : Cfg} {a : Addr} {es es' : List Event} (h : IsAddressRecord c a (addressEventsWith c a es))
    (h1 : AddressEvents es') (h2 : es'.length = addressCount c) (d : Byte) :
    IsWriteRecord c a d (writeByteEvents c a d es es') := by
  refine ⟨_, _, h, rfl, ?_⟩
  split
  · exact readByte_record ⟨es', rfl, h2, h1⟩ d
  · rfl

end Sys2Proof.Machine
end

