-- ==== Sys2Proof/Laws/Commands.lean ====
section
/-!
SUPPORT. A command at a boundary: the checks pass, the body runs from a ready state, the response makes the block idle
again (10_state.md rule R30, 60_exceptions.md rule R251).
-/

namespace Sys2Proof.Machine

theorem okWord_eq (d : Byte) : okWord d = 0x80#8 ++ d := by
  revert d; decide +kernel

@[simp] theorem okWord_zero : okWord 0x00#8 = 0x8000#16 := by decide

/-- Taking a command changes `SEQ` only. -/
theorem ready_accept {s : State} (i : Instr) (h : s.Ready) : (accept i s).Ready := h

theorem valueError_of_init {i : Instr} {s : State} (hi : s.init = true) (hc : chainOperandOk s.cfg i = true)
    (hx : indexOperandOk s.cfg i = true) : valueError i s = none := by
  simp [valueError, hi, hc, hx]

/-- A command that no check refuses runs its body. -/
theorem perform_of_legal {i : Instr} {s : State} (body : State → State) (h : valueError i s = none) :
    perform i body s = finish (body (accept i s)) := by
  simp [perform, h]

/-- A run that met no hazard ends in its last state. -/
theorem finish_of_ready {s : State} (h : s.Ready) : finish s = .next s := by
  rw [finish, h.1.2.2.2.2.2.2]

/-- A response after a run from a boundary state (R30). -/
theorem atBoundary_respond {s : State} (d : Byte) (h : s.Ready) : (respond d s).AtBoundary :=
  ⟨h, rfl⟩

theorem ready_retireCounters {s : State} (h : s.Ready) : (retireCounters s).Ready := h

theorem ready_respond {s : State} (d : Byte) (h : s.Ready) : (respond d s).Ready := h

/-- The commands without a chain operand pass every check once `INIT = 1` (R253 to R255). -/
theorem perform_of_ready {i : Instr} {s : State} (body : State → State) (h : s.Ready)
    (hc : chainOperandOk s.cfg i = true) (hx : indexOperandOk s.cfg i = true) :
    perform i body s = finish (body (accept i s)) :=
  perform_of_legal body (valueError_of_init h.2.1 hc hx)

/-! ### A chain command at a boundary -/

theorem wf_banks {c : Cfg} (h : c.wf = true) (ch : ChainId) (he : chainExists c ch = true) : 1 ≤ banks c ch := by
  rcases wf_cases h with ⟨hb, -⟩ | ⟨hb, hk, hn, -⟩ | ⟨hb, hk, hk', h1, h2⟩ <;> cases ch <;>
    simp [chainExists, nchains, hb, chainNumber, banks] at he ⊢ <;> omega

/-- An existing chain of a ready block: its length and its consistency (R25, R288). -/
theorem ready_chain {s : State} (h : s.Ready) {c : ChainId} (he : chainExists s.cfg c = true) :
    chainShape (banks s.cfg c) (s.chain c) ∧ s.chain c = settledChain (s.chain c).mirror ∧ (s.chain c).mirror ≠ [] := by
  have hb := wf_banks h.1.1 c he
  have key : ∀ {n ch}, chainShape n ch → 1 ≤ n → chainConsistent ch →
      chainShape n ch ∧ ch = settledChain ch.mirror ∧ ch.mirror ≠ [] := fun h1 h2 h3 =>
    ⟨h1, (chainConsistent_iff _).1 h3, fun e => by have := h1.1; rw [e] at this; simp at this; omega⟩
  cases c
  · exact key h.1.2.1 hb (h.2.2.2.1 he)
  · exact key h.1.2.2.1 hb (h.2.2.2.2.1 he)

@[simp] theorem settledChain_mirror (m : List Byte) : (settledChain m).mirror = m := rfl

/-- A new mirror flushed out (R123, R131): the chain is as that mirror spells it. -/
theorem flush_new_mirror {s : State} (h : s.Ready) {c : ChainId} (he : chainExists s.cfg c = true) (m : List Byte)
    (hm : m.length = banks s.cfg c) :
    flush c (s.setChain c { s.chain c with mirror := m }) =
      (played (flushEvents c m) s).setChain c (settledChain m) := by
  obtain ⟨⟨h1, h2, h3⟩, h4, h5⟩ := ready_chain h he
  have hsck : (s.chain c).sck = .low := by rw [h4]; rfl
  have hne : m ≠ [] := by
    intro e
    have := wf_banks h.1.1 c he
    rw [e] at hm; simp at hm; omega
  rw [flush_eq c (by simpa using h.2.2.1.1) (by simpa using hsck) (by simpa using hne)
    (by simp only [chain_setChain]; rw [h2, hm])]
  simp only [chain_setChain, played_setChain, setChain_setChain]

theorem ready_settled {s : State} (h : s.Ready) {c : ChainId} (he : chainExists s.cfg c = true) {m : List Byte}
    (hm : m.length = banks s.cfg c) : (s.setChain c (settledChain m)).Ready := by
  obtain ⟨⟨h1, h2, h3, h4, h5, h6, h7⟩, hi, hl, hc1, hc2, hp⟩ := h
  cases c
  · exact ⟨⟨h1, chainShape_settled hm, h3, h4, h5, h6, h7⟩, hi, hl, fun _ => chainConsistent_settled m, hc2, hp⟩
  · exact ⟨⟨h1, h2, chainShape_settled hm, h4, h5, h6, h7⟩, hi, hl, hc1, fun _ => chainConsistent_settled m, hp⟩

/-- A chain command whose new mirror is `m`, from the boundary to its response (R126 to R129). -/
theorem respond_flush {s : State} (h : s.AtBoundary) (i : Instr) {c : ChainId} (he : chainExists s.cfg c = true)
    (m : List Byte) (hm : m.length = banks s.cfg c) :
    finish (respond 0x00#8 (flush c ((accept i s).setChain c { s.chain c with mirror := m }))) =
      .next (flushedAndAnswered c m s) := by
  obtain ⟨hr, hq⟩ := h
  have hch : (accept i s).chain c = s.chain c := by cases c <;> rfl
  rw [← hch, flush_new_mirror (ready_accept i hr) he m hm, finish_of_ready]
  · cases c <;> simp [respond, flushedAndAnswered, played, State.setChain, accept, hq]
  · exact ready_respond _ (ready_settled (s := played (flushEvents c m) (accept i s)) hr he hm)

/-! ### The byte transactions as commands -/

/-- `WRBYTE` runs `writeByte` and answers success (R195). -/
theorem exec_wrbyte (a : Addr) (d : Byte) {s : State} (h : s.Ready) :
    exec (.wrbyte a d) s = .next (respond 0x00#8 (writeByte a d (accept (.wrbyte a d) s))) := by
  simp only [exec, execWrbyte]
  rw [perform_of_ready _ h rfl rfl, finish_of_ready (ready_respond _ (ready_writeByte a d (ready_accept _ h)))]

/-- `RDBYTE` runs `readByte` and answers the cell's byte (R198). -/
theorem exec_rdbyte (a : Addr) {s : State} (h : s.Ready) :
    exec (.rdbyte a) s = .next (respond (memRead s a.toNat) (readByte a (accept (.rdbyte a) s)).2) := by
  have hr := ready_accept (.rdbyte a) h
  simp only [exec, execRdbyte]
  rw [perform_of_ready _ h rfl rfl, finish_of_ready (ready_respond _ (ready_readByte a hr)),
    show (readByte a (accept (.rdbyte a) s)).1 = memRead s a.toNat from congrArg Prod.fst (readByte_eq a hr)]

end Sys2Proof.Machine
end

