-- ==== Sys2Proof/Laws/Begin.lean ====
section
/-!
SUPPORT. What the steps of `BEGIN` do (43_memory_controller.md rules R191, R192), from any state in which the memory
device is not enabled.
-/

namespace Sys2Proof.Machine

/-- The first four steps: the control lines go high and the data bus to input mode. -/
theorem beginHead_eq {s : State} (h : s.ceN ≠ .low) :
    setMode .input (drive .weN true (drive .oeN true (drive .ceN true s))) =
      played [.drive .ceN true, .drive .oeN true, .drive .weN true, .mode .input]
        { s with ceN := .high, oeN := .high, weN := .high, ddir := .input } := by
  have h0 : deviceAccepts s = false := by simp [deviceAccepts, h]
  have e1 : drive .ceN true s = played [.drive .ceN true] { s with ceN := .high } :=
    drive_of_quiet h0 (deviceAccepts_of_ce_high rfl) (contended_of_not_drives (deviceDrives_of_ce_high rfl))
  rw [e1, drive_of_quiet (p := .oeN) (deviceAccepts_of_ce_high rfl) (deviceAccepts_of_ce_high rfl)
    (contended_of_not_drives (deviceDrives_of_ce_high rfl))]
  rw [drive_of_quiet (p := .weN) (deviceAccepts_of_ce_high rfl) (deviceAccepts_of_ce_high rfl)
    (contended_of_not_drives (deviceDrives_of_ce_high rfl))]
  rw [setMode_of_quiet .input (deviceAccepts_of_ce_high rfl) (deviceDrives_of_ce_high rfl)]
  simp [setPin, played, advanceBy_advanceBy, levelOf, pinEvents_cons, isDrive]

/-- One chain's part: its clock level, then the flush of its mirror, whatever the clock and the banks held (R131). -/
theorem beginChain_eq (c : ChainId) {q : State} {n : Nat} (h : q.ceN = .high) (hn : 1 ≤ n) (hs : chainShape n (q.chain c)) :
    flush c (drive (.sck c) false q) =
      (played (.drive (.sck c) false :: flushEvents c (q.chain c).mirror) q).setChain c
        (settledChain (q.chain c).mirror) := by
  have hm : (q.chain c).mirror ≠ [] := by
    intro e
    have := hs.1
    rw [e] at this; simp at this; omega
  have hsh : (driveClock false (q.chain c)).sh = (q.chain c).sh := by
    cases hk : (q.chain c).sck <;> simp [driveClock, hk]
  rw [drive_of_ce_high rfl false h]
  simp only [setPin, chain_played]
  rw [flush_eq c (by simpa using h) (by simp [driveClock, levelOf]) (by simpa [driveClock] using hm)
    (by rw [chain_setChain, hsh, hs.2.1]; simp [driveClock, hs.1])]
  simp only [chain_setChain, played_setChain, setChain_setChain, played_played]
  rfl

/-- The direct pins driven in some order: each takes its bit of the register, and the register stays. -/
theorem drivePins_eq (l : List (Fin 15)) {q : State} (h : q.ceN = .high) :
    l.foldl (fun s i => drive (.apin i) (s.apin.getLsbD i) s) q =
      played (l.map (fun i => .drive (.apin i) (q.apin.getLsbD i)))
        { q with apinPins := l.foldl (fun p (i : Fin 15) => p.set i (levelOf (q.apin.getLsbD i))) q.apinPins } := by
  induction l generalizing q with
  | nil => simp
  | cons i l ih =>
    rw [List.foldl_cons, drive_of_ce_high rfl _ h, ih (by simpa [setPin] using h)]
    simp [setPin, played, advanceBy_advanceBy, pinEvents_cons, isDrive]

theorem foldl_set_getElem? (a : Addr) (n : Nat) (hn : n ≤ 15) (p : List Level) (hp : p.length = 15) :
    (((List.finRange 15).take n).foldl (fun p (i : Fin 15) => p.set i (levelOf (a.getLsbD i))) p).length = 15 ∧
    ∀ j, (((List.finRange 15).take n).foldl (fun p (i : Fin 15) => p.set i (levelOf (a.getLsbD i))) p)[j]? =
      if j < n then some (levelOf (a.getLsbD j)) else p[j]? := by
  induction n with
  | zero => simp [hp]
  | succ n ih =>
    obtain ⟨h1, h2⟩ := ih (by omega)
    rw [List.take_add_one, List.getElem?_eq_getElem (by simpa using (by omega : n < 15))]
    simp only [Option.toList, List.foldl_append, List.foldl_cons, List.foldl_nil, List.length_set, List.getElem_finRange,
      Fin.val_cast]
    refine ⟨h1, fun j => ?_⟩
    rw [List.getElem?_set, h1, h2]
    by_cases hj : n = j
    · subst hj; simp; omega
    · have : j < n + 1 ↔ j < n := by omega
      simp [hj, this]

theorem foldl_set_all (a : Addr) (p : List Level) (hp : p.length = 15) :
    (List.finRange 15).foldl (fun p (i : Fin 15) => p.set i (levelOf (a.getLsbD i))) p = addressLevels a := by
  obtain ⟨h1, h2⟩ := foldl_set_getElem? a 15 (Nat.le_refl _) p hp
  rw [List.take_of_length_le (by simp)] at h1 h2
  apply List.ext_getElem?
  intro j
  rw [h2]
  by_cases hj : j < 15
  · rw [if_pos hj, getElem?_addressLevels a hj]
  · rw [if_neg hj, List.getElem?_eq_none (by omega), List.getElem?_eq_none (by simp; omega)]

theorem chainExists_cases {c : Cfg} : c.backend = .direct ∨ c.backend = .unsupplied →
    chainExists c .one = false ∧ chainExists c .two = false := by
  rintro (h | h) <;> simp [chainExists, nchains, h, chainNumber]

/-- The address part of `BEGIN` (R191): every existing chain as its mirror spells it, direct pins at the register. -/
theorem beginAddress_eq {q : State} (h : q.ceN = .high) (hw : q.cfg.wf = true) (h1 : chainShape q.cfg.n1 q.chain1)
    (h2 : chainShape q.cfg.n2 q.chain2) (hp : q.apinPins.length = 15) :
    beginAddress q =
      played (beginAddressEvents q)
        { q with
          chain1 := if chainExists q.cfg .one then settledChain q.chain1.mirror else q.chain1
          chain2 := if chainExists q.cfg .two then settledChain q.chain2.mirror else q.chain2
          apinPins := if q.cfg.backend = .direct then addressLevels q.apin else q.apinPins } := by
  rcases wf_cases hw with ⟨hb, -, -⟩ | ⟨hb, hk, hn, -⟩ | ⟨hb, hk, hk', hn1, hn2⟩
  · obtain ⟨e1, e2⟩ := chainExists_cases (.inl hb)
    simp only [beginAddress, beginAddressEvents, hb, e1, e2, drivePins_eq _ h, foldl_set_all _ _ hp]
    simp
  · have e1 : chainExists q.cfg .one = true := by simp [chainExists, nchains, hb, chainNumber]
    have e2 : chainExists q.cfg .two = false := by simp [chainExists, nchains, hb, chainNumber]
    simp only [beginAddress, beginAddressEvents, hb, e1, e2]
    rw [beginChain_eq .one h (by omega) h1]
    simp [State.setChain, State.chain, played]
  · have e1 : chainExists q.cfg .one = true := by simp [chainExists, nchains, hb, chainNumber]
    have e2 : chainExists q.cfg .two = true := by simp [chainExists, nchains, hb, chainNumber]
    simp only [beginAddress, beginAddressEvents, hb, e1, e2]
    rw [beginChain_eq .one h (by omega) h1, beginChain_eq .two (by simpa using h) (n := q.cfg.n2) (by omega) (by exact h2)]
    simp [State.setChain, State.chain, played, advanceBy_advanceBy, pinEvents_cons, Nat.add_assoc]

/-- The steps of `BEGIN` as one equation (R191, R192, R40). -/
theorem beginSteps_eq {s : State} (h : s.ceN ≠ .low) (hw : s.cfg.wf = true) (h1 : chainShape s.cfg.n1 s.chain1)
    (h2 : chainShape s.cfg.n2 s.chain2) (hp : s.apinPins.length = 15) :
    beginSteps s =
      played (beginEvents s)
        { s with
          init := true, ceN := .high, oeN := .high, weN := .high, ddir := .input
          chain1 := if chainExists s.cfg .one then settledChain s.chain1.mirror else s.chain1
          chain2 := if chainExists s.cfg .two then settledChain s.chain2.mirror else s.chain2
          apinPins := if s.cfg.backend = .direct then addressLevels s.apin else s.apinPins
          mem := if s.init then s.mem else []
          memEpoch := if s.init then s.memEpoch else s.memEpoch + 1 } := by
  have ha := beginAddress_eq (q := played [.drive .ceN true, .drive .oeN true, .drive .weN true, .mode .input]
      { s with ceN := .high, oeN := .high, weN := .high, ddir := .input }) rfl hw h1 h2 hp
  simp only [beginSteps]
  rw [beginHead_eq h, ha]
  have : beginAddressEvents (played [.drive .ceN true, .drive .oeN true, .drive .weN true, .mode .input]
      { s with ceN := .high, oeN := .high, weN := .high, ddir := .input }) = beginAddressEvents s := rfl
  rw [this]
  clear ha this
  cases hi : s.init <;>
    simp [played, beginEvents, forgetMemory, advanceBy_advanceBy, pinEvents_cons, Nat.add_assoc]

/-- No check refuses `BEGIN` (R253). -/
theorem valueError_begin (s : State) : valueError .begin s = none := by
  simp [valueError, needsInit, chainOperandOk, indexOperandOk]

/-- `BEGIN` leaves a ready block (R288, R290). -/
theorem ready_beginSteps {s : State} (hc : s.ceN ≠ .low) (h : s.Sound) : (beginSteps s).Ready := by
  obtain ⟨hw, hs1, hs2, hp, hm, hpu, hh⟩ := h
  rw [beginSteps_eq hc hw hs1 hs2 hp]
  refine ⟨⟨hw, ?_, ?_, ?_, ?_, hpu, hh⟩, rfl, ⟨rfl, rfl, rfl⟩, ?_, ?_, ?_⟩
  · show chainShape s.cfg.n1 (if _ then _ else _)
    split
    · exact chainShape_settled hs1.1
    · exact hs1
  · show chainShape s.cfg.n2 (if _ then _ else _)
    split
    · exact chainShape_settled hs2.1
    · exact hs2
  · show (if _ then _ else _ : List Level).length = 15
    split
    · simp
    · exact hp
  · show Memory.wf (if _ then _ else _) = true
    split
    · exact hm
    · rfl
  · intro he
    show chainConsistent (if _ then _ else _)
    rw [if_pos (show chainExists s.cfg .one = true from he)]
    exact chainConsistent_settled _
  · intro he
    show chainConsistent (if _ then _ else _)
    rw [if_pos (show chainExists s.cfg .two = true from he)]
    exact chainConsistent_settled _
  · intro he
    show (if _ then _ else _) = _
    rw [if_pos (show s.cfg.backend = .direct from he)]
    rfl

end Sys2Proof.Machine
end

