-- ==== Sys2Proof/Laws/Blocks.lean ====
section
/-!
SUPPORT. The block loops (43_memory_controller.md rules R204 to R206): what `n` turns of the `WRBLK` loop and of the `RDBLK`
loop do to a ready block.
-/

namespace Sys2Proof.Machine

/-! ### Addresses of a block -/

theorem toNat_nextAddr (a : Addr) : (nextAddr a).toNat = (a.toNat + 1) % 32768 := by
  simp [nextAddr, BitVec.toNat_add]

/-- The address `n` steps on (R204). -/
def stepAddr (a : Addr) (n : Nat) : Addr := BitVec.ofNat 15 (a.toNat + n)

theorem toNat_stepAddr (a : Addr) (n : Nat) : (stepAddr a n).toNat = (a.toNat + n) % 32768 := by
  simp [stepAddr, BitVec.toNat_ofNat]

@[simp] theorem stepAddr_zero (a : Addr) : stepAddr a 0 = a := by
  apply BitVec.eq_of_toNat_eq
  rw [toNat_stepAddr]; have := a.isLt; omega

theorem stepAddr_nextAddr (a : Addr) (n : Nat) : stepAddr (nextAddr a) n = stepAddr a (n + 1) := by
  apply BitVec.eq_of_toNat_eq
  rw [toNat_stepAddr, toNat_stepAddr, toNat_nextAddr]; omega

/-- The byte that a payload written from `ba` on leaves at address `a`: the last one that lands there, else `old`
(R205). -/
def blockByte (ba : Addr) (payload : List Byte) (a : Nat) (old : Byte) : Byte :=
  match payload with
  | [] => old
  | d :: rest => blockByte (nextAddr ba) rest a (if a = ba.toNat then d else old)

/-- An address on which no byte lands keeps its byte. -/
theorem blockByte_of_missed (ba : Addr) (payload : List Byte) (a : Nat) (old : Byte)
    (h : ∀ j, j < payload.length → (ba.toNat + j) % 32768 ≠ a) : blockByte ba payload a old = old := by
  induction payload generalizing ba old with
  | nil => rfl
  | cons d rest ih =>
    have h0 := h 0 (by simp)
    have hlt := ba.isLt
    rw [blockByte, ih, if_neg]
    · intro e; apply h0; omega
    · intro j hj
      have := h (j + 1) (by simpa using hj)
      rw [toNat_nextAddr]; intro e; apply this; omega

/-- The last byte that lands on an address stays there. -/
theorem blockByte_of_last (ba : Addr) (payload : List Byte) (old : Byte) (j : Nat) (hj : j < payload.length)
    (h : ∀ j', j < j' → j' < payload.length → (ba.toNat + j') % 32768 ≠ (ba.toNat + j) % 32768) :
    some (blockByte ba payload ((ba.toNat + j) % 32768) old) = payload[j]? := by
  induction payload generalizing ba old j with
  | nil => simp at hj
  | cons d rest ih =>
    have hlt := ba.isLt
    cases j with
    | zero =>
      rw [blockByte, blockByte_of_missed]
      · rw [if_pos (by omega)]; simp
      · intro j' hj' e
        apply h (j' + 1) (by omega) (by simpa using hj')
        rw [toNat_nextAddr] at e; omega
    | succ j =>
      have := ih (nextAddr ba) (if (ba.toNat + (j + 1)) % 32768 = ba.toNat then d else old) j (by simpa using hj) (by
        intro j' h1 h2 e
        apply h (j' + 1) (by omega) (by simpa using h2)
        rw [toNat_nextAddr] at e; omega)
      have e : ((nextAddr ba).toNat + j) % 32768 = (ba.toNat + (j + 1)) % 32768 := by rw [toNat_nextAddr]; omega
      rw [e] at this
      rw [blockByte, this]; simp

/-! ### `WRBLK` -/

/-- Everything that the turns which write `payload` from `ba` on do, with the events `es` (R195, R203 to R205, R207). -/
structure BlockWritten (ba : Addr) (payload : List Byte) (s t : State) (es : List Event) : Prop where
  eq : t = { s with
    chain1 := t.chain1, chain2 := t.chain2, apin := t.apin, apinPins := t.apinPins, mem := t.mem
    ddir := if payload = [] then s.ddir else if s.cfg.verify then .input else .output
    dout := payload.getLast?.getD s.dout
    seq := t.seq, counters := t.counters, wd := t.wd, diag := s.diag ++ reports es, trace := s.trace ++ es }
  ready : t.Ready
  frame : AddressFrame s t
  cells : ∀ a, memRead t a = blockByte ba payload a (memRead s a)
  shown : payload ≠ [] → shownAddress t = some ((ba.toNat + payload.length - 1) % 32768)
  busy : ∀ i p, s.seq = .busy i p → ∃ p', t.seq = .busy i p'
  record : IsBlockWriteRecord s.cfg ba payload es
  unchanged : payload = [] → t = s

theorem BlockWritten.nil (ba : Addr) {s : State} (h : s.Ready) : BlockWritten ba [] s s [] where
  eq := by simp
  ready := h
  frame := AddressFrame.refl s
  cells := fun _ => rfl
  shown := fun h => absurd rfl h
  busy := fun _ p hp => ⟨p, hp⟩
  record := rfl
  unchanged := fun _ => rfl

theorem BlockWritten.cfg {ba : Addr} {payload : List Byte} {s t : State} {es : List Event}
    (h : BlockWritten ba payload s t es) : t.cfg = s.cfg := by
  rw [h.eq]

/-- One turn of the loop (R195, R205). -/
theorem blockWritten_turn (ba : Addr) (d : Byte) (rest : List Byte) (n : BlockCounters) {s : State} (h : s.Ready) :
    ∃ x, IsWriteRecord s.cfg ba d x ∧
      BlockWritten ba [d] s (writeByte ba d (takePayload d rest n s)) (.take d :: x) ∧
      (writeByte ba d (takePayload d rest n s)).wd = rest := by
  have h' : (takePayload d rest n s).Ready := h
  have hr := ready_writeByte ba d h'
  have hm := memRead_writeByte ba d h'
  obtain ⟨p, es, es', -, hp, hae, hal, hc⟩ := writeByte_closed ba d h'
  have hrec := writeByte_record hp.record hae hal d
  generalize writeByte ba d (takePayload d rest n s) = w at *
  refine ⟨_, hrec, ⟨?_, hr, ?_, ?_, fun _ => ?_, fun i q hq => ?_, ⟨_, [], (List.append_nil _).symm, hrec, rfl⟩,
    fun h => by simp at h⟩, by rw [hc]; rfl⟩
  · rw [hc]; simp [played, withRegisters]; rfl
  · rw [hc]; exact hp.frame
  · intro a; exact hm a
  · have : shownAddress p = some ba.toNat := by rw [shownAddress, hp.lines, lineValue_addressLevels]
    have hlt := ba.isLt
    rw [show (ba.toNat + [d].length - 1) % 32768 = ba.toNat by simp; omega, ← this, hc]
    exact shownAddress_congr hp.cfg.symm rfl rfl rfl
  · rw [hc]
    simp [played, withRegisters, hq, advanceBy]

/-- A turn followed by the rest. -/
theorem BlockWritten.cons {ba : Addr} {d : Byte} {rest : List Byte} {s t u : State} {x y : List Event}
    (hx : IsWriteRecord s.cfg ba d x) (h1 : BlockWritten ba [d] s t (.take d :: x))
    (h2 : BlockWritten (nextAddr ba) rest t u y) : BlockWritten ba (d :: rest) s u (.take d :: x ++ y) where
  eq := by
    have e1 := h1.eq
    have e2 := h2.eq
    conv_lhs => rw [e2, e1]
    cases rest <;> simp [List.getLast?_cons]
  ready := h2.ready
  frame := h1.frame.trans h1.cfg h2.frame
  cells := fun a => by rw [h2.cells, h1.cells]; rfl
  shown := fun _ => by
    by_cases hr : rest = []
    · rw [h2.unchanged hr, h1.shown (by simp), hr]
    · rw [h2.shown hr, toNat_nextAddr]
      have : 0 < rest.length := List.length_pos_iff.2 hr
      have hlt := ba.isLt
      simp only [List.length_cons]
      congr 1; omega
  busy := fun i p hp => by
    obtain ⟨p', h⟩ := h1.busy i p hp
    exact h2.busy i p' h
  record := ⟨x, y, rfl, hx, h1.cfg ▸ h2.record⟩
  unchanged := fun h => by simp at h

/-- The first turns of the `WRBLK` loop, for payload that has come (R205). -/
theorem writeBlock_turns (payload later : List Byte) (ba : Addr) (n : Nat) {s : State} (h : s.Ready)
    (hw : s.wd = payload ++ later) :
    ∃ t es, BlockWritten ba payload s t es ∧ t.wd = later ∧
      writeBlock ba (payload.length + n) s = writeBlock (stepAddr ba payload.length) n t := by
  induction payload generalizing ba s with
  | nil => exact ⟨s, [], .nil ba h, hw, by simp⟩
  | cons d rest ih =>
    obtain ⟨x, hx, h1, h2⟩ := blockWritten_turn ba d (rest ++ later) (blockCounters ba (rest.length + n + 1)) h
    obtain ⟨t, y, h3, h4, h5⟩ := ih (nextAddr ba) h1.ready h2
    refine ⟨t, _, .cons hx h1 h3, h4, ?_⟩
    rw [stepAddr_nextAddr] at h5
    rw [List.length_cons, ← h5, show rest.length + 1 + n = rest.length + n + 1 by omega]
    simp only [writeBlock, hw, List.cons_append]

/-- `WRBLK` whose payload has come (R205). -/
theorem exec_wrblk_full (a : Addr) (n : Len) {s : State} (h : s.Ready) (hn : n.toNat ≤ s.wd.length) :
    ∃ t es, BlockWritten a (s.wd.take n.toNat) (accept (.wrblk a n) s) t es ∧ t.wd = s.wd.drop n.toNat ∧
      exec (.wrblk a n) s = .next (respond 0x00#8 (retireCounters t)) := by
  obtain ⟨t, es, h1, h2, h3⟩ :=
    writeBlock_turns (s.wd.take n.toNat) (s.wd.drop n.toNat) a 0 (ready_accept (.wrblk a n) h) (by simp)
  refine ⟨t, es, h1, h2, ?_⟩
  simp only [exec, execWrblk]
  rw [List.length_take, Nat.min_eq_left hn, Nat.add_zero] at h3
  rw [perform_of_ready _ h rfl rfl, h3]
  exact finish_of_ready (ready_respond _ (ready_retireCounters h1.ready))

/-- `WRBLK` whose payload has not all come (R97, R205). -/
theorem exec_wrblk_dry (a : Addr) (n : Len) {s : State} (h : s.Ready) (hn : s.wd.length < n.toNat) :
    ∃ t es, BlockWritten a s.wd (accept (.wrblk a n) s) t es ∧ t.wd = [] ∧
      exec (.wrblk a n) s =
        .next { t with counters := blockCounters (stepAddr a s.wd.length) (n.toNat - s.wd.length) } := by
  obtain ⟨t, es, h1, h2, h3⟩ := writeBlock_turns s.wd [] a (n.toNat - s.wd.length) (ready_accept (.wrblk a n) h) (by simp)
  refine ⟨t, es, h1, h2, ?_⟩
  obtain ⟨m, hm⟩ : ∃ m, n.toNat - s.wd.length = m + 1 := ⟨n.toNat - s.wd.length - 1, by omega⟩
  simp only [exec, execWrblk]
  rw [show s.wd.length + (n.toNat - s.wd.length) = n.toNat by omega] at h3
  rw [perform_of_ready _ h rfl rfl, h3, hm, writeBlock, h2]
  exact finish_of_ready h1.ready

/-! ### `RDBLK` -/

/-- The bytes that `n` cells from `ba` on hold, in order (R204, R206). -/
def blockBytes (ba : Addr) (n : Nat) (s : State) : List Byte :=
  (List.range n).map (fun j => memRead s ((ba.toNat + j) % 32768))

theorem blockBytes_succ (ba : Addr) (n : Nat) (s : State) :
    blockBytes ba (n + 1) s = memRead s ba.toNat :: blockBytes (nextAddr ba) n s := by
  simp only [blockBytes, List.range_succ_eq_map, List.map_cons, List.map_map, Nat.add_zero, Nat.mod_eq_of_lt ba.isLt]
  congr 2
  funext j
  simp only [Function.comp, toNat_nextAddr]
  congr 1; omega

/-- Everything that `n` turns of the `RDBLK` loop from `ba` on do, with the events `es` (R198, R203, R204, R206, R207). -/
structure BlockRead (ba : Addr) (n : Nat) (s t : State) (es : List Event) : Prop where
  eq : t = { s with
    chain1 := t.chain1, chain2 := t.chain2, apin := t.apin, apinPins := t.apinPins
    ddir := if n = 0 then s.ddir else .input
    rd := s.rd ++ blockBytes ba n s
    seq := t.seq, counters := t.counters, diag := s.diag ++ reports es, trace := s.trace ++ es }
  ready : t.Ready
  frame : AddressFrame s t
  shown : n ≠ 0 → shownAddress t = some ((ba.toNat + n - 1) % 32768)
  record : IsBlockReadRecord s.cfg ba (blockBytes ba n s) es
  unchanged : n = 0 → t = s

theorem BlockRead.cfg {ba : Addr} {n : Nat} {s t : State} {es : List Event} (h : BlockRead ba n s t es) :
    t.cfg = s.cfg := by
  rw [h.eq]

theorem BlockRead.memRead_eq {ba : Addr} {n : Nat} {s t : State} {es : List Event} (h : BlockRead ba n s t es) (a : Nat) :
    memRead t a = memRead s a := by
  rw [h.eq]; rfl

/-- One turn of the loop (R198, R206). -/
theorem blockRead_turn (ba : Addr) (n : BlockCounters) {s : State} (h : s.Ready) :
    ∃ x, IsReadRecord s.cfg ba (memRead s ba.toNat) x ∧
      BlockRead ba 1 s (givePayload (readByte ba { s with counters := n }).1 (readByte ba { s with counters := n }).2)
        (x ++ [.give (memRead s ba.toNat)]) := by
  have h' : ({ s with counters := n } : State).Ready := h
  have hr := ready_readByte ba h'
  obtain ⟨p, es, -, hp, hc⟩ := readByte_closed ba h'
  have hrec := readByte_record hp.record (memRead s ba.toNat)
  generalize readByte ba { s with counters := n } = w at *
  have hlt := ba.isLt
  have e : memRead { s with counters := n } ba.toNat = memRead s ba.toNat := rfl
  have hb : blockBytes ba 1 s = [memRead s ba.toNat] := by rw [blockBytes_succ]; rfl
  refine ⟨_, hrec, ?_, hr, ?_, fun _ => ?_, ?_, fun h => by simp at h⟩
  · rw [hc, e, hb]
    simp [played, withRegisters, givePayload, record]
  · rw [hc]; exact hp.frame
  · have : shownAddress p = some ba.toNat := by rw [shownAddress, hp.lines, lineValue_addressLevels]
    rw [show (ba.toNat + 1 - 1) % 32768 = ba.toNat by omega, ← this, hc]
    exact shownAddress_congr hp.cfg.symm rfl rfl rfl
  · rw [hb]
    exact ⟨_, [], rfl, hrec, rfl⟩

theorem BlockRead.cons {ba : Addr} {n : Nat} {s t u : State} {x y : List Event}
    (hx : IsReadRecord s.cfg ba (memRead s ba.toNat) x) (h1 : BlockRead ba 1 s t (x ++ [.give (memRead s ba.toNat)]))
    (h2 : BlockRead (nextAddr ba) n t u y) : BlockRead ba (n + 1) s u (x ++ .give (memRead s ba.toNat) :: y) := by
  have hb : blockBytes (nextAddr ba) n t = blockBytes (nextAddr ba) n s := by simp only [blockBytes, h1.memRead_eq]
  have h0 : blockBytes ba 1 s = [memRead s ba.toNat] := by rw [blockBytes_succ]; rfl
  refine ⟨?_, h2.ready, h1.frame.trans h1.cfg h2.frame, fun _ => ?_, ?_, fun h => by omega⟩
  · have e1 := h1.eq
    have e2 := h2.eq
    rw [hb] at e2
    rw [h0] at e1
    rw [blockBytes_succ]
    generalize blockBytes (nextAddr ba) n s = l at *
    conv_lhs => rw [e2, e1]
    simp
  · by_cases hn : n = 0
    · rw [h2.unchanged hn, h1.shown (by simp), hn]
    · rw [h2.shown hn, toNat_nextAddr]
      have hlt := ba.isLt
      congr 1; omega
  · rw [blockBytes_succ]
    have := h2.record
    rw [hb, h1.cfg] at this
    exact ⟨x, y, rfl, hx, this⟩

/-- The whole `RDBLK` loop (R206). -/
theorem readBlock_spec (n : Nat) (ba : Addr) {s : State} (h : s.Ready) :
    ∃ t es, BlockRead ba n s t es ∧ readBlock ba n s = respond 0x00#8 (retireCounters t) := by
  induction n generalizing ba s with
  | zero => exact ⟨s, [], ⟨by simp [blockBytes], h, AddressFrame.refl s, fun h => absurd rfl h, rfl, fun _ => rfl⟩, rfl⟩
  | succ n ih =>
    obtain ⟨x, hx, h1⟩ := blockRead_turn ba (blockCounters ba (n + 1)) h
    obtain ⟨t, y, h2, h3⟩ := ih (nextAddr ba) h1.ready
    exact ⟨t, _, .cons hx h1 h2, h3⟩

/-- `RDBLK` (R206). -/
theorem exec_rdblk (a : Addr) (n : Len) {s : State} (h : s.Ready) :
    ∃ t es, BlockRead a n.toNat (accept (.rdblk a n) s) t es ∧
      exec (.rdblk a n) s = .next (respond 0x00#8 (retireCounters t)) := by
  obtain ⟨t, es, ht, hb⟩ := readBlock_spec n.toNat a (ready_accept (.rdblk a n) h)
  refine ⟨t, es, ht, ?_⟩
  simp only [exec, execRdblk]
  rw [perform_of_ready _ h rfl rfl, hb]
  exact finish_of_ready (ready_respond _ (ready_retireCounters ht.ready))

end Sys2Proof.Machine
end

