-- ==== Sys2Proof/Laws/Channels.lean ====
section
/-!
SUPPORT. No procedure of the block reads `SEQ`, the block counters, the payload port or the event record (10_state.md rules
R11, R30, R31): they may be changed before or after it, with the same result.
-/

namespace Sys2Proof.Machine

/-- `s` with another `SEQ`, other counters, another payload and another record. -/
def swapControl (q : Seq) (n : BlockCounters) (w : List Byte) (r : List Event) (s : State) : State :=
  { s with seq := q, counters := n, wd := w, trace := r }

@[simp] theorem swapControl_swapControl (q q' : Seq) (n n' : BlockCounters) (w w' : List Byte) (r r' : List Event)
    (s : State) : swapControl q n w r (swapControl q' n' w' r' s) = swapControl q n w r s := rfl

@[simp] theorem swapControl_self (s : State) : swapControl s.seq s.counters s.wd s.trace s = s := rfl

/-- The procedure reads none of the four: it moves `SEQ` on and the record by as much, and does the same to the rest. -/
def Unobserving (f : State → State) : Prop :=
  ∀ s, ∃ k es, ∀ q n w r, f (swapControl q n w r s) = swapControl (advanceBy k q) n w (r ++ es) (f s)

theorem Unobserving.comp {f g : State → State} (hf : Unobserving f) (hg : Unobserving g) :
    Unobserving (fun s => f (g s)) := by
  intro s
  obtain ⟨k, x, hk⟩ := hg s
  obtain ⟨m, y, hm⟩ := hf (g s)
  exact ⟨k + m, x ++ y, fun q n w r => by simp only [hk, hm, advanceBy_advanceBy, List.append_assoc]⟩

theorem Unobserving.congr {f g : State → State} (hf : Unobserving f) (h : ∀ s, g s = f s) : Unobserving g :=
  (funext h : g = f) ▸ hf

theorem Unobserving.foldl {α : Type} {f : State → α → State} (hf : ∀ x, Unobserving (fun s => f s x)) (l : List α) :
    Unobserving (fun s => l.foldl f s) := by
  induction l with
  | nil => exact fun s => ⟨0, [], fun q n w r => by simp⟩
  | cons x l ih => exact ih.comp (hf x)

/-- What an unobserving procedure does, from its result without the change. -/
theorem Unobserving.eq {f : State → State} (hf : Unobserving f) (s : State) :
    ∃ k es, (f s).seq = advanceBy k s.seq ∧ (f s).counters = s.counters ∧ (f s).wd = s.wd ∧
      (f s).trace = s.trace ++ es ∧
      ∀ q n w r, f (swapControl q n w r s) = swapControl (advanceBy k q) n w (r ++ es) (f s) := by
  obtain ⟨k, es, hk⟩ := hf s
  have h : f s = swapControl (advanceBy k s.seq) s.counters s.wd (s.trace ++ es) (f s) :=
    hk s.seq s.counters s.wd s.trace
  exact ⟨k, es, (congrArg State.seq h).trans rfl, (congrArg State.counters h).trans rfl, (congrArg State.wd h).trans rfl,
    (congrArg State.trace h).trans rfl, hk⟩

theorem react_swapControl (q q' : Seq) (n : BlockCounters) (w : List Byte) (r r' : List Event)
    (b s : State) :
    react (swapControl q n w r b) (swapControl q' n w r' s) = swapControl q' n w r' (react b s) := by
  have note : ∀ (h : Hazard) (t : State), noteHazard h (swapControl q' n w r' t) = swapControl q' n w r' (noteHazard h t) := by
    intro h t
    simp only [noteHazard]
    cases hz : t.hazard <;> simp [swapControl, hz]
  have key : reactWrite (swapControl q n w r b) (swapControl q' n w r' s) = swapControl q' n w r' (reactWrite b s) := by
    have h1 : deviceAccepts (swapControl q n w r b) = deviceAccepts b := rfl
    have h2 : deviceAccepts (swapControl q' n w r' s) = deviceAccepts s := rfl
    simp only [reactWrite, h1, h2]
    cases deviceAccepts b <;> cases deviceAccepts s
    · rfl
    · rfl
    · simp only [commitPulse]
      have e1 : (swapControl q n w r b).pulse = b.pulse := rfl
      have e2 : shownAddress (swapControl q n w r b) = shownAddress b := rfl
      have e3 : dataLines (swapControl q n w r b) = dataLines b := rfl
      rw [e1, e2, e3]
      split
      · rfl
      · exact note _ { s with pulse := .off }
    · have e1 : addressLines (swapControl q n w r b) = addressLines b := rfl
      have e2 : addressLines (swapControl q' n w r' s) = addressLines s := rfl
      have e3 : (swapControl q' n w r' s).ddir = s.ddir ∧ (swapControl q' n w r' s).dout = s.dout := ⟨rfl, rfl⟩
      have e4 : (swapControl q n w r b).ddir = b.ddir ∧ (swapControl q n w r b).dout = b.dout := ⟨rfl, rfl⟩
      simp only [watchPulse, e1, e2, e3.1, e3.2, e4.1, e4.2]
      by_cases hz : addressLines s = addressLines b ∧ s.ddir = b.ddir ∧ s.dout = b.dout
      · rw [if_pos hz, if_pos hz]
      · rw [if_neg hz, if_neg hz]; rfl
  simp only [react, key]
  have hc : contended (swapControl q' n w r' (reactWrite b s)) = contended (reactWrite b s) := rfl
  rw [hc]
  split
  · exact note _ _
  · rfl

theorem setPin_swapControl (p : Pin) (l : Bool) (q : Seq) (n : BlockCounters) (w : List Byte) (r : List Event) (s : State) :
    setPin p l (swapControl q n w r s) = swapControl q n w r (setPin p l s) := by
  cases p with
  | ser c => cases c <;> rfl
  | sck c => cases c <;> rfl
  | lat c => cases c <;> rfl
  | _ => rfl

theorem unobserving_drive (p : Pin) (l : Bool) : Unobserving (drive p l) := fun s => ⟨1, [.drive p l], fun q n w r => by
  have h : ({ record (.drive p l) (swapControl q n w r s) with seq := advance (swapControl q n w r s).seq } : State) =
      swapControl (advanceBy 1 q) n w (r ++ [.drive p l]) { record (.drive p l) s with seq := advance s.seq } := by
    rw [← advance_eq]; rfl
  rw [drive, h, setPin_swapControl, react_swapControl]
  rfl⟩

theorem unobserving_setMode (d : Dir) : Unobserving (setMode d) := fun s => ⟨0, [.mode d], fun q n w r => by
  rw [advanceBy_zero]
  exact react_swapControl q q n w r _ s { record (.mode d) s with ddir := d }⟩

theorem unobserving_writeBus (b : Byte) : Unobserving (writeBus b) := fun s => ⟨0, [.data b], fun q n w r => by
  rw [advanceBy_zero]
  simp only [writeBus]
  have e : (swapControl q n w r s).ddir = s.ddir := rfl
  rw [e]
  cases s.ddir
  · rfl
  · exact react_swapControl q q n w r _ s { record (.data b) s with dout := b }⟩

theorem readBus_swapControl (s : State) :
    ∃ es, ∀ q n w r, readBus (swapControl q n w r s) = ((readBus s).1, swapControl q n w (r ++ es) (readBus s).2) := by
  refine ⟨sampleEvents (readBus s).1, fun q n w r => ?_⟩
  simp only [readBus]
  have e1 : (swapControl q n w r s).ddir = s.ddir := rfl
  have e2 : dataLines (swapControl q n w r s) = dataLines s := rfl
  rw [e1, e2]
  split <;> rfl

theorem unobserving_emit (d : Diag) : Unobserving (emit d) :=
  fun _ => ⟨0, [.report d], fun q n w r => by rw [advanceBy_zero]; rfl⟩

theorem unobserving_delay (d : Delay) : Unobserving (delay d) :=
  fun s => ⟨0, (delay d { s with trace := [] }).trace, fun q n w r => by rw [advanceBy_zero]; cases d <;> rfl⟩

theorem unobserving_flush (c : ChainId) : Unobserving (flush c) := by
  intro s
  have hs : ∀ bits : List Bool, Unobserving (fun s => drive (.lat c) true (bits.foldl (sendBit c) (drive (.lat c) false s))) :=
    fun bits => (unobserving_drive (.lat c) true).comp ((Unobserving.foldl (f := sendBit c) (fun b =>
      (unobserving_drive (.sck c) false).comp ((unobserving_drive (.sck c) true).comp (unobserving_drive (.ser c) b)))
      bits).comp (unobserving_drive (.lat c) false))
  obtain ⟨k, es, hk⟩ := hs (serialStream (s.chain c).mirror) s
  beta_reduce at hk
  refine ⟨k, es, fun q n w r => ?_⟩
  have : (swapControl q n w r s).chain c = s.chain c := by cases c <;> rfl
  rw [flush, this, hk]
  rfl

theorem unobserving_writeMirrorBit (c : ChainId) (i : Nat) (v : Bool) : Unobserving (writeMirrorBit c i v) :=
  fun s => ⟨0, [], fun q n w r => by rw [advanceBy_zero, List.append_nil]; cases c <;> rfl⟩

theorem unobserving_programBit (a : Addr) (i : Fin 15) : Unobserving (fun s => programBit a s i) := by
  intro s
  have e : ∀ q n w r, (swapControl q n w r s).cfg = s.cfg := fun _ _ _ _ => rfl
  have mirror : ∀ c j, Unobserving (fun s => flush c (writeMirrorBit c j (a.getLsbD i) s)) := fun c j =>
    (unobserving_flush c).comp (unobserving_writeMirrorBit c j (a.getLsbD i))
  cases hb : s.cfg.backend with
  | direct =>
    obtain ⟨k, es, hk⟩ := unobserving_drive (.apin i) (a.getLsbD i) { s with apin := putBit s.apin i (a.getLsbD i) }
    refine ⟨k, es, fun q n w r => ?_⟩
    simp only [programBit, e, hb]
    exact hk q n w r
  | chain1 =>
    obtain ⟨k, es, hk⟩ := mirror .one i s
    refine ⟨k, es, fun q n w r => ?_⟩
    simp only [programBit, e, hb]
    exact hk q n w r
  | chain2 =>
    by_cases hi : i.val < s.cfg.k
    · obtain ⟨k, es, hk⟩ := mirror .one i s
      refine ⟨k, es, fun q n w r => ?_⟩
      simp only [programBit, e, hb, if_pos hi]
      exact hk q n w r
    · obtain ⟨k, es, hk⟩ := mirror .two (i.val - s.cfg.k) s
      refine ⟨k, es, fun q n w r => ?_⟩
      simp only [programBit, e, hb, if_neg hi]
      exact hk q n w r
  | unsupplied => exact ⟨0, [], fun q n w r => by simp only [programBit, e, hb, advanceBy_zero, List.append_nil]⟩

theorem unobserving_setAddress (a : Addr) : Unobserving (setAddress a) := by
  have h1 := Unobserving.foldl (f := programBit a) (unobserving_programBit a) ((List.finRange 15).take 15)
  have h2 := (unobserving_emit (.addrSet a)).comp ((unobserving_delay .addressSettle).comp h1)
  exact h2.congr fun s => by simp only [setAddress, programBits]

/-- The byte that `readByte` gives and the state after it (R198). -/
theorem readByte_swapControl (a : Addr) (s : State) :
    ∃ k es, ∀ q n w r, readByte a (swapControl q n w r s) =
      ((readByte a s).1, swapControl (advanceBy k q) n w (r ++ es) (readByte a s).2) := by
  obtain ⟨k, es, hk⟩ := (unobserving_delay .readHold).comp ((unobserving_drive .oeN false).comp
    ((unobserving_drive .ceN false).comp ((unobserving_setMode .input).comp (unobserving_setAddress a)))) s
  beta_reduce at hk
  simp only [readByte]
  obtain ⟨es1, h1⟩ := readBus_swapControl
    (delay .readHold (drive .oeN false (drive .ceN false (setMode .input (setAddress a s)))))
  generalize readBus (delay .readHold (drive .oeN false (drive .ceN false (setMode .input (setAddress a s))))) = x at h1 ⊢
  obtain ⟨m, es2, hm⟩ := (unobserving_emit (.byteRead a x.1)).comp ((unobserving_drive .ceN true).comp
    (unobserving_drive .oeN true)) x.2
  beta_reduce at hm
  refine ⟨k + m, es ++ es1 ++ es2, fun q n w r => ?_⟩
  rw [hk, h1]
  simp only [hm, advanceBy_advanceBy, List.append_assoc]

theorem unobserving_verifyByte (a : Addr) (d : Byte) : Unobserving (verifyByte a d) := by
  intro s
  obtain ⟨k, es, hk⟩ := readByte_swapControl a s
  by_cases h : (readByte a s).1 = d
  · refine ⟨k, es, fun q n w r => ?_⟩
    simp only [verifyByte, hk, if_pos h]
  · obtain ⟨m, es2, hm⟩ := unobserving_emit (.verifyMismatch a d (readByte a s).1) (readByte a s).2
    refine ⟨k + m, es ++ es2, fun q n w r => ?_⟩
    simp only [verifyByte, hk, if_neg h, hm, advanceBy_advanceBy, List.append_assoc]

theorem unobserving_verifyIf (a : Addr) (d : Byte) :
    Unobserving (fun t => if t.cfg.verify then verifyByte a d t else t) := by
  intro t
  have e : ∀ q n w r, (swapControl q n w r t).cfg = t.cfg := fun _ _ _ _ => rfl
  simp only [e]
  cases t.cfg.verify
  · exact ⟨0, [], fun q n w r => by simp⟩
  · obtain ⟨k, es, hk⟩ := unobserving_verifyByte a d t
    exact ⟨k, es, fun q n w r => by rw [if_pos rfl, if_pos rfl, hk]⟩

theorem unobserving_writePulse (a : Addr) (d : Byte) : Unobserving (writePulse a d) := by
  have h1 := (unobserving_setMode .output).comp (unobserving_setAddress a)
  have h2 := (unobserving_drive .ceN false).comp ((unobserving_writeBus d).comp h1)
  have h3 := (unobserving_delay .writePulse).comp ((unobserving_drive .weN false).comp h2)
  have h4 := (unobserving_drive .ceN true).comp ((unobserving_drive .weN true).comp h3)
  exact h4.congr fun s => by simp only [writePulse]

theorem unobserving_writeByte (a : Addr) (d : Byte) : Unobserving (writeByte a d) := by
  have h1 := (unobserving_verifyIf a d).comp ((unobserving_emit (.byteWritten a d)).comp (unobserving_writePulse a d))
  exact h1.congr fun s => by simp only [writeByte]

end Sys2Proof.Machine
end

