-- ==== Sys2Proof/Laws/Decode.lean ====
section
/-!
SUPPORT. The one layout of a command word (30_encoding.md rule R91): fields and word are two views of the same 48 bits.
-/

namespace Sys2Proof

/-- No field is lost in the word (R91). -/
theorem fieldsOf_wordOf (f : Fields) : fieldsOf (wordOf f) = f := by
  obtain ⟨a, b, c, d, e, g, h, i⟩ := f
  simp only [fieldsOf, wordOf, Fields.mk.injEq]
  refine ⟨?_, ?_, ?_, ?_, ?_, ?_, ?_, ?_⟩ <;>
  · ext j hj
    simp only [BitVec.getElem_extractLsb', BitVec.getLsbD_append]
    grind

/-- No bit of the word lies outside the fields (R91). -/
theorem wordOf_fieldsOf (w : CmdWord) : wordOf (fieldsOf w) = w := by
  apply BitVec.eq_of_getLsbD_eq
  intro j hj
  simp only [fieldsOf, wordOf, BitVec.getLsbD_append, BitVec.getLsbD_extractLsb']
  grind

/-- The fields of a masked word are the masked fields. -/
theorem fieldsOf_and (w m : CmdWord) :
    fieldsOf (w &&& m) =
      ⟨(fieldsOf w).opc &&& (fieldsOf m).opc, (fieldsOf w).ch &&& (fieldsOf m).ch, (fieldsOf w).v &&& (fieldsOf m).v,
        (fieldsOf w).zeroHigh &&& (fieldsOf m).zeroHigh, (fieldsOf w).b &&& (fieldsOf m).b,
        (fieldsOf w).len &&& (fieldsOf m).len, (fieldsOf w).zeroLow &&& (fieldsOf m).zeroLow,
        (fieldsOf w).addr &&& (fieldsOf m).addr⟩ := by
  simp only [fieldsOf, Fields.mk.injEq]
  refine ⟨?_, ?_, ?_, ?_, ?_, ?_, ?_, ?_⟩ <;> (ext j hj; simp)

end Sys2Proof
end

