-- ==== Sys2Proof/Laws/Frames.lean ====
section
/-!
SUPPORT. Frames that hold in every state, reachable or not: what the memory device's reaction, a pin event, a flush and an
address change leave alone.
-/

namespace Sys2Proof.Machine

/-! ### The memory device's reaction -/

/-- All that the memory device and its watch can change: cells, the pulse and the hazard note. -/
theorem react_frame (before s : State) :
    ∃ m p h, react before s = { s with mem := m, pulse := p, hazard := h } := by
  have note : ∀ (x : Hazard) (m : List Host.Cell) (p : Pulse) (h : Option Hazard),
      ∃ h', noteHazard x { s with mem := m, pulse := p, hazard := h } = { s with mem := m, pulse := p, hazard := h' } := by
    intro x m p h
    cases h <;> exact ⟨_, rfl⟩
  have key : ∃ m p h, reactWrite before s = { s with mem := m, pulse := p, hazard := h } := by
    unfold reactWrite
    split
    · exact ⟨_, _, _, rfl⟩
    · unfold watchPulse; split <;> exact ⟨_, _, _, rfl⟩
    · unfold commitPulse
      split
      · exact ⟨_, _, _, rfl⟩
      · obtain ⟨h', e⟩ := note .unstableWrite s.mem .off s.hazard
        exact ⟨_, _, _, e⟩
    · exact ⟨_, _, _, rfl⟩
  obtain ⟨m, p, h, e⟩ := key
  simp only [react, e]
  split
  · obtain ⟨h', e'⟩ := note .contention m p h
    exact ⟨_, _, _, e'⟩
  · exact ⟨_, _, _, rfl⟩

@[simp] theorem react_cfg (before s : State) : (react before s).cfg = s.cfg := by
  obtain ⟨m, p, h, e⟩ := react_frame before s; rw [e]
@[simp] theorem react_rstN (before s : State) : (react before s).rstN = s.rstN := by
  obtain ⟨m, p, h, e⟩ := react_frame before s; rw [e]
@[simp] theorem react_init (before s : State) : (react before s).init = s.init := by
  obtain ⟨m, p, h, e⟩ := react_frame before s; rw [e]
@[simp] theorem react_seq (before s : State) : (react before s).seq = s.seq := by
  obtain ⟨m, p, h, e⟩ := react_frame before s; rw [e]
@[simp] theorem react_counters (before s : State) : (react before s).counters = s.counters := by
  obtain ⟨m, p, h, e⟩ := react_frame before s; rw [e]
@[simp] theorem react_chain1 (before s : State) : (react before s).chain1 = s.chain1 := by
  obtain ⟨m, p, h, e⟩ := react_frame before s; rw [e]
@[simp] theorem react_chain2 (before s : State) : (react before s).chain2 = s.chain2 := by
  obtain ⟨m, p, h, e⟩ := react_frame before s; rw [e]
@[simp] theorem react_apin (before s : State) : (react before s).apin = s.apin := by
  obtain ⟨m, p, h, e⟩ := react_frame before s; rw [e]
@[simp] theorem react_apinPins (before s : State) : (react before s).apinPins = s.apinPins := by
  obtain ⟨m, p, h, e⟩ := react_frame before s; rw [e]
@[simp] theorem react_ddir (before s : State) : (react before s).ddir = s.ddir := by
  obtain ⟨m, p, h, e⟩ := react_frame before s; rw [e]
@[simp] theorem react_dout (before s : State) : (react before s).dout = s.dout := by
  obtain ⟨m, p, h, e⟩ := react_frame before s; rw [e]
@[simp] theorem react_ceN (before s : State) : (react before s).ceN = s.ceN := by
  obtain ⟨m, p, h, e⟩ := react_frame before s; rw [e]
@[simp] theorem react_oeN (before s : State) : (react before s).oeN = s.oeN := by
  obtain ⟨m, p, h, e⟩ := react_frame before s; rw [e]
@[simp] theorem react_weN (before s : State) : (react before s).weN = s.weN := by
  obtain ⟨m, p, h, e⟩ := react_frame before s; rw [e]
@[simp] theorem react_memEpoch (before s : State) : (react before s).memEpoch = s.memEpoch := by
  obtain ⟨m, p, h, e⟩ := react_frame before s; rw [e]
@[simp] theorem react_draws (before s : State) : (react before s).draws = s.draws := by
  obtain ⟨m, p, h, e⟩ := react_frame before s; rw [e]
@[simp] theorem react_cmds (before s : State) : (react before s).cmds = s.cmds := by
  obtain ⟨m, p, h, e⟩ := react_frame before s; rw [e]
@[simp] theorem react_wd (before s : State) : (react before s).wd = s.wd := by
  obtain ⟨m, p, h, e⟩ := react_frame before s; rw [e]
@[simp] theorem react_rd (before s : State) : (react before s).rd = s.rd := by
  obtain ⟨m, p, h, e⟩ := react_frame before s; rw [e]
@[simp] theorem react_rsp (before s : State) : (react before s).rsp = s.rsp := by
  obtain ⟨m, p, h, e⟩ := react_frame before s; rw [e]
@[simp] theorem react_diag (before s : State) : (react before s).diag = s.diag := by
  obtain ⟨m, p, h, e⟩ := react_frame before s; rw [e]
@[simp] theorem react_trace (before s : State) : (react before s).trace = s.trace := by
  obtain ⟨m, p, h, e⟩ := react_frame before s; rw [e]
@[simp] theorem chain_react (before s : State) (c : ChainId) : (react before s).chain c = s.chain c := by
  cases c <;> simp

/-! ### A pin moves -/

@[simp] theorem setPin_cfg (p : Pin) (l : Bool) (s : State) : (setPin p l s).cfg = s.cfg := by
  cases p <;> simp [setPin]
@[simp] theorem setPin_rstN (p : Pin) (l : Bool) (s : State) : (setPin p l s).rstN = s.rstN := by
  cases p <;> simp [setPin]
@[simp] theorem setPin_init (p : Pin) (l : Bool) (s : State) : (setPin p l s).init = s.init := by
  cases p <;> simp [setPin]
@[simp] theorem setPin_seq (p : Pin) (l : Bool) (s : State) : (setPin p l s).seq = s.seq := by
  cases p <;> simp [setPin]
@[simp] theorem setPin_counters (p : Pin) (l : Bool) (s : State) : (setPin p l s).counters = s.counters := by
  cases p <;> simp [setPin]
@[simp] theorem setPin_apin (p : Pin) (l : Bool) (s : State) : (setPin p l s).apin = s.apin := by
  cases p <;> simp [setPin]
@[simp] theorem setPin_ddir (p : Pin) (l : Bool) (s : State) : (setPin p l s).ddir = s.ddir := by
  cases p <;> simp [setPin]
@[simp] theorem setPin_dout (p : Pin) (l : Bool) (s : State) : (setPin p l s).dout = s.dout := by
  cases p <;> simp [setPin]
@[simp] theorem setPin_mem (p : Pin) (l : Bool) (s : State) : (setPin p l s).mem = s.mem := by
  cases p <;> simp [setPin]
@[simp] theorem setPin_memEpoch (p : Pin) (l : Bool) (s : State) : (setPin p l s).memEpoch = s.memEpoch := by
  cases p <;> simp [setPin]
@[simp] theorem setPin_pulse (p : Pin) (l : Bool) (s : State) : (setPin p l s).pulse = s.pulse := by
  cases p <;> simp [setPin]
@[simp] theorem setPin_hazard (p : Pin) (l : Bool) (s : State) : (setPin p l s).hazard = s.hazard := by
  cases p <;> simp [setPin]
@[simp] theorem setPin_draws (p : Pin) (l : Bool) (s : State) : (setPin p l s).draws = s.draws := by
  cases p <;> simp [setPin]
@[simp] theorem setPin_cmds (p : Pin) (l : Bool) (s : State) : (setPin p l s).cmds = s.cmds := by
  cases p <;> simp [setPin]
@[simp] theorem setPin_wd (p : Pin) (l : Bool) (s : State) : (setPin p l s).wd = s.wd := by
  cases p <;> simp [setPin]
@[simp] theorem setPin_rd (p : Pin) (l : Bool) (s : State) : (setPin p l s).rd = s.rd := by
  cases p <;> simp [setPin]
@[simp] theorem setPin_rsp (p : Pin) (l : Bool) (s : State) : (setPin p l s).rsp = s.rsp := by
  cases p <;> simp [setPin]
@[simp] theorem setPin_diag (p : Pin) (l : Bool) (s : State) : (setPin p l s).diag = s.diag := by
  cases p <;> simp [setPin]
@[simp] theorem setPin_trace (p : Pin) (l : Bool) (s : State) : (setPin p l s).trace = s.trace := by
  cases p <;> simp [setPin]

/-! ### A pin event -/

@[simp] theorem drive_cfg (p : Pin) (l : Bool) (s : State) : (drive p l s).cfg = s.cfg := by simp [drive]
@[simp] theorem drive_rstN (p : Pin) (l : Bool) (s : State) : (drive p l s).rstN = s.rstN := by simp [drive]
@[simp] theorem drive_init (p : Pin) (l : Bool) (s : State) : (drive p l s).init = s.init := by simp [drive]
@[simp] theorem drive_counters (p : Pin) (l : Bool) (s : State) : (drive p l s).counters = s.counters := by simp [drive]
@[simp] theorem drive_apin (p : Pin) (l : Bool) (s : State) : (drive p l s).apin = s.apin := by simp [drive]
@[simp] theorem drive_ddir (p : Pin) (l : Bool) (s : State) : (drive p l s).ddir = s.ddir := by simp [drive]
@[simp] theorem drive_dout (p : Pin) (l : Bool) (s : State) : (drive p l s).dout = s.dout := by simp [drive]
@[simp] theorem drive_memEpoch (p : Pin) (l : Bool) (s : State) : (drive p l s).memEpoch = s.memEpoch := by simp [drive]
@[simp] theorem drive_draws (p : Pin) (l : Bool) (s : State) : (drive p l s).draws = s.draws := by simp [drive]
@[simp] theorem drive_cmds (p : Pin) (l : Bool) (s : State) : (drive p l s).cmds = s.cmds := by simp [drive]
@[simp] theorem drive_wd (p : Pin) (l : Bool) (s : State) : (drive p l s).wd = s.wd := by simp [drive]
@[simp] theorem drive_rd (p : Pin) (l : Bool) (s : State) : (drive p l s).rd = s.rd := by simp [drive]
@[simp] theorem drive_rsp (p : Pin) (l : Bool) (s : State) : (drive p l s).rsp = s.rsp := by simp [drive]
@[simp] theorem drive_diag (p : Pin) (l : Bool) (s : State) : (drive p l s).diag = s.diag := by simp [drive]
@[simp] theorem drive_trace (p : Pin) (l : Bool) (s : State) : (drive p l s).trace = s.trace ++ [.drive p l] := by
  simp [drive]
@[simp] theorem drive_seq (p : Pin) (l : Bool) (s : State) : (drive p l s).seq = advance s.seq := by simp [drive]
theorem chain_drive (p : Pin) (l : Bool) (s : State) (c : ChainId) : (drive p l s).chain c = (setPin p l s).chain c := by
  rw [drive, chain_react]
  cases p <;> first | (cases c <;> rfl) | (rename_i d; cases c <;> cases d <;> rfl)

/-! ### A folded operation -/

/-- What each step of a fold keeps, the fold keeps. -/
theorem foldl_keeps {α β : Type} (f : State → α → State) (g : State → β) (h : ∀ s x, g (f s x) = g s) (l : List α)
    (s : State) : g (l.foldl f s) = g s := by
  induction l generalizing s with
  | nil => rfl
  | cons x l ih => rw [List.foldl_cons, ih, h]

/-! ### A flush -/

@[simp] theorem sendBit_cfg (c : ChainId) (s : State) (b : Bool) : (sendBit c s b).cfg = s.cfg := by
  simp [sendBit]
@[simp] theorem flush_cfg (c : ChainId) (s : State) : (flush c s).cfg = s.cfg := by
  simp [flush, foldl_keeps (sendBit c) State.cfg (fun s b => sendBit_cfg c s b)]
@[simp] theorem sendBit_rstN (c : ChainId) (s : State) (b : Bool) : (sendBit c s b).rstN = s.rstN := by
  simp [sendBit]
@[simp] theorem flush_rstN (c : ChainId) (s : State) : (flush c s).rstN = s.rstN := by
  simp [flush, foldl_keeps (sendBit c) State.rstN (fun s b => sendBit_rstN c s b)]
@[simp] theorem sendBit_init (c : ChainId) (s : State) (b : Bool) : (sendBit c s b).init = s.init := by
  simp [sendBit]
@[simp] theorem flush_init (c : ChainId) (s : State) : (flush c s).init = s.init := by
  simp [flush, foldl_keeps (sendBit c) State.init (fun s b => sendBit_init c s b)]
@[simp] theorem sendBit_counters (c : ChainId) (s : State) (b : Bool) : (sendBit c s b).counters = s.counters := by
  simp [sendBit]
@[simp] theorem flush_counters (c : ChainId) (s : State) : (flush c s).counters = s.counters := by
  simp [flush, foldl_keeps (sendBit c) State.counters (fun s b => sendBit_counters c s b)]
@[simp] theorem sendBit_apin (c : ChainId) (s : State) (b : Bool) : (sendBit c s b).apin = s.apin := by
  simp [sendBit]
@[simp] theorem flush_apin (c : ChainId) (s : State) : (flush c s).apin = s.apin := by
  simp [flush, foldl_keeps (sendBit c) State.apin (fun s b => sendBit_apin c s b)]
@[simp] theorem sendBit_ddir (c : ChainId) (s : State) (b : Bool) : (sendBit c s b).ddir = s.ddir := by
  simp [sendBit]
@[simp] theorem flush_ddir (c : ChainId) (s : State) : (flush c s).ddir = s.ddir := by
  simp [flush, foldl_keeps (sendBit c) State.ddir (fun s b => sendBit_ddir c s b)]
@[simp] theorem sendBit_dout (c : ChainId) (s : State) (b : Bool) : (sendBit c s b).dout = s.dout := by
  simp [sendBit]
@[simp] theorem flush_dout (c : ChainId) (s : State) : (flush c s).dout = s.dout := by
  simp [flush, foldl_keeps (sendBit c) State.dout (fun s b => sendBit_dout c s b)]
@[simp] theorem sendBit_memEpoch (c : ChainId) (s : State) (b : Bool) : (sendBit c s b).memEpoch = s.memEpoch := by
  simp [sendBit]
@[simp] theorem flush_memEpoch (c : ChainId) (s : State) : (flush c s).memEpoch = s.memEpoch := by
  simp [flush, foldl_keeps (sendBit c) State.memEpoch (fun s b => sendBit_memEpoch c s b)]
@[simp] theorem sendBit_draws (c : ChainId) (s : State) (b : Bool) : (sendBit c s b).draws = s.draws := by
  simp [sendBit]
@[simp] theorem flush_draws (c : ChainId) (s : State) : (flush c s).draws = s.draws := by
  simp [flush, foldl_keeps (sendBit c) State.draws (fun s b => sendBit_draws c s b)]
@[simp] theorem sendBit_cmds (c : ChainId) (s : State) (b : Bool) : (sendBit c s b).cmds = s.cmds := by
  simp [sendBit]
@[simp] theorem flush_cmds (c : ChainId) (s : State) : (flush c s).cmds = s.cmds := by
  simp [flush, foldl_keeps (sendBit c) State.cmds (fun s b => sendBit_cmds c s b)]
@[simp] theorem sendBit_wd (c : ChainId) (s : State) (b : Bool) : (sendBit c s b).wd = s.wd := by
  simp [sendBit]
@[simp] theorem flush_wd (c : ChainId) (s : State) : (flush c s).wd = s.wd := by
  simp [flush, foldl_keeps (sendBit c) State.wd (fun s b => sendBit_wd c s b)]
@[simp] theorem sendBit_rd (c : ChainId) (s : State) (b : Bool) : (sendBit c s b).rd = s.rd := by
  simp [sendBit]
@[simp] theorem flush_rd (c : ChainId) (s : State) : (flush c s).rd = s.rd := by
  simp [flush, foldl_keeps (sendBit c) State.rd (fun s b => sendBit_rd c s b)]
@[simp] theorem sendBit_rsp (c : ChainId) (s : State) (b : Bool) : (sendBit c s b).rsp = s.rsp := by
  simp [sendBit]
@[simp] theorem flush_rsp (c : ChainId) (s : State) : (flush c s).rsp = s.rsp := by
  simp [flush, foldl_keeps (sendBit c) State.rsp (fun s b => sendBit_rsp c s b)]
@[simp] theorem sendBit_diag (c : ChainId) (s : State) (b : Bool) : (sendBit c s b).diag = s.diag := by
  simp [sendBit]
@[simp] theorem flush_diag (c : ChainId) (s : State) : (flush c s).diag = s.diag := by
  simp [flush, foldl_keeps (sendBit c) State.diag (fun s b => sendBit_diag c s b)]

/-! ### A mirror bit -/

@[simp] theorem writeMirrorBit_cfg (c : ChainId) (i : Nat) (v : Bool) (s : State) :
    (writeMirrorBit c i v s).cfg = s.cfg := by simp [writeMirrorBit]
@[simp] theorem fillMirror_cfg (c : ChainId) (w : Byte) (s : State) :
    (fillMirror c w s).cfg = s.cfg := by simp [fillMirror]
@[simp] theorem writeMirrorBit_rstN (c : ChainId) (i : Nat) (v : Bool) (s : State) :
    (writeMirrorBit c i v s).rstN = s.rstN := by simp [writeMirrorBit]
@[simp] theorem fillMirror_rstN (c : ChainId) (w : Byte) (s : State) :
    (fillMirror c w s).rstN = s.rstN := by simp [fillMirror]
@[simp] theorem writeMirrorBit_init (c : ChainId) (i : Nat) (v : Bool) (s : State) :
    (writeMirrorBit c i v s).init = s.init := by simp [writeMirrorBit]
@[simp] theorem fillMirror_init (c : ChainId) (w : Byte) (s : State) :
    (fillMirror c w s).init = s.init := by simp [fillMirror]
@[simp] theorem writeMirrorBit_seq (c : ChainId) (i : Nat) (v : Bool) (s : State) :
    (writeMirrorBit c i v s).seq = s.seq := by simp [writeMirrorBit]
@[simp] theorem fillMirror_seq (c : ChainId) (w : Byte) (s : State) :
    (fillMirror c w s).seq = s.seq := by simp [fillMirror]
@[simp] theorem writeMirrorBit_counters (c : ChainId) (i : Nat) (v : Bool) (s : State) :
    (writeMirrorBit c i v s).counters = s.counters := by simp [writeMirrorBit]
@[simp] theorem fillMirror_counters (c : ChainId) (w : Byte) (s : State) :
    (fillMirror c w s).counters = s.counters := by simp [fillMirror]
@[simp] theorem writeMirrorBit_apin (c : ChainId) (i : Nat) (v : Bool) (s : State) :
    (writeMirrorBit c i v s).apin = s.apin := by simp [writeMirrorBit]
@[simp] theorem fillMirror_apin (c : ChainId) (w : Byte) (s : State) :
    (fillMirror c w s).apin = s.apin := by simp [fillMirror]
@[simp] theorem writeMirrorBit_apinPins (c : ChainId) (i : Nat) (v : Bool) (s : State) :
    (writeMirrorBit c i v s).apinPins = s.apinPins := by simp [writeMirrorBit]
@[simp] theorem fillMirror_apinPins (c : ChainId) (w : Byte) (s : State) :
    (fillMirror c w s).apinPins = s.apinPins := by simp [fillMirror]
@[simp] theorem writeMirrorBit_ddir (c : ChainId) (i : Nat) (v : Bool) (s : State) :
    (writeMirrorBit c i v s).ddir = s.ddir := by simp [writeMirrorBit]
@[simp] theorem fillMirror_ddir (c : ChainId) (w : Byte) (s : State) :
    (fillMirror c w s).ddir = s.ddir := by simp [fillMirror]
@[simp] theorem writeMirrorBit_dout (c : ChainId) (i : Nat) (v : Bool) (s : State) :
    (writeMirrorBit c i v s).dout = s.dout := by simp [writeMirrorBit]
@[simp] theorem fillMirror_dout (c : ChainId) (w : Byte) (s : State) :
    (fillMirror c w s).dout = s.dout := by simp [fillMirror]
@[simp] theorem writeMirrorBit_ceN (c : ChainId) (i : Nat) (v : Bool) (s : State) :
    (writeMirrorBit c i v s).ceN = s.ceN := by simp [writeMirrorBit]
@[simp] theorem fillMirror_ceN (c : ChainId) (w : Byte) (s : State) :
    (fillMirror c w s).ceN = s.ceN := by simp [fillMirror]
@[simp] theorem writeMirrorBit_oeN (c : ChainId) (i : Nat) (v : Bool) (s : State) :
    (writeMirrorBit c i v s).oeN = s.oeN := by simp [writeMirrorBit]
@[simp] theorem fillMirror_oeN (c : ChainId) (w : Byte) (s : State) :
    (fillMirror c w s).oeN = s.oeN := by simp [fillMirror]
@[simp] theorem writeMirrorBit_weN (c : ChainId) (i : Nat) (v : Bool) (s : State) :
    (writeMirrorBit c i v s).weN = s.weN := by simp [writeMirrorBit]
@[simp] theorem fillMirror_weN (c : ChainId) (w : Byte) (s : State) :
    (fillMirror c w s).weN = s.weN := by simp [fillMirror]
@[simp] theorem writeMirrorBit_mem (c : ChainId) (i : Nat) (v : Bool) (s : State) :
    (writeMirrorBit c i v s).mem = s.mem := by simp [writeMirrorBit]
@[simp] theorem fillMirror_mem (c : ChainId) (w : Byte) (s : State) :
    (fillMirror c w s).mem = s.mem := by simp [fillMirror]
@[simp] theorem writeMirrorBit_memEpoch (c : ChainId) (i : Nat) (v : Bool) (s : State) :
    (writeMirrorBit c i v s).memEpoch = s.memEpoch := by simp [writeMirrorBit]
@[simp] theorem fillMirror_memEpoch (c : ChainId) (w : Byte) (s : State) :
    (fillMirror c w s).memEpoch = s.memEpoch := by simp [fillMirror]
@[simp] theorem writeMirrorBit_pulse (c : ChainId) (i : Nat) (v : Bool) (s : State) :
    (writeMirrorBit c i v s).pulse = s.pulse := by simp [writeMirrorBit]
@[simp] theorem fillMirror_pulse (c : ChainId) (w : Byte) (s : State) :
    (fillMirror c w s).pulse = s.pulse := by simp [fillMirror]
@[simp] theorem writeMirrorBit_hazard (c : ChainId) (i : Nat) (v : Bool) (s : State) :
    (writeMirrorBit c i v s).hazard = s.hazard := by simp [writeMirrorBit]
@[simp] theorem fillMirror_hazard (c : ChainId) (w : Byte) (s : State) :
    (fillMirror c w s).hazard = s.hazard := by simp [fillMirror]
@[simp] theorem writeMirrorBit_draws (c : ChainId) (i : Nat) (v : Bool) (s : State) :
    (writeMirrorBit c i v s).draws = s.draws := by simp [writeMirrorBit]
@[simp] theorem fillMirror_draws (c : ChainId) (w : Byte) (s : State) :
    (fillMirror c w s).draws = s.draws := by simp [fillMirror]
@[simp] theorem writeMirrorBit_cmds (c : ChainId) (i : Nat) (v : Bool) (s : State) :
    (writeMirrorBit c i v s).cmds = s.cmds := by simp [writeMirrorBit]
@[simp] theorem fillMirror_cmds (c : ChainId) (w : Byte) (s : State) :
    (fillMirror c w s).cmds = s.cmds := by simp [fillMirror]
@[simp] theorem writeMirrorBit_wd (c : ChainId) (i : Nat) (v : Bool) (s : State) :
    (writeMirrorBit c i v s).wd = s.wd := by simp [writeMirrorBit]
@[simp] theorem fillMirror_wd (c : ChainId) (w : Byte) (s : State) :
    (fillMirror c w s).wd = s.wd := by simp [fillMirror]
@[simp] theorem writeMirrorBit_rd (c : ChainId) (i : Nat) (v : Bool) (s : State) :
    (writeMirrorBit c i v s).rd = s.rd := by simp [writeMirrorBit]
@[simp] theorem fillMirror_rd (c : ChainId) (w : Byte) (s : State) :
    (fillMirror c w s).rd = s.rd := by simp [fillMirror]
@[simp] theorem writeMirrorBit_rsp (c : ChainId) (i : Nat) (v : Bool) (s : State) :
    (writeMirrorBit c i v s).rsp = s.rsp := by simp [writeMirrorBit]
@[simp] theorem fillMirror_rsp (c : ChainId) (w : Byte) (s : State) :
    (fillMirror c w s).rsp = s.rsp := by simp [fillMirror]
@[simp] theorem writeMirrorBit_diag (c : ChainId) (i : Nat) (v : Bool) (s : State) :
    (writeMirrorBit c i v s).diag = s.diag := by simp [writeMirrorBit]
@[simp] theorem fillMirror_diag (c : ChainId) (w : Byte) (s : State) :
    (fillMirror c w s).diag = s.diag := by simp [fillMirror]
@[simp] theorem writeMirrorBit_trace (c : ChainId) (i : Nat) (v : Bool) (s : State) :
    (writeMirrorBit c i v s).trace = s.trace := by simp [writeMirrorBit]
@[simp] theorem fillMirror_trace (c : ChainId) (w : Byte) (s : State) :
    (fillMirror c w s).trace = s.trace := by simp [fillMirror]

/-! ### An address change -/

@[simp] theorem programBit_cfg (a : Addr) (s : State) (i : Fin 15) : (programBit a s i).cfg = s.cfg := by
  unfold programBit; cases s.cfg.backend <;> simp; split <;> simp
@[simp] theorem programBits_cfg (a : Addr) (n : Nat) (s : State) : (programBits a n s).cfg = s.cfg :=
  foldl_keeps (programBit a) State.cfg (programBit_cfg a) _ s
@[simp] theorem setAddress_cfg (a : Addr) (s : State) : (setAddress a s).cfg = s.cfg := by simp [setAddress]
@[simp] theorem programBit_rstN (a : Addr) (s : State) (i : Fin 15) : (programBit a s i).rstN = s.rstN := by
  unfold programBit; cases s.cfg.backend <;> simp; split <;> simp
@[simp] theorem programBits_rstN (a : Addr) (n : Nat) (s : State) : (programBits a n s).rstN = s.rstN :=
  foldl_keeps (programBit a) State.rstN (programBit_rstN a) _ s
@[simp] theorem setAddress_rstN (a : Addr) (s : State) : (setAddress a s).rstN = s.rstN := by simp [setAddress]
@[simp] theorem programBit_init (a : Addr) (s : State) (i : Fin 15) : (programBit a s i).init = s.init := by
  unfold programBit; cases s.cfg.backend <;> simp; split <;> simp
@[simp] theorem programBits_init (a : Addr) (n : Nat) (s : State) : (programBits a n s).init = s.init :=
  foldl_keeps (programBit a) State.init (programBit_init a) _ s
@[simp] theorem setAddress_init (a : Addr) (s : State) : (setAddress a s).init = s.init := by simp [setAddress]
@[simp] theorem programBit_counters (a : Addr) (s : State) (i : Fin 15) : (programBit a s i).counters = s.counters := by
  unfold programBit; cases s.cfg.backend <;> simp; split <;> simp
@[simp] theorem programBits_counters (a : Addr) (n : Nat) (s : State) : (programBits a n s).counters = s.counters :=
  foldl_keeps (programBit a) State.counters (programBit_counters a) _ s
@[simp] theorem setAddress_counters (a : Addr) (s : State) : (setAddress a s).counters = s.counters := by simp [setAddress]
@[simp] theorem programBit_ddir (a : Addr) (s : State) (i : Fin 15) : (programBit a s i).ddir = s.ddir := by
  unfold programBit; cases s.cfg.backend <;> simp; split <;> simp
@[simp] theorem programBits_ddir (a : Addr) (n : Nat) (s : State) : (programBits a n s).ddir = s.ddir :=
  foldl_keeps (programBit a) State.ddir (programBit_ddir a) _ s
@[simp] theorem setAddress_ddir (a : Addr) (s : State) : (setAddress a s).ddir = s.ddir := by simp [setAddress]
@[simp] theorem programBit_dout (a : Addr) (s : State) (i : Fin 15) : (programBit a s i).dout = s.dout := by
  unfold programBit; cases s.cfg.backend <;> simp; split <;> simp
@[simp] theorem programBits_dout (a : Addr) (n : Nat) (s : State) : (programBits a n s).dout = s.dout :=
  foldl_keeps (programBit a) State.dout (programBit_dout a) _ s
@[simp] theorem setAddress_dout (a : Addr) (s : State) : (setAddress a s).dout = s.dout := by simp [setAddress]
@[simp] theorem programBit_memEpoch (a : Addr) (s : State) (i : Fin 15) : (programBit a s i).memEpoch = s.memEpoch := by
  unfold programBit; cases s.cfg.backend <;> simp; split <;> simp
@[simp] theorem programBits_memEpoch (a : Addr) (n : Nat) (s : State) : (programBits a n s).memEpoch = s.memEpoch :=
  foldl_keeps (programBit a) State.memEpoch (programBit_memEpoch a) _ s
@[simp] theorem setAddress_memEpoch (a : Addr) (s : State) : (setAddress a s).memEpoch = s.memEpoch := by simp [setAddress]
@[simp] theorem programBit_draws (a : Addr) (s : State) (i : Fin 15) : (programBit a s i).draws = s.draws := by
  unfold programBit; cases s.cfg.backend <;> simp; split <;> simp
@[simp] theorem programBits_draws (a : Addr) (n : Nat) (s : State) : (programBits a n s).draws = s.draws :=
  foldl_keeps (programBit a) State.draws (programBit_draws a) _ s
@[simp] theorem setAddress_draws (a : Addr) (s : State) : (setAddress a s).draws = s.draws := by simp [setAddress]
@[simp] theorem programBit_cmds (a : Addr) (s : State) (i : Fin 15) : (programBit a s i).cmds = s.cmds := by
  unfold programBit; cases s.cfg.backend <;> simp; split <;> simp
@[simp] theorem programBits_cmds (a : Addr) (n : Nat) (s : State) : (programBits a n s).cmds = s.cmds :=
  foldl_keeps (programBit a) State.cmds (programBit_cmds a) _ s
@[simp] theorem setAddress_cmds (a : Addr) (s : State) : (setAddress a s).cmds = s.cmds := by simp [setAddress]
@[simp] theorem programBit_wd (a : Addr) (s : State) (i : Fin 15) : (programBit a s i).wd = s.wd := by
  unfold programBit; cases s.cfg.backend <;> simp; split <;> simp
@[simp] theorem programBits_wd (a : Addr) (n : Nat) (s : State) : (programBits a n s).wd = s.wd :=
  foldl_keeps (programBit a) State.wd (programBit_wd a) _ s
@[simp] theorem setAddress_wd (a : Addr) (s : State) : (setAddress a s).wd = s.wd := by simp [setAddress]
@[simp] theorem programBit_rd (a : Addr) (s : State) (i : Fin 15) : (programBit a s i).rd = s.rd := by
  unfold programBit; cases s.cfg.backend <;> simp; split <;> simp
@[simp] theorem programBits_rd (a : Addr) (n : Nat) (s : State) : (programBits a n s).rd = s.rd :=
  foldl_keeps (programBit a) State.rd (programBit_rd a) _ s
@[simp] theorem setAddress_rd (a : Addr) (s : State) : (setAddress a s).rd = s.rd := by simp [setAddress]
@[simp] theorem programBit_rsp (a : Addr) (s : State) (i : Fin 15) : (programBit a s i).rsp = s.rsp := by
  unfold programBit; cases s.cfg.backend <;> simp; split <;> simp
@[simp] theorem programBits_rsp (a : Addr) (n : Nat) (s : State) : (programBits a n s).rsp = s.rsp :=
  foldl_keeps (programBit a) State.rsp (programBit_rsp a) _ s
@[simp] theorem setAddress_rsp (a : Addr) (s : State) : (setAddress a s).rsp = s.rsp := by simp [setAddress]
@[simp] theorem programBit_diag (a : Addr) (s : State) (i : Fin 15) : (programBit a s i).diag = s.diag := by
  unfold programBit; cases s.cfg.backend <;> simp; split <;> simp
@[simp] theorem programBits_diag (a : Addr) (n : Nat) (s : State) : (programBits a n s).diag = s.diag :=
  foldl_keeps (programBit a) State.diag (programBit_diag a) _ s

/-! ### The data bus -/

@[simp] theorem setMode_cfg (d : Dir) (s : State) : (setMode d s).cfg = s.cfg := by simp [setMode]
@[simp] theorem writeBus_cfg (b : Byte) (s : State) : (writeBus b s).cfg = s.cfg := by
  unfold writeBus; cases s.ddir <;> simp
@[simp] theorem setMode_rstN (d : Dir) (s : State) : (setMode d s).rstN = s.rstN := by simp [setMode]
@[simp] theorem writeBus_rstN (b : Byte) (s : State) : (writeBus b s).rstN = s.rstN := by
  unfold writeBus; cases s.ddir <;> simp
@[simp] theorem setMode_init (d : Dir) (s : State) : (setMode d s).init = s.init := by simp [setMode]
@[simp] theorem writeBus_init (b : Byte) (s : State) : (writeBus b s).init = s.init := by
  unfold writeBus; cases s.ddir <;> simp
@[simp] theorem setMode_seq (d : Dir) (s : State) : (setMode d s).seq = s.seq := by simp [setMode]
@[simp] theorem writeBus_seq (b : Byte) (s : State) : (writeBus b s).seq = s.seq := by
  unfold writeBus; cases s.ddir <;> simp
@[simp] theorem setMode_counters (d : Dir) (s : State) : (setMode d s).counters = s.counters := by simp [setMode]
@[simp] theorem writeBus_counters (b : Byte) (s : State) : (writeBus b s).counters = s.counters := by
  unfold writeBus; cases s.ddir <;> simp
@[simp] theorem setMode_chain1 (d : Dir) (s : State) : (setMode d s).chain1 = s.chain1 := by simp [setMode]
@[simp] theorem writeBus_chain1 (b : Byte) (s : State) : (writeBus b s).chain1 = s.chain1 := by
  unfold writeBus; cases s.ddir <;> simp
@[simp] theorem setMode_chain2 (d : Dir) (s : State) : (setMode d s).chain2 = s.chain2 := by simp [setMode]
@[simp] theorem writeBus_chain2 (b : Byte) (s : State) : (writeBus b s).chain2 = s.chain2 := by
  unfold writeBus; cases s.ddir <;> simp
@[simp] theorem setMode_apin (d : Dir) (s : State) : (setMode d s).apin = s.apin := by simp [setMode]
@[simp] theorem writeBus_apin (b : Byte) (s : State) : (writeBus b s).apin = s.apin := by
  unfold writeBus; cases s.ddir <;> simp
@[simp] theorem setMode_apinPins (d : Dir) (s : State) : (setMode d s).apinPins = s.apinPins := by simp [setMode]
@[simp] theorem writeBus_apinPins (b : Byte) (s : State) : (writeBus b s).apinPins = s.apinPins := by
  unfold writeBus; cases s.ddir <;> simp
@[simp] theorem writeBus_ddir (b : Byte) (s : State) : (writeBus b s).ddir = s.ddir := by
  unfold writeBus; cases h : s.ddir <;> simp [h]
@[simp] theorem setMode_dout (d : Dir) (s : State) : (setMode d s).dout = s.dout := by simp [setMode]
@[simp] theorem setMode_ceN (d : Dir) (s : State) : (setMode d s).ceN = s.ceN := by simp [setMode]
@[simp] theorem writeBus_ceN (b : Byte) (s : State) : (writeBus b s).ceN = s.ceN := by
  unfold writeBus; cases s.ddir <;> simp
@[simp] theorem setMode_oeN (d : Dir) (s : State) : (setMode d s).oeN = s.oeN := by simp [setMode]
@[simp] theorem writeBus_oeN (b : Byte) (s : State) : (writeBus b s).oeN = s.oeN := by
  unfold writeBus; cases s.ddir <;> simp
@[simp] theorem setMode_weN (d : Dir) (s : State) : (setMode d s).weN = s.weN := by simp [setMode]
@[simp] theorem writeBus_weN (b : Byte) (s : State) : (writeBus b s).weN = s.weN := by
  unfold writeBus; cases s.ddir <;> simp
@[simp] theorem setMode_memEpoch (d : Dir) (s : State) : (setMode d s).memEpoch = s.memEpoch := by simp [setMode]
@[simp] theorem writeBus_memEpoch (b : Byte) (s : State) : (writeBus b s).memEpoch = s.memEpoch := by
  unfold writeBus; cases s.ddir <;> simp
@[simp] theorem setMode_draws (d : Dir) (s : State) : (setMode d s).draws = s.draws := by simp [setMode]
@[simp] theorem setMode_cmds (d : Dir) (s : State) : (setMode d s).cmds = s.cmds := by simp [setMode]
@[simp] theorem writeBus_cmds (b : Byte) (s : State) : (writeBus b s).cmds = s.cmds := by
  unfold writeBus; cases s.ddir <;> simp
@[simp] theorem setMode_wd (d : Dir) (s : State) : (setMode d s).wd = s.wd := by simp [setMode]
@[simp] theorem writeBus_wd (b : Byte) (s : State) : (writeBus b s).wd = s.wd := by
  unfold writeBus; cases s.ddir <;> simp
@[simp] theorem setMode_rd (d : Dir) (s : State) : (setMode d s).rd = s.rd := by simp [setMode]
@[simp] theorem writeBus_rd (b : Byte) (s : State) : (writeBus b s).rd = s.rd := by
  unfold writeBus; cases s.ddir <;> simp
@[simp] theorem setMode_rsp (d : Dir) (s : State) : (setMode d s).rsp = s.rsp := by simp [setMode]
@[simp] theorem writeBus_rsp (b : Byte) (s : State) : (writeBus b s).rsp = s.rsp := by
  unfold writeBus; cases s.ddir <;> simp
@[simp] theorem setMode_diag (d : Dir) (s : State) : (setMode d s).diag = s.diag := by simp [setMode]
@[simp] theorem writeBus_diag (b : Byte) (s : State) : (writeBus b s).diag = s.diag := by
  unfold writeBus; cases s.ddir <;> simp
@[simp] theorem readBus_cfg (s : State) : (readBus s).2.cfg = s.cfg := by
  unfold readBus; cases s.ddir <;> cases dataLines s <;> simp
@[simp] theorem readBus_rstN (s : State) : (readBus s).2.rstN = s.rstN := by
  unfold readBus; cases s.ddir <;> cases dataLines s <;> simp
@[simp] theorem readBus_init (s : State) : (readBus s).2.init = s.init := by
  unfold readBus; cases s.ddir <;> cases dataLines s <;> simp
@[simp] theorem readBus_seq (s : State) : (readBus s).2.seq = s.seq := by
  unfold readBus; cases s.ddir <;> cases dataLines s <;> simp
@[simp] theorem readBus_counters (s : State) : (readBus s).2.counters = s.counters := by
  unfold readBus; cases s.ddir <;> cases dataLines s <;> simp
@[simp] theorem readBus_chain1 (s : State) : (readBus s).2.chain1 = s.chain1 := by
  unfold readBus; cases s.ddir <;> cases dataLines s <;> simp
@[simp] theorem readBus_chain2 (s : State) : (readBus s).2.chain2 = s.chain2 := by
  unfold readBus; cases s.ddir <;> cases dataLines s <;> simp
@[simp] theorem readBus_apin (s : State) : (readBus s).2.apin = s.apin := by
  unfold readBus; cases s.ddir <;> cases dataLines s <;> simp
@[simp] theorem readBus_apinPins (s : State) : (readBus s).2.apinPins = s.apinPins := by
  unfold readBus; cases s.ddir <;> cases dataLines s <;> simp
@[simp] theorem readBus_ddir (s : State) : (readBus s).2.ddir = s.ddir := by
  unfold readBus; cases h : s.ddir <;> cases dataLines s <;> simp [h]
@[simp] theorem readBus_dout (s : State) : (readBus s).2.dout = s.dout := by
  unfold readBus; cases s.ddir <;> cases dataLines s <;> simp
@[simp] theorem readBus_ceN (s : State) : (readBus s).2.ceN = s.ceN := by
  unfold readBus; cases s.ddir <;> cases dataLines s <;> simp
@[simp] theorem readBus_oeN (s : State) : (readBus s).2.oeN = s.oeN := by
  unfold readBus; cases s.ddir <;> cases dataLines s <;> simp
@[simp] theorem readBus_weN (s : State) : (readBus s).2.weN = s.weN := by
  unfold readBus; cases s.ddir <;> cases dataLines s <;> simp
@[simp] theorem readBus_mem (s : State) : (readBus s).2.mem = s.mem := by
  unfold readBus; cases s.ddir <;> cases dataLines s <;> simp
@[simp] theorem readBus_memEpoch (s : State) : (readBus s).2.memEpoch = s.memEpoch := by
  unfold readBus; cases s.ddir <;> cases dataLines s <;> simp
@[simp] theorem readBus_pulse (s : State) : (readBus s).2.pulse = s.pulse := by
  unfold readBus; cases s.ddir <;> cases dataLines s <;> simp
@[simp] theorem readBus_hazard (s : State) : (readBus s).2.hazard = s.hazard := by
  unfold readBus; cases s.ddir <;> cases dataLines s <;> simp
@[simp] theorem readBus_cmds (s : State) : (readBus s).2.cmds = s.cmds := by
  unfold readBus; cases s.ddir <;> cases dataLines s <;> simp
@[simp] theorem readBus_wd (s : State) : (readBus s).2.wd = s.wd := by
  unfold readBus; cases s.ddir <;> cases dataLines s <;> simp
@[simp] theorem readBus_rd (s : State) : (readBus s).2.rd = s.rd := by
  unfold readBus; cases s.ddir <;> cases dataLines s <;> simp
@[simp] theorem readBus_rsp (s : State) : (readBus s).2.rsp = s.rsp := by
  unfold readBus; cases s.ddir <;> cases dataLines s <;> simp
@[simp] theorem readBus_diag (s : State) : (readBus s).2.diag = s.diag := by
  unfold readBus; cases s.ddir <;> cases dataLines s <;> simp

end Sys2Proof.Machine
end

