-- ==== Sys2Proof/Laws/PerInstr.lean ====
section
/-!
SUPPORT. What holds of every command as syntax: its word lies in its own row of the opcode map (30_encoding.md rule R92).
-/

namespace Sys2Proof.Laws.RowMatch

/-- The word of the command is in a row of the map with the command's mnemonic: "a word `w` is the command when
`w and mask = match`" (R92). -/
def Statement (i : Instr) : Prop :=
  ∃ r ∈ opcodeTable, r.mnemonic = i.mnemonic ∧ encode i &&& r.mask = r.pattern

/-- A masked word is the pattern when its fields are. -/
theorem masked {f : Fields} {m p : CmdWord}
    (h : fieldsOf (wordOf f &&& m) = fieldsOf p) : wordOf f &&& m = p := by
  rw [← wordOf_fieldsOf (wordOf f &&& m), h, wordOf_fieldsOf]

theorem begin : Statement .begin :=
  ⟨⟨"BEGIN", 0x100000000000#48, 0xFFFFFFFFFFFF#48⟩, by decide, rfl, by decide⟩

theorem setbit (ch : ChainId) (idx : Byte) (v : Bool) : Statement (.setbit ch idx v) :=
  ⟨⟨"SETBIT", 0x200000000000#48, 0xF300FFFFFFFF#48⟩, by decide, rfl, masked (by
    rw [fieldsOf_and, fieldsOf_wordOf]
    cases ch <;> cases v <;> simp [encodeFields, blankFields, fieldsOf, bitOfChain])⟩

theorem clrall (ch : ChainId) : Statement (.clrall ch) :=
  ⟨⟨"CLRALL", 0x300000000000#48, 0xF7FFFFFFFFFF#48⟩, by decide, rfl, by cases ch <;> decide⟩

theorem setall (ch : ChainId) : Statement (.setall ch) :=
  ⟨⟨"SETALL", 0x400000000000#48, 0xF7FFFFFFFFFF#48⟩, by decide, rfl, by cases ch <;> decide⟩

theorem flush (ch : ChainId) : Statement (.flush ch) :=
  ⟨⟨"FLUSH", 0x500000000000#48, 0xF7FFFFFFFFFF#48⟩, by decide, rfl, by cases ch <;> decide⟩

theorem setaddr (addr : Addr) : Statement (.setaddr addr) :=
  ⟨⟨"SETADDR", 0x600000000000#48, 0xFFFFFFFF8000#48⟩, by decide, rfl, masked (by
    rw [fieldsOf_and, fieldsOf_wordOf]
    simp [encodeFields, blankFields, fieldsOf])⟩

theorem dmode (dir : Dir) : Statement (.dmode dir) :=
  ⟨⟨"DMODE", 0x700000000000#48, 0xFBFFFFFFFFFF#48⟩, by decide, rfl, by cases dir <;> decide⟩

theorem dwrite (data : Byte) : Statement (.dwrite data) :=
  ⟨⟨"DWRITE", 0x800000000000#48, 0xFF00FFFFFFFF#48⟩, by decide, rfl, masked (by
    rw [fieldsOf_and, fieldsOf_wordOf]
    simp [encodeFields, blankFields, fieldsOf])⟩

theorem dread : Statement .dread :=
  ⟨⟨"DREAD", 0x900000000000#48, 0xFFFFFFFFFFFF#48⟩, by decide, rfl, by decide⟩

theorem wrbyte (addr : Addr) (data : Byte) : Statement (.wrbyte addr data) :=
  ⟨⟨"WRBYTE", 0xA00000000000#48, 0xFF00FFFF8000#48⟩, by decide, rfl, masked (by
    rw [fieldsOf_and, fieldsOf_wordOf]
    simp [encodeFields, blankFields, fieldsOf])⟩

theorem rdbyte (addr : Addr) : Statement (.rdbyte addr) :=
  ⟨⟨"RDBYTE", 0xB00000000000#48, 0xFFFFFFFF8000#48⟩, by decide, rfl, masked (by
    rw [fieldsOf_and, fieldsOf_wordOf]
    simp [encodeFields, blankFields, fieldsOf])⟩

theorem wrblk (addr : Addr) (len : Len) : Statement (.wrblk addr len) :=
  ⟨⟨"WRBLK", 0xC00000000000#48, 0xFFFF00008000#48⟩, by decide, rfl, masked (by
    rw [fieldsOf_and, fieldsOf_wordOf]
    simp [encodeFields, blankFields, fieldsOf])⟩

theorem rdblk (addr : Addr) (len : Len) : Statement (.rdblk addr len) :=
  ⟨⟨"RDBLK", 0xD00000000000#48, 0xFFFF00008000#48⟩, by decide, rfl, masked (by
    rw [fieldsOf_and, fieldsOf_wordOf]
    simp [encodeFields, blankFields, fieldsOf])⟩

end Sys2Proof.Laws.RowMatch
end

