-- ==== Sys2Proof/Laws/Steps.lean ====
section
/-!
SUPPORT. What a step can do, said once (10_state.md rule R30), and what every procedure and command keeps, in every state.
-/

namespace Sys2Proof.Machine

/-- A run that ends in a next state ends in its own last state. -/
theorem finish_next {s t : State} (h : finish s = .next t) : t = s := by
  unfold finish at h
  split at h <;> simp_all

/-- A command that ends in a next state was refused by an error response or ran its body (R251). -/
theorem perform_next {i : Instr} {body : State → State} {s t : State} (h : perform i body s = .next t) :
    (∃ e, t = raiseError e s) ∨ t = body (accept i s) := by
  unfold perform at h
  split at h
  · simp at h; exact .inl ⟨_, h.symm⟩
  · exact .inr (finish_next h)

/-- A step out of reset (R30, R281). -/
theorem step_of_released {s : State} (hw : s.cfg.wf = true) (hr : s.rstN = .released) : step s = proceed s := by
  simp [step, hw, hr]

/-- A step in which `RST_n` falls (R280). -/
theorem step_of_falls {s t : State} {n : Nat} (hw : s.cfg.wf = true) (hr : s.rstN = .fallsAfter n)
    (h : proceed { s with rstN := .released } = .next t) : step s = .next (interrupt n s t) := by
  simp [step, hw, hr, h]

/-- `proceed` takes the next command word (R30). -/
theorem proceed_of_idle {s : State} {w : CmdWord} {rest : List CmdWord} (hq : s.seq = .idle) (hc : s.cmds = w :: rest) :
    proceed s = runWord w { s with cmds := rest } := by
  simp [proceed, hq, fetch, hc]

/-- Everything `proceed` can have done when it answers a next state: a waiting `WRBLK` gone on with, nothing, an illegal word
answered, or a command run. -/
theorem proceed_cases {s t : State} (h : proceed s = .next t) :
    (∃ a l p, s.seq = .busy (.wrblk a l) p ∧ t = writeBlock s.counters.ba s.counters.bc.toNat s) ∨
    (s.seq = .idle ∧ s.cmds = [] ∧ t = s) ∨
    (∃ w rest, s.seq = .idle ∧ s.cmds = w :: rest ∧
      ((∃ e, t = raiseError e { s with cmds := rest }) ∨
        ∃ i, decode w = .ok i ∧ exec i { s with cmds := rest } = .next t)) := by
  unfold proceed at h
  split at h
  · rename_i i p hq
    left
    cases i <;> simp only [resumeBlock, reduceCtorEq] at h
    exact ⟨_, _, p, hq, finish_next h⟩
  · rename_i hq
    right
    cases hc : s.cmds with
    | nil => simp [fetch, hq, hc] at h; exact .inl ⟨hq, rfl, h.symm⟩
    | cons w rest =>
      right
      have hf : fetch s = some (w, { s with cmds := rest }) := by unfold fetch; rw [hq, hc]
      rw [hf] at h
      simp only [runWord] at h
      refine ⟨w, rest, hq, rfl, ?_⟩
      cases hd : decode w with
      | ok i => rw [hd] at h; right; exact ⟨i, rfl, h⟩
      | error e => rw [hd] at h; simp at h; left; exact ⟨_, h.symm⟩

/-- Everything a step that answers a next state can have done: reset, what `proceed` does, or what reset leaves of that. -/
theorem step_cases {s t : State} (h : step s = .next t) :
    s.cfg.wf = true ∧ ((s.rstN = .asserted ∧ t = assertReset s) ∨ (s.rstN = .released ∧ proceed s = .next t) ∨
      ∃ n u, s.rstN = .fallsAfter n ∧ proceed { s with rstN := .released } = .next u ∧ t = interrupt n s u) := by
  unfold step at h
  split at h
  · cases h
  · rename_i hw
    refine ⟨by simpa using hw, ?_⟩
    split at h
    · rename_i hr
      exact .inl ⟨hr, by simpa using h.symm⟩
    · rename_i hr
      exact .inr (.inl ⟨hr, h⟩)
    · rename_i n hr
      split at h
      · rename_i u hu
        exact .inr (.inr ⟨n, u, hr, hu, by simpa using h.symm⟩)
      · cases h
      · cases h

/-! ### What every procedure keeps -/

/-- No procedure changes the part `g` of the state: the facts about the single operations. -/
structure Kept {β : Type} (g : State → β) : Prop where
  drive : ∀ p l s, g (drive p l s) = g s
  setMode : ∀ d s, g (setMode d s) = g s
  writeBus : ∀ b s, g (writeBus b s) = g s
  readBus : ∀ s, g (readBus s).2 = g s
  delay : ∀ d s, g (delay d s) = g s
  emit : ∀ d s, g (emit d s) = g s
  mirror : ∀ c i v s, g (writeMirrorBit c i v s) = g s
  fill : ∀ c w s, g (fillMirror c w s) = g s
  apin : ∀ (s : State) a, g { s with apin := a } = g s
  take : ∀ d w n s, g (takePayload d w n s) = g s
  counters : ∀ (s : State) n, g { s with counters := n } = g s
  retire : ∀ s, g (retireCounters s) = g s
  give : ∀ v s, g (givePayload v s) = g s
  respond : ∀ s d, g (respond d s) = g s
  raise : ∀ s e, g (raiseError e s) = g s
  accept : ∀ s i, g (accept i s) = g s

theorem Kept.flush {β : Type} {g : State → β} (k : Kept g) (c : ChainId) (s : State) : g (flush c s) = g s := by
  rw [Machine.flush, k.drive, foldl_keeps (sendBit c) g (fun s b => by rw [sendBit, k.drive, k.drive, k.drive]), k.drive]

theorem Kept.setAddress {β : Type} {g : State → β} (k : Kept g) (a : Addr) (s : State) : g (setAddress a s) = g s := by
  rw [Machine.setAddress, k.emit, k.delay, programBits, foldl_keeps (programBit a) g]
  intro s i
  rw [programBit]
  cases s.cfg.backend
  · exact (k.drive _ _ _).trans (k.apin _ _)
  · exact (k.flush _ _).trans (k.mirror _ _ _ _)
  · dsimp only; split
    · exact (k.flush _ _).trans (k.mirror _ _ _ _)
    · exact (k.flush _ _).trans (k.mirror _ _ _ _)
  · rfl

theorem Kept.readByte {β : Type} {g : State → β} (k : Kept g) (a : Addr) (s : State) : g (readByte a s).2 = g s := by
  simp only [Machine.readByte]
  rw [k.emit, k.drive, k.drive, k.readBus, k.delay, k.drive, k.drive, k.setMode, k.setAddress]

theorem Kept.writeByte {β : Type} {g : State → β} (k : Kept g) (a : Addr) (d : Byte) (s : State) : g (writeByte a d s) = g s := by
  have h : g (Machine.emit (.byteWritten a d) (writePulse a d s)) = g s := by
    rw [k.emit, writePulse, k.drive, k.drive, k.delay, k.drive, k.drive, k.writeBus, k.setMode, k.setAddress]
  simp only [Machine.writeByte]
  split
  · simp only [verifyByte]
    split
    · rw [k.readByte, h]
    · rw [k.emit, k.readByte, h]
  · exact h

theorem Kept.writeBlock {β : Type} {g : State → β} (k : Kept g) (n : Nat) (ba : Addr) (s : State) : g (writeBlock ba n s) = g s := by
  induction n generalizing ba s with
  | zero => rw [Machine.writeBlock, k.respond, k.retire]
  | succ n ih =>
    rw [Machine.writeBlock]
    split
    · rw [k.counters]
    · rw [ih, k.writeByte, k.take]

theorem Kept.readBlock {β : Type} {g : State → β} (k : Kept g) (n : Nat) (ba : Addr) (s : State) : g (readBlock ba n s) = g s := by
  induction n generalizing ba s with
  | zero => rw [Machine.readBlock, k.respond, k.retire]
  | succ n ih =>
    simp only [Machine.readBlock]
    rw [ih, k.give, k.readByte, k.counters]

/-- No command but `BEGIN` changes what every procedure keeps. -/
theorem Kept.exec {β : Type} {g : State → β} (k : Kept g) (i : Instr) (hi : i ≠ .begin) {s t : State} (h : exec i s = .next t) : g t = g s := by
  cases i <;> simp only [Machine.exec, execSetbit, execClrall, execSetall, execFlush, execSetaddr, execDmode, execDwrite, execDread,
      execWrbyte, execRdbyte, execWrblk, execRdblk] at h
  · exact absurd rfl hi
  all_goals
    rcases perform_next h with ⟨e, rfl⟩ | rfl
    · exact k.raise _ _
    · simp only [k.respond, k.flush, k.mirror, k.fill, k.setAddress, k.setMode, k.writeBus, k.readBus, k.writeByte, k.readByte, k.writeBlock, k.readBlock, k.accept]

theorem kept_cfg : Kept State.cfg := by
  constructor <;> intros <;> first | rfl | simp

theorem kept_init : Kept State.init := by
  constructor <;> intros <;> first | rfl | simp

theorem beginSteps_cfg (s : State) : (beginSteps s).cfg = s.cfg := by
  have h : ∀ s, (beginAddress s).cfg = s.cfg := by
    intro s
    unfold beginAddress
    cases s.cfg.backend
    · exact foldl_keeps (fun s (i : Fin 15) => drive (.apin i) (s.apin.getLsbD i) s) State.cfg (fun s i => by simp) _ s
    all_goals simp
  have e : ∀ (s t : State), ({ (if s.init then t else forgetMemory t) with init := true } : State).cfg = t.cfg := by
    intro s t; cases s.init <;> rfl
  simp only [beginSteps]
  have := e s (beginAddress (setMode .input (drive .weN true (drive .oeN true (drive .ceN true s)))))
  rw [h, setMode_cfg, drive_cfg, drive_cfg, drive_cfg] at this
  exact this

end Sys2Proof.Machine
end

