-- ==== Sys2Proof/Laws/Reset.lean ====
section
/-!
SUPPORT. What the events of a record, done again, do (70_reset_and_hazards.md rule R280): to the ports, exactly what the record
says; to the memory, nothing but the write rule of 20_memory.md rule R64.
-/

namespace Sys2Proof.Machine

/-! ### The ports -/

@[simp] theorem setMode_trace (d : Dir) (s : State) : (setMode d s).trace = s.trace ++ [.mode d] := by simp [setMode]

@[simp] theorem writeBus_trace (b : Byte) (s : State) : (writeBus b s).trace = s.trace ++ [.data b] := by
  unfold writeBus; cases s.ddir <;> simp

@[simp] theorem takenBytes_nil : takenBytes [] = 0 := rfl
@[simp] theorem givenBytes_nil : givenBytes [] = [] := rfl
theorem takenBytes_append (a b : List Event) : takenBytes (a ++ b) = takenBytes a + takenBytes b := by simp [takenBytes]
theorem givenBytes_append (a b : List Event) : givenBytes (a ++ b) = givenBytes a ++ givenBytes b := by
  simp [givenBytes]

/-- What a record done again leaves at the ports: the record itself, and what it takes, sends and reports. -/
structure Replayed (es : List Event) (s t : State) : Prop where
  cfg : t.cfg = s.cfg
  rsp : t.rsp = s.rsp
  memEpoch : t.memEpoch = s.memEpoch
  trace : t.trace = s.trace ++ es
  diag : t.diag = s.diag ++ reports es
  wd : t.wd = s.wd.drop (takenBytes es)
  rd : t.rd = s.rd ++ givenBytes es

theorem replayed_event (e : Event) (s : State) : Replayed [e] s (replayEvent s e) := by
  cases e <;> constructor <;> first
    | rfl
    | simp [replayEvent, record, givePayload, takenBytes, givenBytes]

theorem replayed (es : List Event) (s : State) : Replayed es s (replay es s) := by
  induction es generalizing s with
  | nil => constructor <;> simp [replay]
  | cons e es ih =>
    have h1 := replayed_event e s
    have h2 := ih (replayEvent s e)
    have hr : replay (e :: es) s = replay es (replayEvent s e) := rfl
    have hc : e :: es = [e] ++ es := rfl
    rw [hr, hc]
    exact ⟨h2.cfg.trans h1.cfg, h2.rsp.trans h1.rsp, h2.memEpoch.trans h1.memEpoch, by rw [h2.trace, h1.trace]; simp,
      by rw [h2.diag, h1.diag, List.append_assoc, reports_append], by rw [h2.wd, h1.wd, takenBytes_append, List.drop_drop],
      by rw [h2.rd, h1.rd, givenBytes_append, List.append_assoc]⟩

theorem replay_append (a b : List Event) (s : State) : replay (a ++ b) s = replay b (replay a s) := by
  simp [replay]

/-! ### The write interval -/

/-- The memory device has seen a write interval open exactly when its enables say so (R64). -/
def PulseSeen (s : State) : Prop := s.pulse = .off ↔ deviceAccepts s = false

theorem pulseSeen_of_ready {s : State} (h : s.Ready) : PulseSeen s := by
  simp [PulseSeen, h.1.2.2.2.2.2.1, deviceAccepts, h.2.2.1.1]

theorem deviceAccepts_congr {s t : State} (h1 : t.ceN = s.ceN) (h2 : t.weN = s.weN) :
    deviceAccepts t = deviceAccepts s := by simp [deviceAccepts, h1, h2]

theorem noteHazard_pulse (h : Hazard) (s : State) :
    (noteHazard h s).pulse = s.pulse ∧ (noteHazard h s).mem = s.mem ∧ (noteHazard h s).ceN = s.ceN ∧
      (noteHazard h s).weN = s.weN := by
  unfold noteHazard; split <;> exact ⟨rfl, rfl, rfl, rfl⟩

/-- The reaction opens the interval, leaves it, or closes it, as the enables say (R64). -/
theorem react_pulse {before s : State} (hb : PulseSeen before) (hs : s.pulse = before.pulse) : PulseSeen (react before s) := by
  have key : (react before s).pulse = (reactWrite before s).pulse := by
    simp only [react]; split
    · exact (noteHazard_pulse _ _).1
    · rfl
  rw [PulseSeen, key, deviceAccepts_congr (react_ceN before s) (react_weN before s)]
  unfold reactWrite
  cases h1 : deviceAccepts before <;> cases h2 : deviceAccepts s
  · simp [hs, hb.2 h1]
  · simp only [openPulse]; split <;> simp
  · simp only [commitPulse]; split
    · simp [memWrite]
    · simp [(noteHazard_pulse _ _).1]
  · have : before.pulse ≠ .off := fun h => by rw [hb.1 h] at h1; cases h1
    simp only [watchPulse]; split <;> simp [hs, this]

theorem setMode_pulseSeen (d : Dir) {s : State} (h : PulseSeen s) : PulseSeen (setMode d s) := react_pulse h rfl

theorem writeBus_pulseSeen (b : Byte) {s : State} (h : PulseSeen s) : PulseSeen (writeBus b s) := by
  unfold writeBus; cases s.ddir
  · exact h
  · exact react_pulse h rfl

theorem drive_pulseSeen (p : Pin) (l : Bool) {s : State} (h : PulseSeen s) : PulseSeen (drive p l s) :=
  react_pulse h (by simp)

theorem replayEvent_pulseSeen (e : Event) {s : State} (h : PulseSeen s) : PulseSeen (replayEvent s e) := by
  cases e with
  | drive p l => exact drive_pulseSeen p l h
  | mode d => exact setMode_pulseSeen d h
  | data b => exact writeBus_pulseSeen b h
  | _ => exact h

theorem replay_pulseSeen (es : List Event) {s : State} (h : PulseSeen s) : PulseSeen (replay es s) := by
  induction es generalizing s with
  | nil => exact h
  | cons e es ih => exact ih (replayEvent_pulseSeen e h)

/-- Only a control line's own event moves it. -/
theorem setPin_control_of_ne {p : Pin} (l : Bool) (s : State) :
    (p ≠ .ceN → (setPin p l s).ceN = s.ceN) ∧ (p ≠ .weN → (setPin p l s).weN = s.weN) := by
  cases p <;> simp [setPin]

theorem drive_control_of_ne {p : Pin} (l : Bool) (s : State) :
    (p ≠ .ceN → (drive p l s).ceN = s.ceN) ∧ (p ≠ .weN → (drive p l s).weN = s.weN) := by
  refine ⟨fun h => ?_, fun h => ?_⟩ <;> simp only [drive, react_ceN, react_weN]
  · exact (setPin_control_of_ne l _).1 h
  · exact (setPin_control_of_ne l _).2 h

theorem replayEvent_control {e : Event} (s : State) :
    ((∀ l, e ≠ .drive .ceN l) → (replayEvent s e).ceN = s.ceN) ∧
      ((∀ l, e ≠ .drive .weN l) → (replayEvent s e).weN = s.weN) := by
  cases e with
  | drive p l =>
    refine ⟨fun h => (drive_control_of_ne l s).1 fun hp => h l (by rw [hp]),
      fun h => (drive_control_of_ne l s).2 fun hp => h l (by rw [hp])⟩
  | mode d => simp [replayEvent]
  | data b => simp [replayEvent]
  | _ => simp [replayEvent, record, givePayload]

/-- A record that moves neither enable leaves both. -/
theorem replay_control (es : List Event) (s : State) :
    ((∀ l, .drive .ceN l ∉ es) → (replay es s).ceN = s.ceN) ∧ ((∀ l, .drive .weN l ∉ es) → (replay es s).weN = s.weN) := by
  induction es generalizing s with
  | nil => exact ⟨fun _ => rfl, fun _ => rfl⟩
  | cons e es ih =>
    have h1 := replayEvent_control (e := e) s
    have h2 := ih (replayEvent s e)
    exact ⟨fun h => (h2.1 fun l hl => h l (.tail _ hl)).trans (h1.1 fun l hl => h l (hl ▸ .head _)),
      fun h => (h2.2 fun l hl => h l (.tail _ hl)).trans (h1.2 fun l hl => h l (hl ▸ .head _))⟩

/-- Inside a write interval that the record has opened, the device has seen it. -/
theorem replay_in_pulse {s : State} (h : PulseSeen s) (xs ys : List Event)
    (hy : ∀ l, .drive .ceN l ∉ ys ∧ .drive .weN l ∉ ys) :
    (replay (xs ++ [.drive .ceN false, .drive .weN false] ++ ys) s).pulse ≠ .off := by
  have hp := replay_pulseSeen (xs ++ [.drive .ceN false, .drive .weN false] ++ ys) h
  intro h0
  have ha := hp.1 h0
  rw [replay_append, replay_append] at ha
  have hc := replay_control ys (replay [.drive .ceN false, .drive .weN false] (replay xs s))
  rw [deviceAccepts_congr (hc.1 fun l => (hy l).1) (hc.2 fun l => (hy l).2)] at ha
  have e1 : (drive .weN false (drive .ceN false (replay xs s))).ceN = .low := by
    rw [(drive_control_of_ne false _).1 (by simp)]; simp [drive, setPin, levelOf]
  have e2 : (drive .weN false (drive .ceN false (replay xs s))).weN = .low := by simp [drive, setPin, levelOf]
  have e : deviceAccepts (replay [.drive .ceN false, .drive .weN false] (replay xs s)) = true := by
    show deviceAccepts (drive .weN false (drive .ceN false (replay xs s))) = true
    simp [deviceAccepts, e1, e2]
  rw [e] at ha; cases ha

/-! ### The cells -/

/-- No interval open before, none after: no cell is written (R64). -/
theorem react_mem_of_closed {before s : State} (h : deviceAccepts before = false) : (react before s).mem = s.mem := by
  have key : (reactWrite before s).mem = s.mem := by
    unfold reactWrite
    rw [h]
    split
    · simp only [openPulse]
    · rename_i hh _; cases hh
    · rename_i hh _; cases hh
    · rfl
  simp only [react]; split
  · rw [(noteHazard_pulse _ _).2.1, key]
  · exact key

/-- An event that does not lower write-enable, with write-enable not low: no cell is written. -/
theorem replayEvent_quiet {e : Event} {s : State} (h : s.weN ≠ .low) (he : e ≠ .drive .weN false) :
    (replayEvent s e).mem = s.mem ∧ (replayEvent s e).weN ≠ .low := by
  have ha : deviceAccepts s = false := by simp [deviceAccepts, h]
  cases e with
  | drive p l =>
    refine ⟨?_, ?_⟩
    · simp only [replayEvent, drive, react_mem_of_closed ha, setPin_mem]; rfl
    · by_cases hp : p = .weN
      · subst hp
        cases l
        · exact absurd rfl he
        · simp [replayEvent, drive, setPin, levelOf]
      · rw [replayEvent, (drive_control_of_ne l s).2 hp]; exact h
  | mode d => exact ⟨react_mem_of_closed ha, by simpa [replayEvent] using h⟩
  | data b =>
    refine ⟨?_, by simpa [replayEvent] using h⟩
    simp only [replayEvent, writeBus]
    cases s.ddir
    · rfl
    · exact react_mem_of_closed ha
  | _ => exact ⟨rfl, h⟩

/-- A record in which write-enable never falls writes no cell and opens no interval. -/
theorem replay_quiet (es : List Event) {s : State} (h : s.weN ≠ .low) (he : .drive .weN false ∉ es) :
    (replay es s).mem = s.mem ∧ (replay es s).weN ≠ .low := by
  induction es generalizing s with
  | nil => exact ⟨rfl, h⟩
  | cons e es ih =>
    simp only [List.mem_cons, not_or] at he
    obtain ⟨h1, h2⟩ := replayEvent_quiet h (Ne.symm he.1)
    obtain ⟨h3, h4⟩ := ih h2 he.2
    exact ⟨h3.trans h1, h4⟩

/-- A number shown on `n` lines is below `2^n`. -/
theorem lineValue_lt {l : List Level} {n : Nat} (h : lineValue l = some n) : n < 2 ^ l.length := by
  induction l generalizing n with
  | nil => simp [lineValue] at h; subst h; simp
  | cons x t ih =>
    cases x with
    | unknown => simp [lineValue] at h
    | _ =>
      simp only [lineValue, Option.map_eq_some_iff] at h
      obtain ⟨m, hm, rfl⟩ := h
      have := ih hm
      rw [List.length_cons, Nat.pow_succ]; omega

/-- What keeps every shown address inside the memory (R21, R60). -/
def Addressable (s : State) : Prop := s.cfg.wf = true ∧ s.apinPins.length = 15

theorem shownAddress_lt {s : State} (h : Addressable s) {a : Nat} (ha : shownAddress s = some a) : a < 32768 := by
  have hl : (addressLines s).length ≤ 15 := by
    unfold addressLines
    rcases wf_cases h.1 with ⟨hb, -⟩ | ⟨hb, -⟩ | ⟨hb, h1, h2, -⟩ <;> rw [hb]
    · exact Nat.le_of_eq h.2
    · simp only [List.length_take]; omega
    · simp only [List.length_append, List.length_take]; omega
  exact Nat.lt_of_lt_of_le (lineValue_lt ha) (Nat.pow_le_pow_right (by decide) hl)

/-- The reaction keeps the canonical form. -/
theorem react_keeps_wf {before s : State} (hb : Addressable before) (h : Memory.wf s.mem = true) :
    Memory.wf (react before s).mem = true := by
  have key : Memory.wf (reactWrite before s).mem = true := by
    unfold reactWrite
    split
    · exact h
    · simp only [watchPulse]; split <;> exact h
    · simp only [commitPulse]; split
      · rename_i a d _ ha _
        exact storeCell_keeps_wf _ _ _ (shownAddress_lt hb ha) h
      · rw [(noteHazard_pulse _ _).2.1]; exact h
    · exact h
  simp only [react]; split
  · rw [(noteHazard_pulse _ _).2.1]; exact key
  · exact key

theorem replayEvent_keeps_wf (e : Event) {s : State} (hb : Addressable s) (h : Memory.wf s.mem = true) :
    Addressable (replayEvent s e) ∧ Memory.wf (replayEvent s e).mem = true := by
  cases e with
  | drive p l =>
    refine ⟨⟨by simpa [replayEvent] using hb.1, ?_⟩, react_keeps_wf hb (by simpa using h)⟩
    have : (setPin p l { record (.drive p l) s with seq := advance s.seq }).apinPins.length = s.apinPins.length := by
      cases p <;> simp [setPin]
    simp only [replayEvent, drive, react_apinPins, this, hb.2]
  | mode d => exact ⟨⟨by simpa [replayEvent] using hb.1, by simpa [replayEvent] using hb.2⟩, react_keeps_wf hb h⟩
  | data b =>
    refine ⟨⟨by simpa [replayEvent] using hb.1, by simpa [replayEvent] using hb.2⟩, ?_⟩
    simp only [replayEvent, writeBus]
    cases s.ddir
    · exact h
    · exact react_keeps_wf hb h
  | _ => exact ⟨hb, h⟩

/-- A record done again keeps the memory's canonical form. -/
theorem replay_keeps_wf (es : List Event) {s : State} (hb : Addressable s) (h : Memory.wf s.mem = true) :
    Memory.wf (replay es s).mem = true := by
  induction es generalizing s with
  | nil => exact h
  | cons e es ih =>
    obtain ⟨h1, h2⟩ := replayEvent_keeps_wf e hb h
    exact ih h1 h2

/-! ### Reset -/

theorem abandonPulse_keeps_wf {s : State} (h : Memory.wf s.mem = true) : Memory.wf (abandonPulse s).mem = true := by
  unfold abandonPulse; split
  · exact h
  · rfl
  · rfl

/-- Reset as one equation over the reset state (R280). -/
theorem assertReset_eq (s : State) :
    assertReset s =
      { State.resetFor s.cfg with
        rstN := .asserted
        counters := deadCounters s.draws
        dout := Config.freeByte s.draws
        draws := s.draws + 1
        mem := (abandonPulse s).mem
        memEpoch := (abandonPulse s).memEpoch
        cmds := s.cmds
        wd := s.wd
        rd := s.rd
        rsp := s.rsp
        diag := s.diag
        trace := s.trace } := by
  unfold assertReset abandonPulse
  cases s.pulse <;> rfl

/-- Reset leaves a block that waits for its `BEGIN`. -/
theorem assertReset_beforeBegin {s : State} (hw : s.cfg.wf = true) (hm : Memory.wf s.mem = true) :
    (assertReset s).BeforeBegin := by
  rw [assertReset_eq]
  exact ⟨⟨hw, by simp [chainShape, State.resetFor, Chain.reset], by simp [chainShape, State.resetFor, Chain.reset],
    by simp [State.resetFor], abandonPulse_keeps_wf hm, rfl, rfl⟩, rfl, rfl, rfl, rfl, rfl, rfl⟩

/-- What the step leaves when `RST_n` falls inside it, after `n` of the entries `es` (R280). -/
theorem interrupt_eq (n : Nat) {s t : State} {es : List Event} (h : t.trace = s.trace ++ es) :
    interrupt n s t =
      if n ≤ es.length then assertReset { replay (es.take n) s with cmds := t.cmds, draws := t.draws }
      else { t with rstN := .asserted } := by
  simp [interrupt, h]

end Sys2Proof.Machine
end

