-- ==== Sys2Proof/Tests/Slice0.lean ====
section
/-!
SUPPORT. Small tests, their expected results from spec/95_test_vectors.md and the worked examples of the rules, and for
every statement with hypotheses a state and operands that meet them. The configurations are those of
95_test_vectors.md, with delays 3, 2 and 1.
-/

namespace Sys2Proof.Tests

open Sys2Proof Sys2Proof.Machine

-- one theorem after another: a kernel evaluation here waits for every earlier one, and the waiting threads add up
set_option Elab.async false

/-! ### The configurations of 95_test_vectors.md, and states built from them -/

/-- `CD`. -/
def cd : Cfg := ⟨.direct, 0, 0, 0, false, 3, 2, 1⟩

/-- `C1`. -/
def c1 : Cfg := ⟨.chain1, 15, 2, 0, false, 3, 2, 1⟩

/-- `C2`. -/
def c2 : Cfg := ⟨.chain2, 8, 1, 1, false, 3, 2, 1⟩

/-- `C2V`. -/
def c2v : Cfg := ⟨.chain2, 8, 1, 1, true, 3, 2, 1⟩

/-- `C2a`. -/
def c2a : Cfg := ⟨.chain2, 3, 1, 2, false, 3, 2, 1⟩

/-- `C2b`. -/
def c2b : Cfg := ⟨.chain2, 14, 2, 1, false, 3, 2, 1⟩

/-- A block of configuration `c` after the first `BEGIN`, nothing sent or received. -/
def ready (c : Cfg) : State :=
  { State.resetFor c with
    init := true
    chain1 := if chainExists c .one then settledChain (List.replicate c.n1 0x00#8) else Chain.reset c.n1
    chain2 := if chainExists c .two then settledChain (List.replicate c.n2 0x00#8) else Chain.reset c.n2
    apinPins := if c.backend = .direct then addressLevels 0#15 else List.replicate 15 .unknown
    ceN := .high
    oeN := .high
    weN := .high
    memEpoch := 1 }

/-- `s` with chain `c` settled to the mirror `m`. -/
def settled (s : State) (c : ChainId) (m : List Byte) : State := s.setChain c (settledChain m)

/-- A block of configuration `c` in a `WRBLK` with `n` bytes to come, the next to address `a`. -/
def awaiting (c : Cfg) (a : Addr) (n : Len) : State :=
  { ready c with seq := .busy (.wrblk a n) 0, counters := ⟨a, n⟩ }

/-- Inside the write interval of `CD`: chip-enable and write-enable low, address 0 shown, the byte 0x5A driven. -/
def inPulse (p : Pulse) : State :=
  { ready cd with ceN := .low, weN := .low, ddir := .output, dout := 0x5A#8, pulse := p }

/-- Inside the read interval of `CD`: chip-enable and output-enable low, 0x3C in cell 0. -/
def inRead : State := { ready cd with ceN := .low, oeN := .low, mem := [(0, 0x3C#8)] }

/-- The next state of an outcome, when it has one. -/
def nextOf : Host.Outcome State Fault Refusal → Option State
  | .next t => some t
  | .fault _ | .refused _ => none

/-- An outcome whose next state exists is that next state. -/
theorem exists_next {o : Host.Outcome State Fault Refusal} (h : (nextOf o).isSome = true) : ∃ t, o = .next t := by
  cases o with
  | next t => exact ⟨t, rfl⟩
  | fault _ => simp [nextOf] at h
  | refused _ => simp [nextOf] at h

/-- An outcome whose next state passes a test. -/
theorem exists_next_with {o : Host.Outcome State Fault Refusal} {p : State → Bool} (h : (nextOf o).any p = true) :
    ∃ t, o = .next t ∧ p t = true := by
  cases o with
  | next t => exact ⟨t, rfl, h⟩
  | fault _ => simp [nextOf] at h
  | refused _ => simp [nextOf] at h

/-- A field of the next state. -/
def result {α : Type} (i : Instr) (s : State) (f : State → α) : Option α := (nextOf (exec i s)).map f

/-- The number the outputs of chain `c` show, as 95_test_vectors.md writes `OUT_c`. -/
def outputs (c : ChainId) (s : State) : Option Nat := lineValue (s.chain c).out

/-! ### Well-formedness: one ill-formed term for each check -/

theorem test_wf_backend_present_refuses :
    Cfg.backendPresent ⟨.unsupplied, 0, 0, 0, false, 3, 2, 1⟩ = false ∧
      Cfg.wf ⟨.unsupplied, 0, 0, 0, false, 3, 2, 1⟩ = false := by decide

theorem test_wf_k_in_range_refuses :
    Cfg.kInRange { cd with k := 1 } = false ∧ Cfg.kInRange { c1 with k := 14 } = false ∧
      Cfg.kInRange { c2 with k := 0 } = false ∧ Cfg.kInRange { c2 with k := 15 } = false ∧
      Cfg.wf { c1 with k := 14 } = false := by decide

theorem test_wf_chain1_wide_enough_refuses :
    Cfg.chain1WideEnough { c1 with n1 := 1 } = false ∧ Cfg.wf { c1 with n1 := 1 } = false := by decide

theorem test_wf_chain2_wide_enough_refuses :
    Cfg.chain2WideEnough { c2a with n2 := 1 } = false ∧ Cfg.wf { c2a with n2 := 1 } = false := by decide

theorem test_wf_bank_count_in_range_refuses :
    Cfg.bankCountInRange { c1 with n1 := 33 } = false ∧ Cfg.bankCountInRange { c1 with n2 := 1 } = false ∧
      Cfg.bankCountInRange { cd with n1 := 1 } = false ∧ Cfg.wf { c1 with n1 := 33 } = false := by decide

theorem test_wf_accepts_the_spec_configurations :
    cd.wf = true ∧ c1.wf = true ∧ c2.wf = true ∧ c2v.wf = true ∧ c2a.wf = true ∧ c2b.wf = true ∧
      Config.chosen.wf = true := by decide

/-- R97: a pair whose list has another length is not a command. -/
theorem test_wf_payload_length :
    Command.wf ⟨.wrblk 0x0100#15 2#16, [0xAA#8]⟩ = false ∧ Command.wf ⟨.dread, [0xAA#8]⟩ = false ∧
      Command.wf ⟨.wrblk 0x0100#15 2#16, [0xAA#8, 0xBB#8]⟩ = true := by decide

/-! ### Decoding: words written bit by bit from R94 -/

theorem test_decode_begin :
    decode 0b0001_0_0_00_00000000_0000000000000000_0_000000000000000#48 = .ok .begin := by decide

theorem test_decode_setbit :
    decode 0b0010_0_1_00_00001001_0000000000000000_0_000000000000000#48 = .ok (.setbit .one 9#8 true) ∧
      decode 0b0010_1_0_00_11001000_0000000000000000_0_000000000000000#48 = .ok (.setbit .two 200#8 false) := by
  decide

theorem test_decode_clrall :
    decode 0b0011_0_0_00_00000000_0000000000000000_0_000000000000000#48 = .ok (.clrall .one) ∧
      decode 0b0011_1_0_00_00000000_0000000000000000_0_000000000000000#48 = .ok (.clrall .two) := by decide

theorem test_decode_setall :
    decode 0b0100_0_0_00_00000000_0000000000000000_0_000000000000000#48 = .ok (.setall .one) ∧
      decode 0b0100_1_0_00_00000000_0000000000000000_0_000000000000000#48 = .ok (.setall .two) := by decide

theorem test_decode_flush :
    decode 0b0101_0_0_00_00000000_0000000000000000_0_000000000000000#48 = .ok (.flush .one) ∧
      decode 0b0101_1_0_00_00000000_0000000000000000_0_000000000000000#48 = .ok (.flush .two) := by decide

theorem test_decode_setaddr :
    decode 0b0110_0_0_00_00000000_0000000000000000_0_000000110000000#48 = .ok (.setaddr 0x0180#15) ∧
      decode 0b0110_0_0_00_00000000_0000000000000000_0_111111111111111#48 = .ok (.setaddr 0x7FFF#15) := by decide

theorem test_decode_dmode :
    decode 0b0111_0_0_00_00000000_0000000000000000_0_000000000000000#48 = .ok (.dmode .input) ∧
      decode 0b0111_0_1_00_00000000_0000000000000000_0_000000000000000#48 = .ok (.dmode .output) := by decide

theorem test_decode_dwrite :
    decode 0b1000_0_0_00_01011010_0000000000000000_0_000000000000000#48 = .ok (.dwrite 0x5A#8) := by decide

theorem test_decode_dread :
    decode 0b1001_0_0_00_00000000_0000000000000000_0_000000000000000#48 = .ok .dread := by decide

theorem test_decode_wrbyte :
    decode 0b1010_0_0_00_10101010_0000000000000000_0_000000100000000#48 = .ok (.wrbyte 0x0100#15 0xAA#8) := by decide

theorem test_decode_rdbyte :
    decode 0b1011_0_0_00_00000000_0000000000000000_0_000000100000000#48 = .ok (.rdbyte 0x0100#15) := by decide

theorem test_decode_wrblk :
    decode 0b1100_0_0_00_00000000_0000000000000100_0_111111111111110#48 = .ok (.wrblk 0x7FFE#15 4#16) ∧
      decode 0b1100_0_0_00_00000000_1111111111111111_0_111111111111111#48 = .ok (.wrblk 0x7FFF#15 65535#16) := by
  decide

theorem test_decode_rdblk :
    decode 0b1101_0_0_00_00000000_0000000000000110_0_000000100000000#48 = .ok (.rdblk 0x0100#15 6#16) := by decide

/-- 95_test_vectors.md section 2.1, the illegal words. -/
theorem test_decode_illegal_words :
    decode 0x000000000000#48 = .error (.reservedOpcode 0x0#4) ∧
      decode 0xE00000000000#48 = .error (.reservedOpcode 0xE#4) ∧
      decode 0xFFFFFFFFFFFF#48 = .error (.reservedOpcode 0xF#4) ∧
      decode 0x100000000001#48 = .error .unusedField ∧ decode 0x600000008000#48 = .error .reservedBits ∧
      decode 0x340000000000#48 = .error .unusedField ∧ decode 0x210000000000#48 = .error .reservedBits ∧
      decode 0x220000000000#48 = .error .reservedBits ∧ decode 0x2FFF00000000#48 = .error .reservedBits ∧
      decode 0x500000008000#48 = .error .reservedBits ∧ decode 0x780000000000#48 = .error .unusedField ∧
      decode 0x8C5A00000000#48 = .error .unusedField ∧ decode 0x900000000001#48 = .error .unusedField ∧
      decode 0xA0AA00010100#48 = .error .unusedField ∧ decode 0xB0FF00000100#48 = .error .unusedField := by decide

/-- 95_test_vectors.md section 2.1, the encodings. -/
theorem test_encode_vectors :
    encode (.setbit .one 255#8 true) = 0x24FF00000000#48 ∧ encode (.setbit .one 15#8 false) = 0x200F00000000#48 ∧
      encode (.clrall .two) = 0x380000000000#48 ∧ encode (.flush .two) = 0x580000000000#48 ∧
      encode (.dwrite 0xFF#8) = 0x80FF00000000#48 ∧ encode (.wrblk 0x0100#15 0#16) = 0xC00000000100#48 ∧
      encode (.wrblk 0x7FFF#15 65535#16) = 0xC000FFFF7FFF#48 ∧
      encode (.rdblk 0x0100#15 6#16) = 0xD00000060100#48 := by decide

/-- A table row is read with the bits the table numbers (log entry 17). -/
theorem test_decode_table_word :
    decodeTableWord 48 0x2C0000000000 = some (.setbit .two 0#8 true) ∧ decodeTableWord 48 0 = none := by decide

/-! ### The commands, one step each, against 95_test_vectors.md -/

/-- M2: `BEGIN` under `CD` has 18 pin events, under `C1` 54, under `C2` 57. -/
theorem test_begin_events :
    result .begin (State.resetFor cd) (fun t => pinEvents t.trace) = some 18 ∧
      result .begin (State.resetFor c1) (fun t => pinEvents t.trace) = some 54 ∧
      result .begin (State.resetFor c2) (fun t => pinEvents t.trace) = some 57 := by decide +kernel

/-- R191: after reset `BEGIN` leaves the lines idle, `A = 0x0000`, and every output of the banks at 0. -/
theorem test_begin_settles :
    result .begin (State.resetFor c1) (fun t => ([t.ceN, t.oeN, t.weN], shownAddress t, outputs .one t, t.rsp)) =
      some ([.high, .high, .high], some 0, some 0, [0x8000#16]) := by decide +kernel

/-- V-CH4 step 2: `SETBIT 1, 15, 1` on the mirror `0x02`, `0x00`. -/
theorem test_setbit_last_index :
    result (.setbit .one 15#8 true) (settled (ready c1) .one [0x00#8, 0x02#8])
      (fun t => (t.chain1.mirror, outputs .one t, t.rsp)) =
      some ([0x00#8, 0x82#8], some 0x8200, [0x8000#16]) := by decide +kernel

/-- V-CH4 step 6: `SETBIT 1, 16, 1` answers `IndexRange` and changes nothing. -/
theorem test_setbit_past_last_index :
    result (.setbit .one 16#8 true) (settled (ready c1) .one [0x01#8, 0x80#8])
      (fun t => (t.chain1.mirror, outputs .one t, t.rsp, t.trace)) =
      some ([0x01#8, 0x80#8], some 0x8001, [0x0400#16], []) := by decide +kernel

/-- V-CH5 step 3: `CLRALL 2` with both chains full leaves `A = 0x00FF`. -/
theorem test_clrall_shows_low_chain :
    result (.clrall .two) (settled (settled (ready c2) .one [0xFF#8]) .two [0xFF#8])
      (fun t => (t.chain2.mirror, shownAddress t, t.rsp)) = some ([0x00#8], some 0x00FF, [0x8000#16]) := by
  decide +kernel

/-- V-CH5 step 1: `SETALL 2` shows `A = 0x7F00` and sets the surplus output too. -/
theorem test_setall_shows_high_chain :
    result (.setall .two) (ready c2) (fun t => (outputs .two t, shownAddress t, t.rsp)) =
      some (some 0xFF, some 0x7F00, [0x8000#16]) := by decide +kernel

/-- V-CH1: `FLUSH 1` of the mirror `0x1234` has 50 pin events and shows `0x1234`. -/
theorem test_flush_shows_mirror :
    result (.flush .one) (settled (ready c1) .one [0x34#8, 0x12#8])
      (fun t => (outputs .one t, t.chain1.ser, t.chain1.sck, t.chain1.lat, pinEvents t.trace)) =
      some (some 0x1234, .low, .low, .high, 50) := by decide +kernel

/-- V-CH1: the stream is `00010010 00110100`. V-CH2: three banks. -/
theorem test_flush_stream :
    serialStream [0x34#8, 0x12#8] = [false, false, false, true, false, false, true, false,
      false, false, true, true, false, true, false, false] ∧
    (serialStream [0xA5#8, 0x3C#8, 0x81#8]).take 8 = [true, false, false, false, false, false, false, true] := by
  decide

/-- S2 and V-AD4: `SETADDR 0x0100` beside a surplus bit of chain 2. -/
theorem test_setaddr_keeps_surplus_bit :
    result (.setaddr 0x0100#15) (settled (ready c2) .two [0x80#8])
      (fun t => (t.chain1.mirror, t.chain2.mirror, outputs .two t, shownAddress t)) =
      some ([0x00#8], [0x81#8], some 0x81, some 0x0100) := by decide +kernel

/-- V-AD3: `SETADDR 0x5A5A` under `C2a`. -/
theorem test_setaddr_other_split :
    result (.setaddr 0x5A5A#15) (ready c2a)
      (fun t => (t.chain1.mirror, t.chain2.mirror, shownAddress t)) =
      some ([0x02#8], [0x4B#8, 0x0B#8], some 0x5A5A) := by decide +kernel

/-- 95_test_vectors.md section 2.4, steps 7 and 8: `DOUT` keeps its value over a mode change. -/
theorem test_dmode_keeps_dout :
    result (.dmode .output) { ready cd with dout := 0xFF#8 } (fun t => (t.ddir, t.dout, dataLines t, t.rsp)) =
      some (.output, 0xFF#8, some 0xFF#8, [0x8000#16]) := by decide +kernel

/-- 95_test_vectors.md section 2.4, step 4. -/
theorem test_dwrite_in_output_mode :
    result (.dwrite 0x5A#8) { ready cd with ddir := .output } (fun t => (t.dout, dataLines t, t.rsp)) =
      some (0x5A#8, some 0x5A#8, [0x8000#16]) := by decide +kernel

/-- 95_test_vectors.md section 2.4, step 2: the byte of a `DWRITE` in input mode is a draw. -/
theorem test_dwrite_in_input_mode :
    result (.dwrite 0x5A#8) (ready cd) (fun t => t.dout) = some (Config.freeByte 1) := by rfl

/-- 95_test_vectors.md section 2.4, step 5: `DREAD` in output mode answers a draw, not `DOUT`. -/
theorem test_dread_in_output_mode :
    result .dread { ready cd with ddir := .output, dout := 0x5A#8 } (fun t => t.rsp) =
      some [0x80#8 ++ Config.freeByte 1] := by rfl

/-- M1: the events of `WRBYTE 0x0100, 0xAA` under `CD` after the 15 of the address. -/
theorem test_wrbyte_events :
    result (.wrbyte 0x0100#15 0xAA#8) (ready cd) (fun t => (t.mem, t.rsp, t.trace.drop 15)) =
      some ([(0x0100, 0xAA#8)], [0x8000#16],
        [.delay .addressSettle 3, .report (.addrSet 0x0100#15), .mode .output, .data 0xAA#8, .drive .ceN false,
          .drive .weN false, .delay .writePulse 2, .drive .weN true, .drive .ceN true,
          .report (.byteWritten 0x0100#15 0xAA#8)]) := by decide +kernel

/-- M4: verification reads the byte back, warns of nothing, and leaves input mode. -/
theorem test_wrbyte_verified :
    result (.wrbyte 0x0005#15 0x3C#8) (ready { cd with verify := true })
      (fun t => (t.mem, t.ddir, pinEvents t.trace, t.diag)) =
      some ([(0x0005, 0x3C#8)], .input, 38,
        [.addrSet 0x0005#15, .byteWritten 0x0005#15 0x3C#8, .addrSet 0x0005#15, .byteRead 0x0005#15 0x3C#8]) := by
  decide +kernel

/-- M1: `RDBYTE 0x0100` answers `0x80AA` and its events; R70: line 0 is sampled first. -/
theorem test_rdbyte_events :
    result (.rdbyte 0x0100#15) { ready cd with ddir := .output, mem := [(0x0100, 0xAA#8)] }
      (fun t => (t.mem, t.rsp, t.ddir, t.trace.drop 15)) =
      some ([(0x0100, 0xAA#8)], [0x80AA#16], .input,
        [.delay .addressSettle 3, .report (.addrSet 0x0100#15), .mode .input, .drive .ceN false, .drive .oeN false,
          .delay .readHold 1, .sample 0 false, .sample 1 true, .sample 2 false, .sample 3 true, .sample 4 false,
          .sample 5 true, .sample 6 false, .sample 7 true, .drive .oeN true, .drive .ceN true,
          .report (.byteRead 0x0100#15 0xAA#8)]) := by decide +kernel

/-- M7: an unwritten cell answers its arbitrary fixed byte. -/
theorem test_rdbyte_unwritten :
    result (.rdbyte 0x0300#15) (ready cd) (fun t => t.rsp) = some [0x80#8 ++ Config.memByte 1 0x0300] := by rfl

/-- M8: a block write that wraps. -/
theorem test_wrblk_wraps :
    result (.wrblk 0x7FFE#15 4#16) { ready cd with wd := [0x01#8, 0x02#8, 0x03#8, 0x04#8, 0x05#8] }
      (fun t => (t.mem, t.wd, t.rsp)) =
      some ([(0x0000, 0x03#8), (0x0001, 0x04#8), (0x7FFE, 0x01#8), (0x7FFF, 0x02#8)], [0x05#8], [0x8000#16]) := by
  decide +kernel

/-- M9: an empty block changes nothing but the response. -/
theorem test_wrblk_empty :
    result (.wrblk 0x0100#15 0#16) { ready c2 with wd := [0x01#8] } (fun t => (t.mem, t.wd, t.trace, t.rsp)) =
      some ([], [0x01#8], [], [0x8000#16]) := by decide +kernel

/-- M8: a block read that wraps. -/
theorem test_rdblk_wraps :
    result (.rdblk 0x7FFF#15 3#16)
      { ready cd with mem := [(0x0000, 0x03#8), (0x0001, 0x04#8), (0x7FFE, 0x01#8), (0x7FFF, 0x02#8)] }
      (fun t => (t.rd, t.rsp, t.ddir)) = some ([0x02#8, 0x03#8, 0x04#8], [0x8000#16], .input) := by decide +kernel

/-- S4: `STORE 0x0200, "KEY1", "HelloSRAM12345\0\0"` is the word `0xC00000140200` with 20 payload bytes. -/
theorem test_store_word :
    encode (storeCommand 0x0200#15 #v[0x4B#8, 0x45#8, 0x59#8, 0x31#8] (Vector.replicate 16 0x00#8)).instr =
      0xC00000140200#48 := by decide

/-- S4: the candidates of `FIND` over 0x0200 to 0x0300 are 13, the last 0x02F0. S5: over 0 to 0x40 they are 4. -/
theorem test_find_candidates :
    (candidates 0x0200 0x0300).length = 13 ∧ (candidates 0x0200 0x0300).getLast? = some 0x02F0 ∧
      candidates 0 0x40 = [0, 20, 40, 60] ∧ candidates 0x40 0x40 = [] := by decide

/-- R233, R262: an empty range is not-found with no command issued, and one event `KEY_NOT_FOUND` with an address, whichever. -/
theorem test_find_empty_range :
    ∃ a, (hostFind (Vector.replicate 4 0x00#8) 0x40 0x40 (ready cd)).map (fun r => (r.1, r.2.rsp, r.2.diag)) =
      some (none, (ready cd).rsp, (ready cd).diag ++ [.keyNotFound a]) := ⟨_, rfl⟩

/-! ### The step -/

/-- From reset with a command placed as the next word, the step runs it: `BEGIN` answers 0x8000. -/
theorem test_step_runs_placed_word :
    (nextOf (step (State.reset.withFetchWord 48 0x100000000000))).map (fun t => (t.init, t.rsp, t.cmds)) =
      some (true, [0x8000#16], []) := by decide +kernel

/-- V-CH7: a chain command under `DIRECT` answers 0x0300. -/
theorem test_step_chain_command_under_direct :
    (nextOf (step ((ready cd).withFetchWord 48 0x480000000000))).map (fun t => (t.rsp, t.trace)) =
      some ([0x0300#16], []) := by decide +kernel

/-- R280: reset inside the write pulse of `WRBYTE`, after the 22nd entry of its record, forgets the memory; no response. -/
theorem test_reset_inside_write_pulse :
    (nextOf (step { (ready cd).withFetchWord 48 0xA0AA00000100 with mem := [(0, 0x01#8)], rstN := .fallsAfter 22 })).map
      (fun t => (t.mem, t.init, t.rsp, t.trace.drop 19)) =
      some ([], false, [], [.drive .ceN false, .drive .weN false, .delay .writePulse 2]) := by decide +kernel

/-- R280: reset after one whole byte of a `WRBLK` leaves that byte in its cell, and the next one pending. -/
theorem test_reset_inside_block_write :
    (nextOf (step { (ready cd).withFetchWord 48 0xC00000020100 with
      wd := [0xAA#8, 0xBB#8], rstN := .fallsAfter 26 })).map (fun t => (t.mem, t.wd, t.rsp)) =
      some ([(0x0100, 0xAA#8)], [0xBB#8], []) := by decide +kernel

/-- R280: reset after one whole byte of a `RDBLK` leaves the byte sent, the memory as it was, and no response. -/
theorem test_reset_inside_block_read :
    (nextOf (step { (ready cd).withFetchWord 48 0xD00000020000 with
      mem := [(0, 0x01#8), (1, 0x02#8)], rstN := .fallsAfter 33 })).map (fun t => (t.mem, t.rd, t.rsp, t.seq, t.ceN)) =
      some ([(0, 0x01#8), (1, 0x02#8)], [0x01#8], [], .idle, .unknown) := by decide +kernel

/-! ### Witnesses: for each statement with hypotheses, a state and operands that meet them

A statement over every state at a boundary is met by `witness_boundary_states`, under each backend. -/

/-- `ResetMeetsInvariant`: `test_wf_accepts_the_spec_configurations` has the well-formed configurations. The statements over
every state at a boundary (`EveryCommandEndsReady`, `AddressEventCount`, `DmodeResult`, `DwriteResult`, `DreadResult`,
`SetaddrResult`, `RepeatedBeginResult`, `WrbyteResult`, `RdbyteResult`, `WriteThenRead`, `VerificationNeverWarns`,
`RdblkResult`, `StoreWritesRecord`, `FindReturnsFirstMatch`), in input and in output mode, with and without
verification. -/
theorem witness_boundary_states :
    (ready cd).AtBoundary ∧ (ready c1).AtBoundary ∧ (ready c2).AtBoundary ∧ (ready c2v).AtBoundary ∧
      (ready c2a).AtBoundary ∧ (ready c2b).AtBoundary ∧
      State.AtBoundary { ready cd with ddir := .output, dout := 0x5A#8, mem := [(0, 0x01#8), (32767, 0x02#8)] } :=
  ⟨by decide +kernel, by decide +kernel, by decide +kernel, by decide +kernel, by decide +kernel, by decide +kernel,
    by decide +kernel⟩

/-- `FirstBeginResult`, under each backend. -/
theorem witness_before_begin :
    (State.resetFor cd).BeforeBegin ∧ (State.resetFor c1).BeforeBegin ∧ (State.resetFor c2).BeforeBegin := by
  decide +kernel

/-- `StepKeepsInvariant` and `StepNeverStops`, for each part of the invariant, with a command running. -/
theorem witness_invariant_states :
    (State.withFetchWord (State.resetFor c1) 48 0x100000000000).Inv ∧
      (∃ t, step (State.withFetchWord (State.resetFor c1) 48 0x100000000000) = .next t) ∧
      (State.withFetchWord (ready c2) 48 0x240000000000).Inv ∧
      (∃ t, step (State.withFetchWord (ready c2) 48 0x240000000000) = .next t) ∧
      State.Inv { awaiting cd 0x7FFF#15 2#16 with wd := [0x01#8] } ∧
      (∃ t, step { awaiting cd 0x7FFF#15 2#16 with wd := [0x01#8] } = .next t) :=
  ⟨.inl (by decide +kernel), exists_next (by decide +kernel), .inr (.inl (by decide +kernel)),
    exists_next (by decide +kernel), .inr (.inr (by decide +kernel)), exists_next (by decide +kernel)⟩

/-- `StepRunsDecodedCommand`. -/
theorem witness_step_runs :
    ∃ (s : State) (w : CmdWord) (rest : List CmdWord) (i : Instr), s.cfg.wf = true ∧ s.rstN = .released ∧ s.seq = .idle ∧
      s.cmds = w :: rest ∧ decode w = .ok i :=
  ⟨{ ready c2 with cmds := [0x600000000180#48, 0x900000000000#48] }, 0x600000000180#48, [0x900000000000#48],
    .setaddr 0x0180#15, by decide, by decide, by decide, rfl, by decide⟩

/-- `IllegalWordAnswered`, before `BEGIN` and after it. -/
theorem witness_illegal_word :
    (∃ (s : State) (w : CmdWord) (rest : List CmdWord) (e : DecodeError), s.init = false ∧ s.cfg.wf = true ∧
      s.rstN = .released ∧ s.seq = .idle ∧ s.cmds = w :: rest ∧ decode w = .error e) ∧
    (∃ (s : State) (w : CmdWord) (rest : List CmdWord) (e : DecodeError), s.init = true ∧ s.cfg.wf = true ∧
      s.rstN = .released ∧ s.seq = .idle ∧ s.cmds = w :: rest ∧ decode w = .error e) :=
  ⟨⟨{ State.resetFor cd with cmds := [0x0#48] }, 0x0#48, [], .reservedOpcode 0x0#4,
    by decide, by decide, by decide, by decide, rfl, by decide⟩,
   ⟨{ ready c1 with cmds := [0xC00000068100#48, 0x0#48], wd := [0xAA#8] }, 0xC00000068100#48, [0x0#48], .reservedBits,
    by decide, by decide, by decide, by decide, rfl, by decide⟩⟩

/-- `IdleBlockWaits`, before `BEGIN` and after it. -/
theorem witness_idle_block :
    ((State.resetFor cd).cfg.wf = true ∧ (State.resetFor cd).rstN = .released ∧ (State.resetFor cd).seq = .idle ∧
      (State.resetFor cd).cmds = []) ∧
    ((ready c2).cfg.wf = true ∧ (ready c2).rstN = .released ∧ (ready c2).seq = .idle ∧ (ready c2).cmds = []) := by
  decide +kernel

/-- `ResetAssertionStep`, in a waiting `WRBLK`. -/
theorem witness_reset_asserted :
    (awaiting c1 0x0100#15 3#16).cfg.wf = true ∧ { awaiting c1 0x0100#15 3#16 with rstN := .asserted }.rstN = .asserted := by
  decide +kernel

/-- `ConfigurationNeverChanges`, `InitClearedOnlyByReset`. -/
theorem witness_step_after_begin :
    ∃ s t : State, s.rstN = .released ∧ s.init = true ∧ s.cmds ≠ [] ∧ step s = .next t :=
  let s := State.withFetchWord (ready c1) 48 0x100000000000
  have h : ∃ t, step s = .next t := exists_next (by decide +kernel)
  h.elim fun t ht => ⟨s, t, by decide, by decide, by decide, ht⟩

/-- `MalformedConfigurationRefused`, for each check of R23. -/
theorem witness_malformed_configuration :
    (State.resetFor ⟨.unsupplied, 0, 0, 0, false, 3, 2, 1⟩).cfg.wf = false ∧
      (State.resetFor { c2 with k := 15 }).cfg.wf = false ∧ (State.resetFor { c1 with n1 := 1 }).cfg.wf = false ∧
      (State.resetFor { c2a with n2 := 1 }).cfg.wf = false ∧ (State.resetFor { c1 with n1 := 33 }).cfg.wf = false := by
  decide

/-- `OneResponsePerCommand`, both outcomes: a command that ends and a `WRBLK` whose payload has not come.
`OnlyWritesChangeCells`: the first. -/
theorem witness_command_at_boundary :
    (∃ t, exec (.clrall .two) (ready c2) = .next t) ∧ (ready c2).AtBoundary ∧
      (∀ a d, Instr.clrall .two ≠ .wrbyte a d) ∧ (∀ a n, Instr.clrall .two ≠ .wrblk a n) ∧
      (∃ t, exec (.wrblk 0x7FFF#15 2#16) { ready cd with wd := [0x01#8] } = .next t) ∧
      State.AtBoundary { ready cd with wd := [0x01#8] } :=
  ⟨exists_next (by decide +kernel), by decide +kernel, by simp, by simp, exists_next (by decide +kernel),
    by decide +kernel⟩

/-- `EncodeOfDecode`. -/
theorem witness_legal_word : ∃ (w : CmdWord) (i : Instr), decode w = .ok i :=
  ⟨0xD00000060100#48, .rdblk 0x0100#15 6#16, by decide⟩

/-- `OpcodeRowsDisjoint`. -/
theorem witness_row_of_word : ∃ r ∈ opcodeTable, 0x2C0000000000#48 &&& r.mask = r.pattern := by decide

/-- `RefusedBeforeBegin`, for a command of each family. -/
theorem witness_before_begin_refused :
    (State.resetFor c1).init = false ∧ Instr.setall .two ≠ .begin ∧ Instr.dread ≠ .begin ∧
      Instr.wrblk 0#15 1#16 ≠ .begin := by decide

/-- `AbsentChainRefused`: `DIRECT` with either chain, and `CHAIN1` with chain 2, for each of the four commands. -/
theorem witness_absent_chain :
    ((ready cd).cfg.wf = true ∧ (ready cd).init = true ∧ (ready cd).cfg.backend = .direct) ∧
      ((ready c1).cfg.wf = true ∧ (ready c1).init = true ∧ (ready c1).cfg.backend = .chain1 ∧
        Instr.flush .two ∈ [.setbit .two 200#8 true, .clrall .two, .setall .two, .flush .two]) := by decide

/-- `IndexBeyondChainRefused`, at the first illegal index and the last. -/
theorem witness_index_beyond_chain :
    (ready c1).init = true ∧ chainExists (ready c1).cfg .one = true ∧ 8 * banks (ready c1).cfg .one ≤ (16#8).toNat ∧
      8 * banks (ready c1).cfg .one ≤ (255#8).toNat := by decide

/-- `RefusalPriority`: one word for each clause, each with an error of lower priority present where one can be. -/
theorem witness_refusal_priority :
    (∃ e, decode 0x2FC800000000#48 = .error e) ∧
      ((State.resetFor c1).init = false ∧ decode 0x2CC800000000#48 = .ok (.setbit .two 200#8 true)) ∧
      ((ready c1).init = true ∧ chainExists (ready c1).cfg .two = false ∧
        decode 0x2CC800000000#48 = .ok (.setbit .two 200#8 true)) ∧
      ((ready c2).init = true ∧ chainExists (ready c2).cfg .two = true ∧
        decode 0x2C0800000000#48 = .ok (.setbit .two 8#8 true) ∧ 8 * banks (ready c2).cfg .two ≤ (8#8).toNat) ∧
      (∃ s : State, s.cfg.wf = true ∧ s.rstN = .released ∧ s.seq = .idle ∧ s.cmds = [0x2CC800000000#48]) :=
  ⟨⟨.reservedBits, by decide⟩, by decide, by decide, by decide,
    ⟨{ ready c1 with cmds := [0x2CC800000000#48] }, by decide, by decide, by decide, rfl⟩⟩

/-- `ClockEdgeShifts`: a chain for each of its cases, the first and the last stage of two banks among them. -/
theorem witness_clock_cases :
    ((ready c1).chain .one).sck = .low ∧ 0 < ((ready c1).chain .one).sh.length ∧
      15 < ((ready c1).chain .one).sh.length ∧
      { (ready c1).chain .one with sck := .high }.sck = .high ∧
      (let ch := { settledChain [0x7F#8] with sck := .unknown, ser := .high }
       ch.sh[0]? = some ch.ser ∧ ch.sh[6]? = ch.sh[5]? ∧ ch.sh[7]? ≠ ch.sh[6]?) := by decide +kernel

/-- `LatchEdgeCopies`: a chain for each of its cases. -/
theorem witness_latch_cases :
    { (ready c1).chain .one with lat := .low }.lat = .low ∧ ((ready c1).chain .one).lat = .high ∧
      (let ch := { settledChain [0x7F#8] with lat := .unknown, out := mirrorLevels [0xFF#8] }
       ch.out[6]? = ch.sh[6]? ∧ ch.out[7]? ≠ ch.sh[7]?) := by decide +kernel

/-- `FlushPutsMirrorOnOutputs`, with banks that hold nothing of the mirror, at the first and the last index. -/
theorem witness_flush :
    ∃ (s : State) (n : Nat), s.ceN = .high ∧ 1 ≤ n ∧ chainShape n (s.chain .one) ∧ (s.chain .one).sck = .low ∧
      0 < 8 * n ∧ 15 < 8 * n :=
  ⟨{ ready c1 with chain1 := { Chain.reset 2 with mirror := [0x34#8, 0x12#8], sck := .low } }, 2, by decide +kernel⟩

/-- `SetbitResult`, at the first and the last legal index, `ClrallResult`, `SetallResult`, `FlushChangesNothing`. -/
theorem witness_chain_command :
    (ready c1).AtBoundary ∧ chainExists (ready c1).cfg .one = true ∧ (0#8).toNat < 8 * banks (ready c1).cfg .one ∧
      (15#8).toNat < 8 * banks (ready c1).cfg .one ∧ (ready c2).AtBoundary ∧
      chainExists (ready c2).cfg .two = true ∧ (7#8).toNat < 8 * banks (ready c2).cfg .two :=
  ⟨by decide +kernel, by decide, by decide, by decide, by decide +kernel, by decide, by decide⟩

/-- `IntermediateAddresses`, V-AD1: the lines at 0x7FFF before, at both ends of the walk. -/
theorem witness_intermediate_addresses :
    (settled (ready c1) .one [0xFF#8, 0x7F#8]).AtBoundary ∧
      shownAddress (settled (ready c1) .one [0xFF#8, 0x7F#8]) = some 0x7FFF ∧ 0 ≤ 15 ∧ 15 ≤ 15 := by decide +kernel

/-- V-AD1: after step 5 of `SETADDR 0x1234` from 0x7FFF the lines show 0x7FF4, after step 10 0x7A34. -/
theorem test_intermediate_addresses :
    shownAddress (programBits 0x1234#15 6 (settled (ready c1) .one [0xFF#8, 0x7F#8])) = some 0x7FF4 ∧
      shownAddress (programBits 0x1234#15 11 (settled (ready c1) .one [0xFF#8, 0x7F#8])) = some 0x7A34 := by
  decide +kernel

/-- `SampleByCase`, a state for each of the three cases, the second also with the device in its write mode. -/
theorem witness_sample_cases :
    (inRead.ddir = .input ∧ inRead.ceN = .low ∧ inRead.oeN = .low ∧ inRead.weN = .high ∧
      shownAddress inRead = some 0 ∧ (readBus inRead).1 = 0x3C#8) ∧
    ((ready cd).ddir = .input ∧ ¬ ((ready cd).ceN = .low ∧ (ready cd).oeN = .low ∧ (ready cd).weN = .high)) ∧
    ({ inRead with weN := .low }.ddir = .input ∧ { inRead with weN := .low }.weN ≠ .high) ∧
    (inPulse .stable).ddir = .output := by decide +kernel

/-- `WriteSequenceOrder`, without and with verification, and `OneByteBlockIsByteWrite`. -/
theorem witness_write_completes :
    (∃ t, exec (.wrbyte 0x7FFF#15 0xFF#8) (ready cd) = .next t) ∧ (ready cd).cfg.verify = false ∧
      (∃ t, exec (.wrbyte 0x0005#15 0x3C#8) (ready c2v) = .next t) ∧ (ready c2v).cfg.verify = true :=
  ⟨exists_next (by decide +kernel), by decide, exists_next (by decide +kernel), by decide⟩

/-- `ReadsDoNotDependOnBackend`. -/
theorem witness_two_backends :
    ∃ s s' : State, s.AtBoundary ∧ s'.AtBoundary ∧ s.cfg.backend ≠ s'.cfg.backend ∧ memRead s 0x7FFF = memRead s' 0x7FFF :=
  ⟨{ ready cd with mem := [(32767, 0x55#8)] }, { ready c2 with mem := [(32767, 0x55#8)] },
    by decide +kernel, by decide +kernel, by decide, by decide⟩

/-- `WrblkResult`: with bytes to spare across the wrap, and empty; its clauses on cells: address 0x7FFE twice among
byte 0 and byte 32768 of a long block, so that the later byte is the one that stays. -/
theorem witness_wrblk_payload :
    (State.AtBoundary { ready cd with wd := [0x01#8, 0x02#8, 0x03#8] } ∧
      (2#16).toNat ≤ [0x01#8, 0x02#8, 0x03#8].length ∧ (0#16).toNat ≤ (ready cd).wd.length) ∧
    ((0x7FFF#15).toNat + 1) % 32768 = 0 ∧
    ((0x7FFE#15).toNat + 0) % 32768 = ((0x7FFE#15).toNat + 32768) % 32768 := by decide +kernel

/-- `WrblkWaitsForPayload`, with no byte there and with all but one. -/
theorem witness_wrblk_dry :
    (ready cd).AtBoundary ∧ (ready cd).wd.length < (1#16).toNat ∧
      State.AtBoundary { ready cd with wd := [0x01#8] } ∧ [0x01#8].length < (2#16).toNat :=
  ⟨by decide +kernel, by decide, by decide +kernel, by decide⟩

/-- `WaitingBlockStays`. -/
theorem witness_waiting_block :
    (awaiting c2 0x0000#15 1#16).Waiting ∧ (awaiting c2 0x0000#15 1#16).rstN = .released ∧
      (awaiting c2 0x0000#15 1#16).wd = [] := by decide +kernel

/-- `PayloadMayComeInPieces`, over the wrap. -/
theorem witness_payload_in_pieces :
    (ready cd).AtBoundary ∧ (ready cd).rstN = .released ∧ [0x01#8].length < (3#16).toNat ∧
      ∃ t, exec (.wrblk 0x7FFF#15 3#16) { ready cd with wd := [0x01#8] } = .next t :=
  ⟨by decide +kernel, by decide, by decide, exists_next (by decide +kernel)⟩

/-- `UnsteadyWriteFaults`. -/
theorem witness_spoiled_pulse :
    (inPulse .spoiled).ceN = .low ∧ (inPulse .spoiled).weN = .low ∧ (inPulse .spoiled).pulse = .spoiled ∧
      (inPulse .spoiled).hazard = none := by decide +kernel

/-- `ContentionRefused`. -/
theorem witness_contention :
    inRead.ceN = .low ∧ inRead.oeN = .low ∧ inRead.weN = .high ∧ inRead.hazard = none := by decide +kernel

/-- `MovedAddressSpoilsWrite`, clause by clause: on the last direct address line, and a latch edge under one chain and under
two, at the last address-carrying bit of each chain. -/
theorem witness_moved_address :
    ((inPulse .stable).ceN = .low ∧ (inPulse .stable).weN = .low ∧ (Pin.apin 14).isControl = false ∧
      addressLines (drive (.apin 14) true (inPulse .stable)) ≠ addressLines (inPulse .stable)) ∧
    ((inPulse .stable).cfg.backend = .direct ∧ (inPulse .stable).apinPins.length = 15 ∧
      (inPulse .stable).apinPins[(14 : Fin 15).val]? ≠ some (levelOf true)) ∧
    (let ch := { settledChain [0x00#8, 0x00#8] with lat := .low, sh := mirrorLevels [0x00#8, 0x40#8] }
     let s := { ready c1 with ceN := .low, weN := .low, chain1 := ch }
     s.cfg.backend = .chain1 ∧ s.chain1.lat = .low ∧ s.chain1.sh.take 15 ≠ s.chain1.out.take 15) ∧
    (let ch := { settledChain [0x00#8] with lat := .low, sh := mirrorLevels [0x80#8] }
     let s := { ready c2 with ceN := .low, weN := .low, chain1 := ch }
     s.cfg.backend = .chain2 ∧ s.chain1.lat = .low ∧ s.chain1.sh.take s.cfg.k ≠ s.chain1.out.take s.cfg.k) ∧
    (let ch := { settledChain [0x00#8] with lat := .low, sh := mirrorLevels [0x40#8] }
     let s := { ready c2 with ceN := .low, weN := .low, chain2 := ch }
     s.cfg.backend = .chain2 ∧ s.chain2.lat = .low ∧
      s.chain2.sh.take (15 - s.cfg.k) ≠ s.chain2.out.take (15 - s.cfg.k)) := by
  decide +kernel

/-- `MovedDataSpoilsWrite`, both clauses. -/
theorem witness_moved_data :
    (inPulse .stable).ceN = .low ∧ (inPulse .stable).weN = .low ∧ Dir.input ≠ (inPulse .stable).ddir ∧
      (inPulse .stable).ddir = .output ∧ 0xA5#8 ≠ (inPulse .stable).dout := by decide +kernel

/-- `ResetInsideCommand`, with the fall after all entries of a command and past them; its clauses on the memory: before
the write pulse, and inside it. -/
theorem witness_reset_inside_command :
    ∃ s t : State, ∃ es : List Event, s.Inv ∧ s.rstN = .released ∧ step s = .next t ∧ t.trace = s.trace ++ es ∧
      es.length = 25 ∧ .drive .weN false ∉ es.take 20 ∧
      ∃ xs ys, es.take 22 = xs ++ [.drive .ceN false, .drive .weN false] ++ ys ∧
        ∀ l, .drive .ceN l ∉ ys ∧ .drive .weN l ∉ ys := by
  obtain ⟨t, ht, hp⟩ := exists_next_with (o := step ((ready cd).withFetchWord 48 0xA0AA00000100))
    (p := fun t => decide (t.trace.length = 25 ∧ .drive .weN false ∉ t.trace.take 20 ∧
      t.trace.take 22 = t.trace.take 19 ++ [.drive .ceN false, .drive .weN false] ++ [.delay .writePulse 2]))
    (by decide +kernel)
  obtain ⟨h1, h2, h3⟩ := of_decide_eq_true hp
  exact ⟨_, t, t.trace, .inr (.inl (by decide +kernel)), rfl, ht, rfl, h1, h2, _, _, h3, by simp⟩

end Sys2Proof.Tests
end

/-! ### The state: reset values, the run of one word, and what no step changes (10_state.md) -/

namespace Sys2Proof.Machine

/-- A malformed configuration has no instance, whatever the rest of the state (R23). -/
theorem step_of_malformed {s : State} (hw : s.cfg.wf = false) : step s = .refused .malformedConfig := by
  simp [step, hw]

/-- A legal word runs its command (R95). -/
theorem runWord_of_legal {w : CmdWord} {i : Instr} (s : State) (hd : decode w = .ok i) : runWord w s = exec i s := by
  simp [runWord, hd]

/-- `BEGIN` changes, of what every procedure keeps, at most what its steps change (R191, R251). -/
theorem Kept.exec_begin {β : Type} {g : State → β} (k : Kept g) {s t : State}
    (hb : ∀ u, g u = g s → g (beginSteps u) = g s) (h : Machine.exec .begin s = .next t) : g t = g s := by
  simp only [Machine.exec, execBegin] at h
  rcases perform_next h with ⟨e, rfl⟩ | rfl
  · exact k.raise s e
  · exact (k.respond _ _).trans (hb _ (k.accept s _))

/-- Out of reset the block keeps what every procedure keeps, provided the taking of a word (`hc`) and the steps of
`BEGIN` (`hb`) keep it too (R30, R97, R281). -/
theorem Kept.proceed {β : Type} {g : State → β} (k : Kept g) {s t : State}
    (hc : ∀ ws, g { s with cmds := ws } = g s) (hb : ∀ u, g u = g s → g (beginSteps u) = g s)
    (h : Machine.proceed s = .next t) : g t = g s := by
  rcases proceed_cases h with ⟨_, _, _, _, rfl⟩ | ⟨_, _, rfl⟩ | ⟨w, rest, _, _, ⟨e, rfl⟩ | ⟨i, _, hx⟩⟩
  · exact k.writeBlock _ _ s
  · rfl
  · exact (k.raise _ e).trans (hc rest)
  · rw [← hc rest] at hb ⊢
    by_cases hi : i = .begin
    · subst hi; exact k.exec_begin hb hx
    · exact k.exec i hi hx

/-- Out of reset the block keeps its configuration (R20). -/
theorem proceed_cfg {s t : State} (h : proceed s = .next t) : t.cfg = s.cfg :=
  kept_cfg.proceed (fun _ => rfl) (fun u hu => (beginSteps_cfg u).trans hu) h

/-- Out of reset a block that has had its `BEGIN` stays initialised (R24). -/
theorem proceed_keeps_init {s t : State} (hs : s.init = true) (h : proceed s = .next t) : t.init = true :=
  (kept_init.proceed (fun _ => rfl) (fun _ _ => hs.symm) h).trans hs

@[simp] theorem assertReset_cfg (s : State) : (assertReset s).cfg = s.cfg := by
  rw [assertReset_eq]; rfl

/-- A fall of `RST_n` inside a step leaves the configuration (R20, R280). -/
theorem interrupt_cfg (n : Nat) {s t : State} (h : t.cfg = s.cfg) : (interrupt n s t).cfg = s.cfg := by
  unfold interrupt
  dsimp only
  split
  · exact (assertReset_cfg _).trans (replayed _ s).cfg
  · exact h

/-- Settles O1, by the definition of the reset state, chain by chain. -/
theorem resetLeavesBlockRegisters : Obligations.ResetLeavesBlockRegisters := by
  intro c
  refine ⟨rfl, rfl, rfl, rfl, rfl, fun ch => ?_, rfl, rfl, rfl, rfl, rfl, rfl⟩
  cases ch <;> exact ⟨rfl, rfl, rfl⟩

/-- Settles O5: out of reset and idle the block takes the word, and a legal word runs its command. -/
theorem stepRunsDecodedCommand : Obligations.StepRunsDecodedCommand := by
  intro s w rest i hw hr hq hc hd
  rw [step_of_released hw hr, proceed_of_idle hq hc, runWord_of_legal _ hd]

/-- Settles O11: the check of R23 comes before anything else in a step. -/
theorem malformedConfigurationRefused : Obligations.MalformedConfigurationRefused :=
  fun _ hw => step_of_malformed hw

/-- Settles O9, by what a step can have done: reset, a run out of reset, or a run that `RST_n` cut short. -/
theorem configurationNeverChanges : Obligations.ConfigurationNeverChanges := by
  intro s t h
  obtain ⟨-, ⟨-, rfl⟩ | ⟨-, hp⟩ | ⟨n, u, -, hu, rfl⟩⟩ := step_cases h
  · exact assertReset_cfg s
  · exact proceed_cfg hp
  · have hcfg := proceed_cfg hu
    exact interrupt_cfg n hcfg

/-- Settles O10: with `RST_n` released a step is a run out of reset, which keeps `INIT`. -/
theorem initClearedOnlyByReset : Obligations.InitClearedOnlyByReset := by
  intro s t hr hi h
  obtain ⟨hw, -⟩ := step_cases h
  exact proceed_keeps_init hi (step_of_released hw hr ▸ h)

end Sys2Proof.Machine

/-! ### The memory device's write interval, and a byte written and read back (20_memory.md) -/

namespace Sys2Proof.Machine

/-! #### What the device makes of a write interval -/

theorem deviceAccepts_of_low {s : State} (hce : s.ceN = .low) (hwe : s.weN = .low) : deviceAccepts s = true := by
  simp [deviceAccepts, hce, hwe]

/-- The watch for contention only notes: pulse and cells are as the write rule leaves them (R178). -/
theorem react_eq_reactWrite (before s : State) :
    (react before s).pulse = (reactWrite before s).pulse ∧ (react before s).mem = (reactWrite before s).mem := by
  unfold react
  dsimp only
  split
  · obtain ⟨hp, hm, -, -⟩ := noteHazard_pulse .contention (reactWrite before s)
    exact ⟨hp, hm⟩
  · exact ⟨rfl, rfl⟩

/-- The hazard that the write rule notes is the first one, so the watch for contention leaves it. -/
theorem react_hazard_of_noted {before s : State} {h : Hazard} (hn : (reactWrite before s).hazard = some h) :
    (react before s).hazard = some h := by
  unfold react noteHazard
  dsimp only
  split
  · rw [hn]; exact hn
  · exact hn

/-- An event inside the write interval that moves address, direction or data spoils it (R64). -/
theorem react_spoils_of_moved {before s : State} (hb : deviceAccepts before = true) (hs : deviceAccepts s = true)
    (hm : ¬(addressLines s = addressLines before ∧ s.ddir = before.ddir ∧ s.dout = before.dout)) :
    (react before s).pulse = .spoiled := by
  have hw : reactWrite before s = { s with pulse := .spoiled } := by
    simp only [reactWrite, hb, hs, watchPulse, if_neg hm]
  rw [(react_eq_reactWrite before s).1, hw]

/-- The end of a spoiled write interval stores nothing and notes the hazard (R64, U17). -/
theorem reactWrite_of_spoiled_end {before s : State} (hb : deviceAccepts before = true) (hs : deviceAccepts s = false)
    (hp : before.pulse = .spoiled) (hh : s.hazard = none) :
    reactWrite before s = { s with pulse := .off, hazard := some .unstableWrite } := by
  simp only [reactWrite, hb, hs, commitPulse, hp, noteHazard, hh]

/-! #### Events inside a write interval -/

/-- The memory device moves no address line. -/
theorem addressLines_react (before s : State) : addressLines (react before s) = addressLines s :=
  addressLines_congr (react_cfg before s) (react_chain1 before s) (react_chain2 before s) (react_apinPins before s)

/-- The address lines after a pin event are those that the pin and the banks give (R35). -/
theorem addressLines_drive (p : Pin) (l : Bool) (s : State) :
    addressLines (drive p l s) = addressLines (setPin p l s) := by
  refine (addressLines_react _ _).trans ?_
  cases p with
  | ser c | sck c | lat c => cases c <;> rfl
  | apin i | ceN | oeN | weN => rfl

/-- A pin other than the control lines that moves an address line inside the write interval spoils it (R64, R291). -/
theorem drive_spoils_of_moved {p : Pin} {l : Bool} {s : State} (hce : s.ceN = .low) (hwe : s.weN = .low)
    (hp : p.isControl = false) (hm : addressLines (drive p l s) ≠ addressLines s) :
    (drive p l s).pulse = .spoiled := by
  have hc : p ≠ .ceN := by rintro rfl; cases hp
  have hw : p ≠ .weN := by rintro rfl; cases hp
  refine react_spoils_of_moved (deviceAccepts_of_low hce hwe) (deviceAccepts_of_low ?_ ?_) fun ⟨ha, _, _⟩ =>
    hm ((addressLines_react _ _).trans ha)
  · exact ((setPin_control_of_ne l _).1 hc).trans hce
  · exact ((setPin_control_of_ne l _).2 hw).trans hwe

/-- A rising latch edge puts the stages on the outputs (R122). -/
theorem setPin_lat_rise {c : ChainId} {s : State} (hl : (s.chain c).lat = .low) :
    setPin (.lat c) true s = s.setChain c { s.chain c with lat := .high, out := (s.chain c).sh } := by
  simp only [setPin, driveLatch, hl, levelOf_true]

/-- Settles O54: the rise of `WE_n` ends the interval, which notes the hazard, and the end of the run names it. -/
theorem unsteadyWriteFaults : Obligations.UnsteadyWriteFaults := by
  intro s hce hwe hp hh
  have hend := reactWrite_of_spoiled_end (before := s)
    (s := setPin .weN true { record (.drive .weN true) s with seq := advance s.seq })
    (deviceAccepts_of_low hce hwe) (deviceAccepts_of_we_high rfl) hp hh
  have hhaz : (drive .weN true s).hazard = some .unstableWrite := react_hazard_of_noted (by rw [hend])
  refine ⟨by rw [finish, hhaz], ?_⟩
  rw [drive, (react_eq_reactWrite _ _).2, hend]
  rfl

/-- Settles O56: each backend's event moves the address lines, by R35's wiring, and a moved line spoils the interval. -/
theorem movedAddressSpoilsWrite : Obligations.MovedAddressSpoilsWrite := by
  intro s hce hwe
  have spoils : ∀ {p l}, p.isControl = false → addressLines (setPin p l s) ≠ addressLines s →
      (drive p l s).pulse = .spoiled := fun hp hm =>
    drive_spoils_of_moved hce hwe hp (by rwa [addressLines_drive])
  refine ⟨fun _ _ => drive_spoils_of_moved hce hwe, fun i l hb hlen hne => ?_, fun hb hl hne => ?_, fun hb hl hne => ?_,
    fun hb hl hne => ?_⟩
  · refine spoils rfl fun h => hne ?_
    have hset : s.apinPins.set i (levelOf l) = s.apinPins := by simpa [addressLines, setPin, hb] using h
    rw [← hset, List.getElem?_set_self (by omega)]
  · exact spoils rfl fun h => hne (by simpa [setPin_lat_rise (c := .one) hl, addressLines, hb] using h)
  · exact spoils rfl fun h => hne (by simpa [setPin_lat_rise (c := .one) hl, addressLines, hb] using h)
  · exact spoils rfl fun h => hne (by simpa [setPin_lat_rise (c := .two) hl, addressLines, hb] using h)

/-- Settles O59: both events change what the interval must keep steady. -/
theorem movedDataSpoilsWrite : Obligations.MovedDataSpoilsWrite := by
  intro s hce hwe
  have ha := deviceAccepts_of_low hce hwe
  refine ⟨fun d hd => ?_, fun b ho hb => ?_⟩
  · exact react_spoils_of_moved ha ha fun ⟨_, h, _⟩ => hd h
  · simp only [writeBus, ho]
    exact react_spoils_of_moved ha ha fun ⟨_, _, h⟩ => hb h

/-! #### A byte written, and read back -/

/-- A byte write sends nothing on `RSP` (R195). -/
theorem writeByte_rsp (a : Addr) (d : Byte) {s : State} (h : s.Ready) : (writeByte a d s).rsp = s.rsp := by
  obtain ⟨p, es, es', -, -, -, -, hw⟩ := writeByte_closed a d h
  rw [hw]; rfl

/-- A byte read sends nothing on `RSP` (R198). -/
theorem readByte_rsp (a : Addr) {s : State} (h : s.Ready) : (readByte a s).2.rsp = s.rsp := by
  obtain ⟨p, es, -, -, hr⟩ := readByte_closed a h
  rw [hr]; rfl

/-- The diagnostics of one byte write: its own, and with verification those of the read transaction (R207). -/
def writeByteReports (c : Cfg) (a : Addr) (d : Byte) : List Diag :=
  [.addrSet a, .byteWritten a d] ++ if c.verify then [.addrSet a, .byteRead a d] else []

theorem isWarning_of_mem_writeByteReports {c : Cfg} {a : Addr} {d : Byte} :
    ∀ e ∈ writeByteReports c a d, isWarning e = false := by
  cases hv : c.verify <;> simp [writeByteReports, hv, isWarning]

theorem reports_writeByteEvents (c : Cfg) (a : Addr) (d : Byte) {es es' : List Event} (h : AddressEvents es)
    (h' : AddressEvents es') : reports (writeByteEvents c a d es es') = writeByteReports c a d := by
  cases hv : c.verify <;>
    simp [writeByteEvents, writeByteReports, readByteEvents, addressEventsWith, writeEvents, readEvents, hv, h.reports,
      h'.reports]

/-- What a byte write sends on `DIAG` (R195, R197, R207). -/
theorem writeByte_diag (a : Addr) (d : Byte) {s : State} (h : s.Ready) :
    (writeByte a d s).diag = s.diag ++ writeByteReports s.cfg a d := by
  obtain ⟨p, es, es', -, hp, he', -, hw⟩ := writeByte_closed a d h
  rw [hw, played_diag, reports_writeByteEvents _ _ _ hp.events he']
  rfl

/-- Taking a command changes no cell. -/
@[simp] theorem memRead_accept (i : Instr) (s : State) (b : Nat) : memRead (accept i s) b = memRead s b :=
  memRead_congr (accept_mem i s) (accept_memEpoch i s) b

/-- A response changes no cell. -/
@[simp] theorem memRead_respond (v : Byte) (s : State) (b : Nat) : memRead (respond v s) b = memRead s b :=
  memRead_congr (respond_mem v s) (respond_memEpoch v s) b

/-- Settles O45: the read finds the cells that the write has left. -/
theorem writeThenRead : Obligations.WriteThenRead := by
  rintro a b v s ⟨hr, -⟩
  have hs := ready_accept (.wrbyte a v) hr
  have ht := ready_respond 0x00#8 (ready_writeByte a v hs)
  refine ⟨_, _, exec_wrbyte a v hr, exec_rdbyte b ht, ?_⟩
  have hcell : memRead (respond 0x00#8 (writeByte a v (accept (.wrbyte a v) s))) b.toNat =
      if b = a then v else memRead s b.toNat := by
    rw [memRead_respond, memRead_writeByte a v hs, memRead_accept]
    simp only [BitVec.toNat_inj]
  rw [respond_rsp, readByte_rsp b (ready_accept _ ht), hcell, okWord_eq]
  simp [writeByte_rsp a v hs]

/-- Settles O46: the re-read finds the byte just written, so only the reports of whole transactions are sent. -/
theorem verificationNeverWarns : Obligations.VerificationNeverWarns := by
  rintro a d s ⟨hr, -⟩
  have hs := ready_accept (.wrbyte a d) hr
  refine ⟨_, writeByteReports s.cfg a d, exec_wrbyte a d hr, ?_, ?_, rfl, isWarning_of_mem_writeByteReports⟩
  · rw [respond_rsp, writeByte_rsp a d hs, okWord_zero, accept_rsp]
  · rw [respond_diag, writeByte_diag a d hs, accept_diag, accept_cfg]

end Sys2Proof.Machine

/-! ### The command word: decoder, encoder and opcode map (30_encoding.md) -/

namespace Sys2Proof

@[simp] theorem chainOfBit_bitOfChain (c : ChainId) : chainOfBit (bitOfChain c) = c := by cases c <;> rfl

@[simp] theorem dirOfBit_bitOfDir (d : Dir) : dirOfBit (bitOfDir d) = d := by cases d <;> rfl

@[simp] theorem boolOfBit_ofBool (v : Bool) : boolOfBit (BitVec.ofBool v) = v := by cases v <;> rfl

@[simp] theorem bitOfChain_chainOfBit (b : BitVec 1) : bitOfChain (chainOfBit b) = b := by revert b; decide

@[simp] theorem bitOfDir_dirOfBit (b : BitVec 1) : bitOfDir (dirOfBit b) = b := by revert b; decide

@[simp] theorem ofBool_boolOfBit (b : BitVec 1) : BitVec.ofBool (boolOfBit b) = b := by revert b; decide

/-- What `legal` accepts (R95): the reserved bits and every unused field 0, and then the command it was given. -/
theorem legal_eq_ok_iff {f : Fields} {u : Uses} {i j : Instr} :
    legal f u i = .ok j ↔ (f.zeroHigh = 0#2 ∧ f.zeroLow = 0#1 ∧ unusedClear f u = true) ∧ i = j := by
  unfold legal
  split_ifs with hz hu
  · simp only [false_iff]
    tauto
  · push Not at hz
    simp [hz, hu]
  · simp [hu]

/-- Each command's fields hold its own opcode, its operands, and 0 in every other place (R92, R94). -/
theorem decodeFields_encodeFields (i : Instr) : decodeFields (encodeFields i) = .ok i := by
  cases i <;> simp [encodeFields, blankFields, decodeFields, legal_eq_ok_iff, unusedClear]

/-- The decoder accepts no fields but those of the command it gives (R95). -/
theorem encodeFields_of_decodeFields {f : Fields} {i : Instr} (h : decodeFields f = .ok i) : encodeFields i = f := by
  obtain ⟨opc, ch, v, zh, b, len, zl, addr⟩ := f
  unfold decodeFields at h
  split at h
  case h_14 => cases h
  all_goals
    rename_i hopc
    obtain ⟨-, rfl⟩ := BitVec.toNat_eq_nat.mp hopc
    obtain ⟨⟨hzh, hzl, hu⟩, rfl⟩ := legal_eq_ok_iff.mp h
    simp_all [unusedClear, encodeFields, blankFields]

theorem decode_encode (i : Instr) : decode (encode i) = .ok i := by
  rw [decode, encode, fieldsOf_wordOf, decodeFields_encodeFields]

theorem encode_of_decode {w : CmdWord} {i : Instr} (h : decode w = .ok i) : encode i = w := by
  rw [encode, encodeFields_of_decodeFields h, wordOf_fieldsOf]

/-- The legal words are exactly the words of the commands (R95). -/
theorem decode_eq_ok_iff {w : CmdWord} {i : Instr} : decode w = .ok i ↔ encode i = w :=
  ⟨encode_of_decode, fun h => h ▸ decode_encode i⟩

/-- Settles O15, by the decoding of each command's fields, which the word carries unchanged. -/
theorem decodeOfEncode : Obligations.DecodeOfEncode := decode_encode

/-- Settles O16: the decoder fixes every field of the word, and the fields are all of it. -/
theorem encodeOfDecode : Obligations.EncodeOfDecode := fun _ _ => encode_of_decode

/-- The word of every command lies in the command's row of the opcode map (R92). -/
theorem exists_row_of_encode (i : Instr) : Laws.RowMatch.Statement i := by
  cases i with
  | begin => exact Laws.RowMatch.begin
  | setbit ch idx v => exact Laws.RowMatch.setbit ch idx v
  | clrall ch => exact Laws.RowMatch.clrall ch
  | setall ch => exact Laws.RowMatch.setall ch
  | flush ch => exact Laws.RowMatch.flush ch
  | setaddr a => exact Laws.RowMatch.setaddr a
  | dmode d => exact Laws.RowMatch.dmode d
  | dwrite d => exact Laws.RowMatch.dwrite d
  | dread => exact Laws.RowMatch.dread
  | wrbyte a d => exact Laws.RowMatch.wrbyte a d
  | rdbyte a => exact Laws.RowMatch.rdbyte a
  | wrblk a n => exact Laws.RowMatch.wrblk a n
  | rdblk a n => exact Laws.RowMatch.rdblk a n

/-- A field that the mask covers wholly is compared wholly. -/
theorem and_of_allOnes {n : Nat} {x m : BitVec n} (h : m = BitVec.allOnes n) : x &&& m = x := by
  rw [h, BitVec.and_allOnes]

/-- Fields that match a row of the map are decoded as its command: the mask leaves free only the fields that the command
uses, and the pattern fixes the opcode and 0 elsewhere (R92). -/
theorem decodeFields_of_row {f : Fields} {r : TableRow} (hr : r ∈ opcodeTable) (h : wordOf f &&& r.mask = r.pattern) :
    ∃ i, decodeFields f = .ok i ∧ i.mnemonic = r.mnemonic := by
  have hf := congrArg fieldsOf h
  rw [fieldsOf_and, fieldsOf_wordOf] at hf
  obtain ⟨opc, ch, v, zh, b, len, zl, addr⟩ := f
  fin_cases hr <;>
  · simp (disch := decide) [fieldsOf, and_of_allOnes] at hf
    simp [hf, decodeFields, legal_eq_ok_iff, unusedClear, Instr.mnemonic]

/-- Settles O17: a legal word is the word of its command, which lies in the command's row; a word of a row is decoded
field by field. -/
theorem decoderFollowsOpcodeMap : Obligations.DecoderFollowsOpcodeMap := by
  intro w m
  constructor
  · rintro ⟨i, hd, rfl⟩
    obtain ⟨r, hr, hm, hw⟩ := exists_row_of_encode i
    exact ⟨r, hr, hm, encode_of_decode hd ▸ hw⟩
  · rintro ⟨r, hr, rfl, hw⟩
    exact decodeFields_of_row hr (by rwa [wordOf_fieldsOf])

/-- Every row compares the whole opcode (R92). -/
theorem opc_of_row {w : CmdWord} {r : TableRow} (hr : r ∈ opcodeTable) (h : w &&& r.mask = r.pattern) :
    (fieldsOf w).opc = (fieldsOf r.pattern).opc := by
  have hmask : ∀ r ∈ opcodeTable, (fieldsOf r.mask).opc = BitVec.allOnes 4 := by decide
  rw [← h, fieldsOf_and, and_of_allOnes (hmask r hr)]

/-- No two rows have one opcode (R92). -/
theorem row_eq_of_opc_eq : ∀ r ∈ opcodeTable, ∀ q ∈ opcodeTable,
    (fieldsOf r.pattern).opc = (fieldsOf q.pattern).opc → r = q := by
  decide

/-- Settles O18: both rows have the opcode of the word. -/
theorem opcodeRowsDisjoint : Obligations.OpcodeRowsDisjoint := fun _ r hr q hq hwr hwq =>
  row_eq_of_opc_eq r hr q hq ((opc_of_row hr hwr).symm.trans (opc_of_row hq hwq))

/-- Settles O19: the legal words are encodings, and the other two have reserved opcodes. -/
theorem knownWordsDecode : Obligations.KnownWordsDecode := by
  simp only [Obligations.KnownWordsDecode, decode_eq_ok_iff]
  decide

end Sys2Proof

/-! ### The response word (30_encoding.md) -/

namespace Sys2Proof.Machine

/-- Settles O24: each field of the concatenation, read back bit by bit. -/
theorem responseWordLayout : Obligations.ResponseWordLayout := by
  intro ok err data
  unfold responseWord
  refine ⟨?_, ?_, ?_, ?_⟩
  · simp only [BitVec.getLsbD_append]
    simp
  all_goals
    ext j hj
    simp only [BitVec.getElem_extractLsb', BitVec.getLsbD_append]
    grind

end Sys2Proof.Machine

/-! ### One response per command, and the payload in pieces (30_encoding.md) -/

namespace Sys2Proof.Machine

/-! #### The turns of the `WRBLK` loop -/

/-- The loop with bytes to move and none pending stands still, its counters at the next byte (R97, R205). -/
theorem writeBlock_dry (ba : Addr) (n : Nat) {s : State} (hw : s.wd = []) :
    writeBlock ba (n + 1) s = { s with counters := blockCounters ba (n + 1) } := by
  simp only [writeBlock, hw]

/-- A turn of the loop with a byte pending (R205). -/
theorem writeBlock_turn (ba : Addr) (n : Nat) {d : Byte} {rest : List Byte} {s : State} (hw : s.wd = d :: rest) :
    writeBlock ba (n + 1) s =
      writeBlock (nextAddr ba) n (writeByte ba d (takePayload d rest (blockCounters ba (n + 1)) s)) := by
  simp only [writeBlock, hw]

/-- The loop loads the counters before it reads them (R31, R205). -/
theorem writeBlock_withCounters (ba : Addr) (n : Nat) (c : BlockCounters) (s : State) :
    writeBlock ba n { s with counters := c } = writeBlock ba n s := by
  cases n with
  | zero => rfl
  | succ n => cases hw : s.wd <;> simp only [writeBlock, hw, takePayload, record]

/-- `BC` can hold what is left of a block (R31). -/
theorem toNat_blockCounters_bc (ba : Addr) {n : Nat} (h : n < 2 ^ 16) : (blockCounters ba n).bc.toNat = n := by
  simp only [blockCounters, BitVec.toNat_ofNat, Nat.mod_eq_of_lt h]

theorem blockCounters_toNat (c : BlockCounters) : blockCounters c.ba c.bc.toNat = c := by
  rw [blockCounters, BitVec.ofNat_toNat, BitVec.setWidth_eq]

/-- The counter after `k` of `n` bytes, counted as a number and counted down in `BC` (R31). -/
theorem ofNat_toNat_sub (n : Len) {k : Nat} (h : k ≤ n.toNat) :
    BitVec.ofNat 16 (n.toNat - k) = n - BitVec.ofNat 16 k := by
  rw [← BitVec.ofNat_sub_ofNat_of_le _ _ (by have := n.isLt; omega) h, BitVec.ofNat_toNat, BitVec.setWidth_eq]

/-! #### A waiting `WRBLK` -/

/-- Out of reset a busy `WRBLK` goes on from its counters (R97). -/
theorem proceed_of_inBlockWrite {s : State} (h : s.seq.inBlockWrite = true) :
    proceed s = finish (writeBlock s.counters.ba s.counters.bc.toNat s) := by
  unfold Seq.inBlockWrite at h
  split at h
  case h_1 hq => simp only [proceed, hq, resumeBlock]
  all_goals cases h

/-- A loop gone on with before a byte has come changes nothing (R97). -/
theorem writeBlock_of_waiting {s : State} (hb : s.counters.bc ≠ 0#16) (hw : s.wd = []) :
    writeBlock s.counters.ba s.counters.bc.toNat s = s := by
  obtain ⟨m, hm⟩ := Nat.exists_eq_add_one_of_ne_zero fun h => hb (BitVec.eq_of_toNat_eq h)
  rw [hm, writeBlock_dry _ m hw, ← hm, blockCounters_toNat]

/-- Settles O50: the loop stands still, and a run that ends in a ready state met no hazard. -/
theorem waitingBlockStays : Obligations.WaitingBlockStays := by
  rintro s ⟨hr, hq, hb⟩ hrst hw
  obtain ⟨⟨hwf, -⟩, -⟩ := id hr
  rw [step_of_released hwf hrst, proceed_of_inBlockWrite hq, writeBlock_of_waiting hb hw, finish_of_ready hr]

/-- Settles O49: the bytes that have come are written as in a whole block, and the counters stand at the next one. -/
theorem wrblkWaitsForPayload : Obligations.WrblkWaitsForPayload := by
  rintro a n s ⟨hr, -⟩ hlen
  obtain ⟨t, es, hb, hwd, hx⟩ := exec_wrblk_dry a n hr hlen
  obtain ⟨p, hp⟩ := hb.busy _ _ rfl
  have heq := hb.eq
  have hdiag : t.diag = s.diag ++ reports es := by rw [heq]; rfl
  have htrace : t.trace = s.trace ++ es := by rw [heq]; rfl
  refine ⟨_, hx, ?_, ⟨hb.ready, ?_, ?_⟩, ⟨p, hp⟩, hb.frame, hb.shown, ⟨es, htrace, hb.record, hdiag⟩, ?_, ?_⟩
  · rw [← ofNat_toNat_sub n hlen.le]
    conv_lhs => rw [heq, hwd]
    simp only [hdiag, htrace]
    rfl
  · show t.seq.inBlockWrite = true
    rw [hp]; rfl
  · intro h
    have := congrArg BitVec.toNat h
    rw [toNat_blockCounters_bc _ (by omega)] at this
    simp at this; omega
  · intro j hj hlast
    exact (congrArg some (hb.cells _)).trans (blockByte_of_last a s.wd _ j hj hlast)
  · intro b hmiss
    exact (hb.cells b).trans (blockByte_of_missed a s.wd b _ hmiss)

/-! #### The payload in pieces -/

/-- `s` with other payload pending on port `WD`. -/
def withPayload (w : List Byte) (s : State) : State := { s with wd := w }

/-- A byte write neither reads nor moves the payload that is pending (R97, R195). -/
theorem writeByte_withPayload (a : Addr) (d : Byte) (w : List Byte) (s : State) :
    writeByte a d (withPayload w s) = withPayload w (writeByte a d s) := by
  obtain ⟨k, es, hq, hc, -, ht, hswap⟩ := (unobserving_writeByte a d).eq s
  calc writeByte a d (withPayload w s)
      = swapControl (advanceBy k s.seq) s.counters w (s.trace ++ es) (writeByte a d s) := hswap s.seq s.counters w s.trace
    _ = withPayload w (writeByte a d s) := by rw [← hq, ← hc, ← ht]; rfl

/-- A byte write takes no payload byte (R195). -/
theorem writeByte_wd (a : Addr) (d : Byte) (s : State) : (writeByte a d s).wd = s.wd := by
  obtain ⟨k, es, -, -, h, -⟩ := (unobserving_writeByte a d).eq s
  exact h

/-- The loop run dry and gone on with when `rest` has come ends as the loop with `rest` pending from the start (R97). -/
theorem writeBlock_resume {n : Nat} (rest : List Byte) (ba : Addr) {s t : State} (h : s.wd.length < n) (hn : n < 2 ^ 16)
    (ht : t = writeBlock ba n s) :
    writeBlock t.counters.ba t.counters.bc.toNat (withPayload rest t) =
      writeBlock ba n (withPayload (s.wd ++ rest) s) := by
  subst ht
  induction n generalizing ba s with
  | zero => omega
  | succ n ih =>
    cases hw : s.wd with
    | nil =>
      rw [writeBlock_dry ba n hw, toNat_blockCounters_bc ba hn]
      exact writeBlock_withCounters ba (n + 1) _ (withPayload rest s)
    | cons d w =>
      have hwd : (writeByte ba d (takePayload d w (blockCounters ba (n + 1)) s)).wd = w := by
        rw [writeByte_wd, takePayload_wd]
      rw [hw, List.length_cons] at h
      rw [writeBlock_turn ba n hw, ih (nextAddr ba) (by rw [hwd]; omega) (by omega), hwd, ← writeByte_withPayload,
        writeBlock_turn ba n (s := withPayload (d :: w ++ rest) s) rfl]
      rfl

/-- `WRBLK` on a ready block is its loop (R205). -/
theorem exec_wrblk_eq_finish (a : Addr) (n : Len) {s : State} (h : s.Ready) :
    exec (.wrblk a n) s = finish (writeBlock a n.toNat (accept (.wrblk a n) s)) := by
  simp only [exec, execWrblk]
  exact perform_of_ready _ h rfl rfl

/-- Settles O51: the waiting block's step is the loop gone on with, which ends as the loop over the whole payload. -/
theorem payloadMayComeInPieces : Obligations.PayloadMayComeInPieces := by
  intro a n first rest s t hs hrst hlen hx
  have hexec : ∀ w, exec (.wrblk a n) (withPayload w s) =
      finish (writeBlock a n.toNat (accept (.wrblk a n) (withPayload w s))) := fun w => exec_wrblk_eq_finish a n hs.1
  have hloop : t = writeBlock a n.toNat (accept (.wrblk a n) (withPayload first s)) :=
    finish_next ((hexec first).symm.trans hx)
  obtain ⟨t', hx', heq, ⟨⟨⟨hwf, -⟩, -⟩, hq, -⟩, -⟩ := wrblkWaitsForPayload a n (withPayload first s) hs hlen
  obtain rfl : t = t' := Host.Outcome.next.inj (hx.symm.trans hx')
  have htrst : t.rstN = .released := by rw [heq]; exact hrst
  calc step (withPayload rest t)
      = proceed (withPayload rest t) := step_of_released hwf htrst
    _ = finish (writeBlock t.counters.ba t.counters.bc.toNat (withPayload rest t)) := proceed_of_inBlockWrite hq
    _ = finish (writeBlock a n.toNat (accept (.wrblk a n) (withPayload (first ++ rest) s))) :=
        congrArg finish (writeBlock_resume rest a hlen n.isLt hloop)
    _ = exec (.wrblk a n) (withPayload (first ++ rest) s) := (hexec (first ++ rest)).symm

/-! #### The procedures on a ready block -/

theorem ready_setMode {s : State} (d : Dir) (h : s.Ready) : (setMode d s).Ready := by
  obtain ⟨-, -, ⟨hce, -, -⟩, -⟩ := id h
  rw [setMode_of_quiet d (deviceAccepts_of_ce_high hce) (deviceDrives_of_ce_high hce)]
  exact h

theorem ready_writeBus {s : State} (b : Byte) (h : s.Ready) : (writeBus b s).Ready := by
  obtain ⟨-, -, ⟨hce, -, -⟩, -⟩ := id h
  cases hd : s.ddir with
  | input => rw [writeBus_input b hd]; exact h
  | output =>
    rw [writeBus_output b hd (deviceAccepts_of_ce_high hce) (deviceDrives_of_ce_high hce)]
    exact h

theorem ready_readBus {s : State} (h : s.Ready) : (readBus s).2.Ready := by
  unfold readBus
  split <;> exact h

/-- The flush of a new mirror on an existing chain (R123, R288). -/
theorem ready_flush_new_mirror {s : State} (h : s.Ready) {c : ChainId} (he : chainExists s.cfg c = true) {m : List Byte}
    (hm : m.length = (s.chain c).mirror.length) : (flush c (s.setChain c { s.chain c with mirror := m })).Ready := by
  have hlen : m.length = banks s.cfg c := hm.trans (ready_chain h he).1.1
  rw [flush_new_mirror h he m hlen]
  exact ready_settled (ready_played _ h) he hlen

/-- The flush of an existing chain (R129, R288). -/
theorem ready_flush {s : State} (h : s.Ready) {c : ChainId} (he : chainExists s.cfg c = true) : (flush c s).Ready := by
  have hnew := ready_flush_new_mirror h he (m := (s.chain c).mirror) rfl
  rwa [setChain_chain] at hnew

/-- The steps of `BEGIN` send nothing on `RSP` (R191). -/
theorem beginSteps_rsp {s : State} (hc : s.ceN ≠ .low) (h : s.Sound) : (beginSteps s).rsp = s.rsp := by
  obtain ⟨hw, h1, h2, hp, -⟩ := h
  rw [beginSteps_eq hc hw h1 h2 hp]
  rfl

/-! #### One response per command -/

/-- The check of R254 passes only for a chain that exists. -/
theorem chainOperandOk_of_valueError {i : Instr} {s : State} (h : valueError i s = none) :
    chainOperandOk s.cfg i = true := by
  unfold valueError at h
  split_ifs at h with _ hc
  simpa using hc

/-- The body of a command runs to its response and to no other: what it answers, after which state (R98). -/
def Answers (body : State → State) (s : State) : Prop :=
  ∃ d u, body s = respond d u ∧ u.Ready ∧ u.rsp = s.rsp

/-- A command that the checks refuse has its one response from them; otherwise its body has to answer (R98, R251). -/
theorem one_response_of_perform {i : Instr} {body : State → State} {s t : State} (h : s.AtBoundary)
    (hx : perform i body s = .next t) (hb : valueError i s = none → Answers body (accept i s)) :
    t.AtBoundary ∧ ∃ r, t.rsp = s.rsp ++ [r] := by
  unfold perform at hx
  split at hx
  · obtain rfl := Host.Outcome.next.inj hx
    exact ⟨h, _, rfl⟩
  case h_2 hv =>
    obtain ⟨d, u, he, hu, hr⟩ := hb hv
    obtain rfl := finish_next hx
    rw [he]
    exact ⟨atBoundary_respond d hu, _, congrArg (· ++ _) hr⟩

/-- A chain command that sets the mirror of its chain and flushes it answers (R126 to R129). -/
theorem answers_flush {i : Instr} {c : ChainId} {s : State} (h : s.Ready)
    (hi : chainOperandOk s.cfg i = chainExists s.cfg c) (f : List Byte → List Byte) (hf : ∀ m, (f m).length = m.length)
    (hv : valueError i s = none) :
    Answers (fun s => respond 0x00#8 (flush c (s.setChain c { s.chain c with mirror := f (s.chain c).mirror })))
      (accept i s) :=
  ⟨_, _, rfl, ready_flush_new_mirror (ready_accept i h) (hi ▸ chainOperandOk_of_valueError hv) (hf _), by simp⟩

/-- Every command at a boundary, but a `WRBLK` whose payload has not all come, ends at a boundary with one response: the
checks refuse it, or its body answers (R98). -/
theorem exec_one_response {i : Instr} {s t : State} (h : s.AtBoundary)
    (hfull : ∀ a n, i = .wrblk a n → n.toNat ≤ s.wd.length) (hx : exec i s = .next t) :
    t.AtBoundary ∧ ∃ r, t.rsp = s.rsp ++ [r] := by
  have hr : (accept i s).Ready := ready_accept i h.1
  cases i <;> simp only [exec, execBegin, execSetbit, execClrall, execSetall, execFlush, execSetaddr, execDmode,
    execDwrite, execDread, execWrbyte, execRdbyte, execWrblk, execRdblk] at hx
  case begin =>
    obtain ⟨hsound, -, ⟨hce, -, -⟩, -⟩ := id hr
    have hne : (accept .begin s).ceN ≠ .low := by rw [hce]; decide
    exact one_response_of_perform h hx fun _ =>
      ⟨_, _, rfl, ready_beginSteps hne hsound, beginSteps_rsp hne hsound⟩
  case setbit c idx v =>
    exact one_response_of_perform h hx (answers_flush h.1 rfl (putMirrorBit · idx.toNat v) (by simp))
  case clrall c => exact one_response_of_perform h hx (answers_flush h.1 rfl (List.map fun _ => 0x00#8) (by simp))
  case setall c => exact one_response_of_perform h hx (answers_flush h.1 rfl (List.map fun _ => 0xFF#8) (by simp))
  case flush c =>
    exact one_response_of_perform h hx fun hv =>
      ⟨_, _, rfl, ready_flush hr (chainOperandOk_of_valueError hv), by simp⟩
  case setaddr a => exact one_response_of_perform h hx fun _ => ⟨_, _, rfl, ready_setAddress a hr, by simp⟩
  case dmode d => exact one_response_of_perform h hx fun _ => ⟨_, _, rfl, ready_setMode d hr, by simp⟩
  case dwrite d => exact one_response_of_perform h hx fun _ => ⟨_, _, rfl, ready_writeBus d hr, by simp⟩
  case dread => exact one_response_of_perform h hx fun _ => ⟨_, _, rfl, ready_readBus hr, by simp⟩
  case wrbyte a d =>
    exact one_response_of_perform h hx fun _ => ⟨_, _, rfl, ready_writeByte a d hr, writeByte_rsp a d hr⟩
  case rdbyte a => exact one_response_of_perform h hx fun _ => ⟨_, _, rfl, ready_readByte a hr, readByte_rsp a hr⟩
  case wrblk a n =>
    obtain ⟨u, es, hb, -, hu⟩ := exec_wrblk_full a n h.1 (hfull a n rfl)
    obtain rfl := Host.Outcome.next.inj (hx.symm.trans hu)
    refine ⟨atBoundary_respond _ (ready_retireCounters hb.ready), okWord 0x00#8, ?_⟩
    rw [respond_rsp, retireCounters_rsp, hb.eq]
    rfl
  case rdblk a n =>
    obtain ⟨u, es, hb, hu⟩ := readBlock_spec n.toNat a hr
    exact one_response_of_perform h hx fun _ => ⟨_, _, hu, ready_retireCounters hb.ready, by rw [hb.eq]; rfl⟩

/-- Settles O13: a `WRBLK` run dry waits, and every other command answers once. -/
theorem oneResponsePerCommand : Obligations.OneResponsePerCommand := by
  intro i s t h hx
  by_cases hdry : ∃ a n, i = .wrblk a n ∧ s.wd.length < n.toNat
  · obtain ⟨a, n, rfl, hlen⟩ := hdry
    obtain ⟨u, hu, heq, hwait, -⟩ := wrblkWaitsForPayload a n s h hlen
    obtain rfl : t = u := Host.Outcome.next.inj (hx.symm.trans hu)
    exact .inr ⟨hwait, by rw [heq]⟩
  · exact .inl (exec_one_response h (fun a n hi => Nat.le_of_not_lt fun hlt => hdry ⟨a, n, hi, hlt⟩) hx)

end Sys2Proof.Machine

/-! ### The banks, the flush and the chain commands (40_chain.md) -/

namespace Sys2Proof.Machine

/-! #### One event at a pin of a chain -/

/-- A level that is the same either way is that level (R9). -/
@[simp] theorem eitherLevel_self (a : Level) : eitherLevel a a = a := if_pos rfl

/-- Where two lists agree, an edge that may or may not take the other list keeps the level (R9). -/
theorem getElem?_zipWith_eitherLevel {a b : List Level} {i : Nat} (h : a[i]? = b[i]?) :
    (List.zipWith eitherLevel a b)[i]? = a[i]? := by
  rw [List.getElem?_zipWith, ← h]
  cases a[i]? <;> simp

/-- What each stage holds one place up the chain (R121). -/
theorem getElem?_shiftedStages (ser : Level) {sh : List Level} {i : Nat} (h : i < sh.length) :
    (shiftedStages ser sh)[i]? = if i = 0 then some ser else sh[i - 1]? := by
  rw [shiftedStages, List.getElem?_take_of_lt h, List.getElem?_cons]

/-- At its own pin's event a chain is as the banks' rule leaves it (R121); the memory device's reaction moves no bank. -/
@[simp] theorem chain_drive_sck (c : ChainId) (l : Bool) (s : State) :
    (drive (.sck c) l s).chain c = driveClock l (s.chain c) := by simp [chain_drive, setPin]

@[simp] theorem chain_drive_lat (c : ChainId) (l : Bool) (s : State) :
    (drive (.lat c) l s).chain c = driveLatch l (s.chain c) := by simp [chain_drive, setPin]

@[simp] theorem chain_drive_ser (c : ChainId) (l : Bool) (s : State) :
    (drive (.ser c) l s).chain c = { s.chain c with ser := levelOf l } := by simp [chain_drive, setPin]

/-- A falling clock edge, and a level already high, move no stage (R121). -/
theorem driveClock_sh_of_no_rise {l : Bool} {ch : Chain} (h : l = false ∨ ch.sck = .high) :
    (driveClock l ch).sh = ch.sh := by
  rcases h with rfl | h
  · cases hs : ch.sck <;> simp [driveClock, hs]
  · cases l <;> simp [driveClock, h]

theorem driveClock_sh_of_rise {ch : Chain} (h : ch.sck = .low) :
    (driveClock true ch).sh = shiftedStages ch.ser ch.sh := by simp [driveClock, h]

theorem driveClock_sh_of_unknown {ch : Chain} (h : ch.sck = .unknown) :
    (driveClock true ch).sh = List.zipWith eitherLevel ch.sh (shiftedStages ch.ser ch.sh) := by simp [driveClock, h]

/-- No clock event changes how many stages there are (R33). -/
@[simp] theorem length_driveClock_sh (l : Bool) (ch : Chain) : (driveClock l ch).sh.length = ch.sh.length := by
  cases l
  · rw [driveClock_sh_of_no_rise (.inl rfl)]
  · cases h : ch.sck with
    | low => simp [driveClock_sh_of_rise h]
    | high => rw [driveClock_sh_of_no_rise (.inr h)]
    | unknown => simp [driveClock_sh_of_unknown h]

/-- From `X` a stage that holds the same whether or not the edge shifts keeps it (R121, log entry 4). -/
theorem getElem?_driveClock_sh_of_unknown {ch : Chain} (h : ch.sck = .unknown) {i : Nat}
    (hi : ch.sh[i]? = if i = 0 then some ch.ser else ch.sh[i - 1]?) : (driveClock true ch).sh[i]? = ch.sh[i]? := by
  rw [driveClock_sh_of_unknown h]
  apply getElem?_zipWith_eitherLevel
  by_cases hlt : i < ch.sh.length
  · rw [getElem?_shiftedStages ch.ser hlt, ← hi]
  · rw [List.getElem?_eq_none (by omega), List.getElem?_eq_none (by simp; omega)]

/-- Settles O25: what the chain is after each event, edge by edge. -/
theorem clockEdgeShifts : Obligations.ClockEdgeShifts := by
  rintro c l s ch t rfl rfl
  simp only [chain_drive_sck, chain_drive_ser, chain_drive_lat]
  refine ⟨rfl, rfl, rfl, length_driveClock_sh l _, driveClock_sh_of_no_rise, ?_, ?_, ?_, trivial, rfl⟩
  · rintro rfl hlow hlen
    rw [driveClock_sh_of_rise hlow, getElem?_shiftedStages _ hlen, if_pos rfl]
  · rintro rfl hlow i hpos hlen
    rw [driveClock_sh_of_rise hlow, getElem?_shiftedStages _ hlen, if_neg (by omega)]
  · rintro rfl hx i hi
    exact getElem?_driveClock_sh_of_unknown hx hi

/-- A falling latch edge, and a level already high, change no output (R122). -/
theorem driveLatch_out_of_no_rise {l : Bool} {ch : Chain} (h : l = false ∨ ch.lat = .high) :
    (driveLatch l ch).out = ch.out := by
  rcases h with rfl | h
  · cases hs : ch.lat <;> simp [driveLatch, hs]
  · cases l <;> simp [driveLatch, h]

/-- Settles O26: what the outputs are after each event, edge by edge. -/
theorem latchEdgeCopies : Obligations.LatchEdgeCopies := by
  rintro c l s ch t rfl rfl
  simp only [chain_drive_lat]
  refine ⟨rfl, rfl, rfl, ?_, driveLatch_out_of_no_rise, ?_⟩
  · rintro rfl hlow
    simp [driveLatch, hlow]
  · rintro rfl hx i hi
    simp only [driveLatch, hx]
    exact getElem?_zipWith_eitherLevel hi

/-! #### A flush from any state -/

/-- The three pins of chain `c` (R26). -/
def chainPins (c : ChainId) : List Pin := [.ser c, .sck c, .lat c]

/-- An event at a pin of chain `c` moves that chain, but not its mirror, and then the memory device reacts (R121, R122). -/
theorem drive_chainPin {c : ChainId} {p : Pin} (hp : p ∈ chainPins c) (l : Bool) (s : State) :
    ∃ ch, ch.mirror = (s.chain c).mirror ∧ drive p l s = react s ((played [.drive p l] s).setChain c ch) := by
  rw [drive_eq]
  simp only [chainPins, List.mem_cons, List.not_mem_nil, or_false] at hp
  rcases hp with rfl | rfl | rfl <;> exact ⟨_, by simp [driveClock, driveLatch], rfl⟩

/-- What no event at a pin of chain `c` changes, a flush of chain `c` does not change (R123). -/
theorem flush_keeps {β : Type} {c : ChainId} {g : State → β}
    (h : ∀ p ∈ chainPins c, ∀ l s, g (drive p l s) = g s) (s : State) : g (flush c s) = g s := by
  have hser := h (.ser c) (by simp [chainPins])
  have hsck := h (.sck c) (by simp [chainPins])
  have hlat := h (.lat c) (by simp [chainPins])
  have hbit : ∀ s b, g (sendBit c s b) = g s := fun s b => by rw [sendBit, hsck, hsck, hser]
  rw [flush, hlat, foldl_keeps (sendBit c) g hbit, hlat]

/-- A part of the state that the memory device's reaction, the record and a change of chain `c` outside its mirror all leave
alone is kept by a flush of chain `c` (R123). -/
theorem flush_keeps_of_frame {β : Type} {c : ChainId} {g : State → β} (hr : ∀ before s, g (react before s) = g s)
    (hp : ∀ es s, g (played es s) = g s)
    (hc : ∀ s ch, ch.mirror = (s.chain c).mirror → g (s.setChain c ch) = g s) (s : State) : g (flush c s) = g s := by
  refine flush_keeps (fun p hpin l s => ?_) s
  obtain ⟨ch, hm, he⟩ := drive_chainPin hpin l s
  rw [he, hr, hc _ _ (by simpa using hm), hp]

@[simp] theorem flush_apinPins (c : ChainId) (s : State) : (flush c s).apinPins = s.apinPins :=
  flush_keeps_of_frame (g := State.apinPins) (by simp) (by simp) (by simp) s
@[simp] theorem flush_ceN (c : ChainId) (s : State) : (flush c s).ceN = s.ceN :=
  flush_keeps_of_frame (g := State.ceN) (by simp) (by simp) (by simp) s
@[simp] theorem flush_oeN (c : ChainId) (s : State) : (flush c s).oeN = s.oeN :=
  flush_keeps_of_frame (g := State.oeN) (by simp) (by simp) (by simp) s
@[simp] theorem flush_weN (c : ChainId) (s : State) : (flush c s).weN = s.weN :=
  flush_keeps_of_frame (g := State.weN) (by simp) (by simp) (by simp) s

/-- A flush reads the mirror and does not write it (R123). -/
@[simp] theorem flush_mirror (c : ChainId) (s : State) : ((flush c s).chain c).mirror = (s.chain c).mirror :=
  flush_keeps_of_frame (g := fun s => (s.chain c).mirror) (by simp) (by simp) (by simp) s

/-- A flush leaves the other chain (R123). -/
theorem flush_chain_of_ne {c d : ChainId} (h : d ≠ c) (s : State) : (flush c s).chain d = s.chain d :=
  flush_keeps_of_frame (g := (State.chain · d)) (by simp) (by simp) (fun s ch _ => chain_setChain_of_ne s h ch) s

theorem sendEvents_cons (c : ChainId) (b : Bool) (bits : List Bool) :
    sendEvents c (b :: bits) =
      [.drive (.ser c) b, .drive (.sck c) true, .drive (.sck c) false] ++ sendEvents c bits := rfl

/-- The events of the bits sent, in the order of the bits (R123). -/
theorem sendBits_trace (c : ChainId) (bits : List Bool) (s : State) :
    (bits.foldl (sendBit c) s).trace = s.trace ++ sendEvents c bits := by
  induction bits generalizing s with
  | nil => simp [sendEvents]
  | cons b bits ih => rw [List.foldl_cons, ih, sendEvents_cons]; simp [sendBit]

theorem flushEvents_eq (c : ChainId) (m : List Byte) :
    flushEvents c m = [.drive (.lat c) false] ++ sendEvents c (serialStream m) ++ [.drive (.lat c) true] := rfl

/-- From every state a flush records R123's events, and nothing else. -/
@[simp] theorem flush_trace (c : ChainId) (s : State) :
    (flush c s).trace = s.trace ++ flushEvents c (s.chain c).mirror := by
  rw [flush, drive_trace, sendBits_trace, drive_trace, flushEvents_eq]
  simp only [List.append_assoc]

/-- Every bit sent raises the clock once (R123). -/
theorem count_rise_sendEvents (c : ChainId) (bits : List Bool) :
    (sendEvents c bits).count (.drive (.sck c) true) = bits.length := by
  induction bits with
  | nil => rfl
  | cons b bits ih => simp [sendEvents_cons, ih]

/-- A flush raises the clock once for each bit of the mirror (R123). -/
theorem count_rise_flushEvents (c : ChainId) (m : List Byte) :
    (flushEvents c m).count (.drive (.sck c) true) = 8 * m.length := by
  simp [flushEvents_eq, count_rise_sendEvents, length_serialStream]

/-- Settles O27: the events of the stream bit by bit, and what none of them changes. -/
theorem flushEventOrder : Obligations.FlushEventOrder := by
  intro c s
  have hcount := pinEvents_flushEvents c (s.chain c).mirror
  have hlen := (addressEvents_flush c (s.chain c).mirror).pinEvents
  exact ⟨flush_trace c s, hlen.symm.trans hcount, hcount, count_rise_flushEvents c _, flush_mirror c s, flush_init c s,
    flush_apin c s, flush_apinPins c s, flush_ddir c s, flush_dout c s, flush_ceN c s, flush_oeN c s, flush_weN c s,
    fun _ hd => flush_chain_of_ne hd s⟩

/-- Settles O28: the flush leaves the chain as its mirror spells it, whose levels are the mirror bits. -/
theorem flushPutsMirrorOnOutputs : Obligations.FlushPutsMirrorOnOutputs := by
  intro c s n hce hn ⟨hm, hsh, _⟩ hsck
  have hflush : (flush c s).chain c = settledChain (s.chain c).mirror := by
    rw [flush_eq c hce hsck (ne_nil_of_length hm hn) (by rw [hsh, hm]), chain_setChain]
  rw [hflush]
  exact ⟨rfl, fun idx hidx => ⟨getElem?_mirrorLevels _ idx (by rwa [hm]), rfl⟩, rfl, rfl, rfl⟩

/-! #### The chain commands -/

@[simp] theorem chain_accept (i : Instr) (s : State) (c : ChainId) : (accept i s).chain c = s.chain c := by
  cases c <;> rfl

/-- A command that passes the checks and flushes the new mirror `m` of its chain ends with `m` on the banks, one whole
flush recorded and the answer sent (R126 to R129). -/
theorem perform_flush {i : Instr} {body : State → State} {c : ChainId} {m : List Byte} {s : State} (h : s.AtBoundary)
    (he : chainExists s.cfg c = true) (hi : chainOperandOk s.cfg i = chainExists s.cfg c)
    (hx : indexOperandOk s.cfg i = true) (hm : m.length = (s.chain c).mirror.length)
    (hb : body (accept i s) = respond 0x00#8 (flush c ((accept i s).setChain c { s.chain c with mirror := m }))) :
    perform i body s = .next (flushedAndAnswered c m s) := by
  obtain ⟨⟨hlen, _⟩, _⟩ := ready_chain h.1 he
  rw [perform_of_ready body h.1 (hi.trans he) hx, hb, respond_flush h i he m (hm.trans hlen)]

/-- A command that passes the checks and flushes its chain's mirror filled with `w` (R127, R128). -/
theorem perform_fill (w : Byte) {i : Instr} {c : ChainId} {s : State} (h : s.AtBoundary)
    (he : chainExists s.cfg c = true) (hi : chainOperandOk s.cfg i = chainExists s.cfg c)
    (hx : indexOperandOk s.cfg i = true) :
    perform i (fun s => respond 0x00#8 (flush c (fillMirror c w s))) s =
      .next (flushedAndAnswered c (List.replicate (banks s.cfg c) w) s) := by
  obtain ⟨⟨hlen, _⟩, _⟩ := ready_chain h.1 he
  exact perform_flush h he hi hx (by simp [hlen]) (by simp [fillMirror, hlen])

/-- Settles O29: the flush of the mirror with the one bit written. -/
theorem setbitResult : Obligations.SetbitResult := by
  intro c idx v s h he hidx
  obtain ⟨⟨hlen, _⟩, _⟩ := ready_chain h.1 he
  refine ⟨putMirrorBit (s.chain c).mirror idx.toNat v, ?_, length_putMirrorBit _ _ _,
    fun j => mirrorBit_putMirrorBit _ _ j v (by rwa [hlen])⟩
  simp only [exec, execSetbit]
  exact perform_flush h he rfl (decide_eq_true hidx) (length_putMirrorBit _ _ _) (by simp [writeMirrorBit])

/-- Settles O30: the flush of the mirror filled with 0x00. -/
theorem clrallResult : Obligations.ClrallResult := by
  intro c s h he
  simp only [exec, execClrall]
  exact perform_fill 0x00#8 h he rfl rfl

/-- Settles O31: the flush of the mirror filled with 0xFF. -/
theorem setallResult : Obligations.SetallResult := by
  intro c s h he
  simp only [exec, execSetall]
  exact perform_fill 0xFF#8 h he rfl rfl

/-- At a boundary an existing chain is already as a flush of its own mirror leaves it, so such a flush only adds to the
records (R130, R288). -/
theorem flushedAndAnswered_own_mirror {s : State} (h : s.Ready) {c : ChainId} (he : chainExists s.cfg c = true) :
    flushedAndAnswered c (s.chain c).mirror s =
      { s with trace := s.trace ++ flushEvents c (s.chain c).mirror, rsp := s.rsp ++ [0x8000#16] } := by
  obtain ⟨_, hsettled, _⟩ := ready_chain h he
  rw [flushedAndAnswered, ← hsettled]
  cases c <;> rfl

/-- Settles O32: the flush of the mirror that the banks already show. -/
theorem flushChangesNothing : Obligations.FlushChangesNothing := by
  intro c s h he
  have hown : ((accept (.flush c) s).setChain c (s.chain c)) = accept (.flush c) s := by
    rw [← chain_accept (.flush c), setChain_chain]
  have hrun : exec (.flush c) s = .next (flushedAndAnswered c (s.chain c).mirror s) := by
    simp only [exec, execFlush]
    exact perform_flush h he rfl rfl rfl (by rw [hown])
  exact hrun.trans (congrArg Host.Outcome.next (flushedAndAnswered_own_mirror h.1 he))

/-! #### An index past the chain -/

/-- A command that a check refuses sends its error response and does nothing else (R251). -/
theorem perform_of_refused {i : Instr} {e : ErrorCode} {s : State} (body : State → State)
    (h : valueError i s = some e) : perform i body s = .next (raiseError e s) := by
  simp [perform, h]

/-- With `INIT` at 1 and the chain there, the check of R255 is the one that fails (R258). -/
theorem valueError_of_index_beyond {c : ChainId} {idx : Byte} (v : Bool) {s : State} (hi : s.init = true)
    (he : chainExists s.cfg c = true) (hx : 8 * banks s.cfg c ≤ idx.toNat) :
    valueError (.setbit c idx v) s = some .indexRange := by
  have hr : indexInRange s.cfg c idx = false := decide_eq_false (by omega)
  simp [valueError, chainOperandOk, indexOperandOk, hi, he, hr]

theorem errorWord_indexRange : errorWord .indexRange = 0x0400#16 := by decide

/-- Settles O22: the check of R255 refuses the command. -/
theorem indexBeyondChainRefused : Obligations.IndexBeyondChainRefused := by
  intro c idx v s hi he hx
  simp only [exec, execSetbit]
  rw [perform_of_refused _ (valueError_of_index_beyond v hi he hx), raiseError, errorWord_indexRange]

end Sys2Proof.Machine

/-! ### The address command, and a read on any backend (41_address_bus.md) -/

namespace Sys2Proof.Machine

/-! #### `SETADDR` as `setAddress` -/

/-- `setAddress` does not observe that a command runs, and its response makes the block idle again (R30, R151). -/
theorem respond_setAddress_accept (a : Addr) (d : Byte) (i : Instr) (s : State) :
    respond d (setAddress a (accept i s)) = respond d (setAddress a s) := by
  obtain ⟨k, es, -, hc, hwd, ht, hswap⟩ := (unobserving_setAddress a).eq s
  calc respond d (setAddress a (accept i s))
      = respond d (swapControl (advanceBy k (.busy i 0)) s.counters s.wd (s.trace ++ es) (setAddress a s)) :=
        congrArg (respond d) (hswap (.busy i 0) s.counters s.wd s.trace)
    _ = respond d (setAddress a s) := by rw [← hc, ← hwd, ← ht]; rfl

/-- `SETADDR` runs `setAddress` and answers success (R151). -/
theorem exec_setaddr (a : Addr) {s : State} (h : s.Ready) :
    exec (.setaddr a) s = .next (respond 0x00#8 (setAddress a s)) := by
  simp only [exec, execSetaddr]
  rw [perform_of_ready _ h rfl rfl, respond_setAddress_accept, finish_of_ready (ready_respond _ (ready_setAddress a h))]

/-! #### The registers that carry address bits -/

/-- Chain 1 carries no more address bits than there are (R21). -/
theorem lowBits_le {c : Cfg} (h : c.wf = true) : lowBits c ≤ 15 := by
  rcases wf_cases h with ⟨hb, -⟩ | ⟨hb, -⟩ | ⟨hb, -, hk, -⟩ <;> simp only [lowBits, hb] <;> omega

section
variable {a : Addr} {s t : State} {es : List Event} (h : AddressSet a s t es)
include h

/-- `setAddress` reports the address and nothing else (R207). -/
theorem AddressSet.reports_events : reports (addressEventsWith s.cfg a es) = [.addrSet a] := by
  simp [addressEventsWith, h.events.reports]

theorem AddressSet.trace : t.trace = s.trace ++ addressEventsWith s.cfg a es := by rw [h.eq]; rfl

/-- An idle block after `setAddress` and its response: the address registers, the records and the answer (R151, R155). -/
theorem AddressSet.respond_eq (hq : s.seq = .idle) :
    respond 0x00#8 t =
      { s with
        chain1 := t.chain1, chain2 := t.chain2, apin := t.apin, apinPins := t.apinPins
        rsp := s.rsp ++ [0x8000#16], diag := s.diag ++ [.addrSet a], trace := t.trace } := by
  rw [h.trace, ← h.reports_events]
  conv_lhs => rw [h.eq]
  simp [respond, played, hq]

/-- The register of the direct pins takes the whole address, and only under `DIRECT` (R155). -/
theorem AddressSet.apin_eq : t.apin = if s.cfg.backend = .direct then a else s.apin := by
  apply BitVec.eq_of_getLsbD_eq
  intro j hj
  rw [h.apin]
  by_cases hb : s.cfg.backend = .direct <;> simp [hb, hj]

/-- Chain 1 takes its address bits and keeps its surplus bits (R155). -/
theorem AddressSet.mirror1_eq (j : Nat) :
    mirrorBit t.chain1.mirror j = if j < lowBits s.cfg then a.getLsbD j else mirrorBit s.chain1.mirror j := by
  have hlow : lowBits s.cfg ≤ 15 := lowBits_le (h.cfg ▸ h.programmable.1)
  have hiff : (j < 15 ∧ j < lowBits s.cfg) ↔ j < lowBits s.cfg := by omega
  simp only [h.mirror1, hiff]

/-- Chain 2 takes its address bits under `CHAIN2` and keeps its surplus bits (R155). -/
theorem AddressSet.mirror2_eq (j : Nat) :
    mirrorBit t.chain2.mirror j =
      if s.cfg.backend = .chain2 ∧ j < 15 - s.cfg.k then a.getLsbD (s.cfg.k + j) else mirrorBit s.chain2.mirror j := by
  have hiff : j + s.cfg.k < 15 ↔ j < 15 - s.cfg.k := by omega
  simp only [h.mirror2, hiff, Nat.add_comm]

end

/-- Settles O33: the command is `setAddress` and its response, and `setAddress_spec` says all that it does. -/
theorem setaddrResult : Obligations.SetaddrResult := by
  rintro a s ⟨hr, hq⟩
  obtain ⟨es, hp⟩ := setAddress_spec a (Programmable.of_ready hr)
  exact ⟨_, exec_setaddr a hr, hp.respond_eq hq, ⟨_, hp.trace, hp.record⟩, atBoundary_respond _ (ready_setAddress a hr),
    setAddress_shown a (Programmable.of_ready hr), hp.apin_eq, hp.mirror1_eq, hp.mirror2_eq, hp.frame⟩

/-- Settles O35: every event of the address part before the delay is a pin event, and `setAddress_spec` counts them. -/
theorem addressEventCount : Obligations.AddressEventCount := by
  rintro a s ⟨hr, -⟩
  obtain ⟨es, hp⟩ := setAddress_spec a (Programmable.of_ready hr)
  refine ⟨_, es, exec_setaddr a hr, ?_, hp.count, hp.events.pinEvents.symm.trans hp.count⟩
  rw [respond_trace, hp.trace, addressEventsWith, List.append_assoc]

/-! #### The addresses on the way -/

/-- Lines that show a number spell its bits, line 0 first (R9, R70). -/
theorem levels_eq_of_lineValue {l : List Level} {x : Nat} (h : lineValue l = some x) :
    l = (List.range l.length).map (fun i => levelOf (x.testBit i)) := by
  induction l generalizing x with
  | nil => rfl
  | cons v l ih =>
    have hcons : ∀ y, lineValue l = some y → ∀ b : Bool, x = Nat.bit b y → v = levelOf b →
        v :: l = (List.range (l.length + 1)).map (fun i => levelOf (x.testBit i)) := by
      rintro y hy b rfl rfl
      rw [List.range_succ_eq_map, List.map_cons, List.map_map, Nat.testBit_bit_zero]
      conv_lhs => rw [ih hy]
      simp [Function.comp_def, Nat.testBit_bit_succ]
    cases v with
    | low =>
      obtain ⟨y, hy, rfl⟩ := Option.map_eq_some_iff.1 h
      exact hcons y hy false rfl rfl
    | high =>
      obtain ⟨y, hy, rfl⟩ := Option.map_eq_some_iff.1 h
      exact hcons y hy true rfl rfl
    | unknown => cases h

/-- The address after `n` bit writes on the way from `old` to `x`: the low `n` bits of `x` below the upper bits of `old`
(R154). -/
def addressOnTheWay (old x n : Nat) : Nat := old / 2 ^ n * 2 ^ n + x % 2 ^ n

theorem testBit_addressOnTheWay (old x n j : Nat) :
    (addressOnTheWay old x n).testBit j = if j < n then x.testBit j else old.testBit j := by
  rw [addressOnTheWay, Nat.mul_comm, Nat.testBit_two_pow_mul_add _ (Nat.mod_lt _ (Nat.two_pow_pos n)),
    Nat.testBit_mod_two_pow, Nat.testBit_div_two_pow]
  by_cases hj : j < n
  · simp [hj]
  · rw [if_neg hj, if_neg hj, Nat.sub_add_cancel (Nat.le_of_not_lt hj)]

/-- On the way from an address of 15 bits no bit past them is set. -/
theorem addressOnTheWay_lt {old n : Nat} (x : Nat) (hold : old < 2 ^ 15) (hn : n ≤ 15) :
    addressOnTheWay old x n < 2 ^ 15 := by
  refine Nat.lt_pow_two_of_testBit _ fun j hj => ?_
  rw [testBit_addressOnTheWay, if_neg (by omega)]
  exact Nat.testBit_lt_two_pow (hold.trans_le (Nat.pow_le_pow_right (by decide) hj))

/-- The lines of a programmable block spell the address they show, which is one of 15 bits (R35). -/
theorem addressLines_of_shown {s : State} {x : Nat} (h : Programmable s) (hx : shownAddress s = some x) :
    addressLines s = (List.range 15).map (fun i => levelOf (x.testBit i)) ∧ x < 2 ^ 15 := by
  have hlines := levels_eq_of_lineValue hx
  rw [length_addressLines h] at hlines
  refine ⟨hlines, ?_⟩
  rw [shownAddress, hlines, lineValue_testBit, Option.some.injEq] at hx
  exact hx ▸ Nat.mod_lt _ (by decide)

/-- Each of the first `n` bit writes moves its own line, so the lines spell the address on the way (R154). -/
theorem addressLines_programBits (a : Addr) {s : State} {old n : Nat} (h : Programmable s)
    (hold : shownAddress s = some old) (hn : n ≤ 15) :
    addressLines (programBits a n s) =
      (List.range 15).map (fun i => levelOf ((addressOnTheWay old a.toNat n).testBit i)) := by
  obtain ⟨es, hp⟩ := programBits_spec a h n hn
  obtain ⟨hlines, -⟩ := addressLines_of_shown h hold
  apply List.ext_getElem?
  intro j
  by_cases hj : j < 15
  · rw [hp.lines j hj, hlines]
    by_cases hjn : j < n <;> simp [hj, hjn, testBit_addressOnTheWay, BitVec.testBit_toNat]
  · rw [List.getElem?_eq_none (by rw [length_addressLines hp.programmable]; omega),
      List.getElem?_eq_none (by simp; omega)]

/-- Settles O34: the lines spell the address on the way, which has 15 bits. -/
theorem intermediateAddresses : Obligations.IntermediateAddresses := by
  rintro a s old n ⟨hr, -⟩ hold hn
  have hP := Programmable.of_ready hr
  obtain ⟨-, hlt⟩ := addressLines_of_shown hP hold
  rw [shownAddress, addressLines_programBits a hP hold hn, lineValue_testBit,
    Nat.mod_eq_of_lt (addressOnTheWay_lt _ hlt hn), addressOnTheWay]

/-! #### A read on any backend -/

/-- A byte read leaves the lines at its address, whatever the backend (R158, R198). -/
theorem readByte_shown (a : Addr) {s : State} (h : s.Ready) : shownAddress (readByte a s).2 = some a.toNat := by
  obtain ⟨p, es, -, hp, hread⟩ := readByte_closed a h
  have hpa : shownAddress p = some a.toNat := by rw [shownAddress, hp.lines, lineValue_addressLevels]
  rw [hread, ← hpa]
  exact shownAddress_congr hp.cfg.symm rfl rfl rfl

/-- A response moves no address line. -/
@[simp] theorem shownAddress_respond (d : Byte) (s : State) : shownAddress (respond d s) = shownAddress s := rfl

/-- What `RDBYTE` answers and shows is a matter of the address and its cell alone (R198). -/
theorem exec_rdbyte_answer (a : Addr) {s : State} (h : s.Ready) :
    ∃ t, exec (.rdbyte a) s = .next t ∧ t.rsp = s.rsp ++ [okWord (memRead s a.toNat)] ∧
      shownAddress t = some a.toNat := by
  have hr := ready_accept (.rdbyte a) h
  refine ⟨_, exec_rdbyte a h, ?_, ?_⟩
  · rw [respond_rsp, readByte_rsp a hr, accept_rsp]
  · rw [shownAddress_respond, readByte_shown a hr]

/-- Settles O47: both blocks answer the byte of the one cell and show the one address. -/
theorem readsDoNotDependOnBackend : Obligations.ReadsDoNotDependOnBackend := by
  rintro a s s' ⟨hr, -⟩ ⟨hr', -⟩ hcell
  obtain ⟨t, ht, hrsp, hsh⟩ := exec_rdbyte_answer a hr
  obtain ⟨t', ht', hrsp', hsh'⟩ := exec_rdbyte_answer a hr'
  exact ⟨t, t', _, ht, ht', hrsp, hcell ▸ hrsp', hsh.trans hsh'.symm⟩

end Sys2Proof.Machine

/-! ### The data bus commands, a sample of the data lines, and contention (42_data_bus.md) -/

namespace Sys2Proof.Machine

/-! #### Whether the device drives -/

theorem deviceDrives_eq_true_iff {s : State} : deviceDrives s = true ↔ s.ceN = .low ∧ s.oeN = .low ∧ s.weN = .high := by
  simp [deviceDrives, and_assoc]

theorem deviceDrives_eq_false_iff {s : State} :
    deviceDrives s = false ↔ ¬(s.ceN = .low ∧ s.oeN = .low ∧ s.weN = .high) := by
  rw [← deviceDrives_eq_true_iff, Bool.not_eq_true]

/-- In input mode the driving device puts the cell at the shown address on the data lines (R36, R63). -/
theorem dataLines_of_driven {s : State} (hd : s.ddir = .input) (hv : deviceDrives s = true) :
    dataLines s = (shownAddress s).map (memRead s) := by
  simp only [dataLines, hd, hv]

/-- In input mode nothing drives the data lines when the device does not (R36). -/
theorem dataLines_of_input_not_drives {s : State} (hd : s.ddir = .input) (hv : deviceDrives s = false) :
    dataLines s = none := by
  simp only [dataLines, hd, hv]

/-- While the device does not drive, a sample is a free byte in either mode (R177 cases b and c). -/
theorem readBus_of_not_drives {s : State} (hv : deviceDrives s = false) :
    readBus s = (Config.freeByte s.draws,
      played (sampleEvents (Config.freeByte s.draws)) { s with draws := s.draws + 1 }) := by
  apply readBus_free
  cases hd : s.ddir with
  | input => exact .inr (dataLines_of_input_not_drives hd hv)
  | output => exact .inl rfl

/-- The data write in either mode while no write interval is open and the device does not drive (R174). -/
theorem writeBus_of_quiet (b : Byte) {s : State} (h1 : deviceAccepts s = false) (h2 : deviceDrives s = false) :
    writeBus b s = played [.data b]
      { s with
        dout := if s.ddir = .output then b else Config.freeByte s.draws
        draws := if s.ddir = .output then s.draws else s.draws + 1 } := by
  cases hd : s.ddir with
  | input => simp [writeBus_input b hd, hd]
  | output => simp [writeBus_output b hd h1 h2, hd]

/-! #### The commands -/

/-- At a boundary the memory device is disabled: it neither accepts nor drives (R290). -/
theorem device_disabled_of_ready {s : State} (h : s.Ready) : deviceAccepts s = false ∧ deviceDrives s = false := by
  obtain ⟨-, -, ⟨hce, -, -⟩, -⟩ := h
  exact ⟨deviceAccepts_of_ce_high hce, deviceDrives_of_ce_high hce⟩

/-- A command without a diagnostic that leaves the registers as in `u` and records `es` ends in `u` with the records and
its answer (R30, R170). -/
theorem perform_of_played {i : Instr} {body : State → State} {d : Byte} {es : List Event} {s u : State} (h : s.Ready)
    (hc : chainOperandOk s.cfg i = true) (hx : indexOperandOk s.cfg i = true) (hu : u.AtBoundary)
    (he : reports es = []) (hb : body (accept i s) = respond d (played es (accept i u))) :
    perform i body s = .next { u with trace := u.trace ++ es, rsp := u.rsp ++ [okWord d] } := by
  obtain ⟨hr, hq⟩ := hu
  rw [perform_of_ready body h hc hx, hb, finish_of_ready (ready_respond d (ready_played es (ready_accept i hr)))]
  simp [respond, played, accept, he, hq]

/-- Settles O36: the disabled device makes nothing of the mode switch. -/
theorem dmodeResult : Obligations.DmodeResult := by
  intro d s h
  obtain ⟨hacc, hdrv⟩ := device_disabled_of_ready (ready_accept (.dmode d) h.1)
  rw [← okWord_zero]
  simp only [exec, execDmode]
  exact perform_of_played h.1 rfl rfl (es := [.mode d]) (u := { s with ddir := d }) h rfl
    (congrArg (respond 0x00#8) (setMode_of_quiet d hacc hdrv))

/-- Settles O37: the disabled device makes nothing of the data write, whose byte is `DOUT`'s in output mode only. -/
theorem dwriteResult : Obligations.DwriteResult := by
  intro b s h
  obtain ⟨hacc, hdrv⟩ := device_disabled_of_ready (ready_accept (.dwrite b) h.1)
  rw [← okWord_zero]
  simp only [exec, execDwrite]
  exact perform_of_played h.1 rfl rfl (es := [.data b])
    (u := { s with
      dout := if s.ddir = .output then b else Config.freeByte s.draws
      draws := if s.ddir = .output then s.draws else s.draws + 1 })
    h rfl (congrArg (respond 0x00#8) (writeBus_of_quiet b hacc hdrv))

/-- Settles O38: at a boundary the device does not drive, so the sample is a free byte in either mode. -/
theorem dreadResult : Obligations.DreadResult := by
  intro s h
  obtain ⟨-, hdrv⟩ := device_disabled_of_ready (ready_accept .dread h.1)
  simp only [exec, execDread]
  rw [← okWord_eq]
  exact perform_of_played h.1 rfl rfl (u := { s with draws := s.draws + 1 }) h (reports_sampleEvents _)
    (by rw [readBus_of_not_drives hdrv]; rfl)

/-! #### A sample in every state -/

/-- The record of a sample is its eight lines, line 0 first (R175). -/
theorem readBus_trace (s : State) : (readBus s).2.trace = s.trace ++ sampleEvents (readBus s).1 := by
  unfold readBus
  split <;> rfl

/-- Settles O39: the lines carry the cell while the device alone drives; otherwise the sample is a free byte. -/
theorem sampleByCase : Obligations.SampleByCase := by
  intro s a
  refine ⟨readBus_trace s, fun hd hce hoe hwe ha => ?_, fun _ hn => ?_, fun hd => ?_⟩
  · have hlines : dataLines s = some (memRead s a) := by
      rw [dataLines_of_driven hd (deviceDrives_eq_true_iff.2 ⟨hce, hoe, hwe⟩), ha, Option.map_some]
    rw [readBus_driven hd hlines]
  · rw [readBus_of_not_drives (deviceDrives_eq_false_iff.2 hn)]
  · rw [readBus_free (.inl hd)]

/-! #### Contention -/

/-- An event that leaves block and device driving together, with no write interval about it, notes the contention
(R178). -/
theorem react_of_contended {before s : State} (h1 : deviceAccepts before = false) (h2 : deviceAccepts s = false)
    (h3 : contended s = true) : react before s = noteHazard .contention s := by
  simp [react, reactWrite, h1, h2, h3]

/-- A contention that is the first hazard noted ends the run in its refusal (R178, U6). -/
theorem finish_noteHazard_contention {s : State} (hh : s.hazard = none) :
    finish (noteHazard .contention s) = .refused .busContention := by
  simp only [noteHazard, hh, finish]

/-- The switch to output mode against the driving device is noted as contention (R178). -/
theorem setMode_output_of_drives {s : State} (ha : deviceAccepts s = false) (hv : deviceDrives s = true) :
    setMode .output s = noteHazard .contention { record (.mode .output) s with ddir := .output } :=
  react_of_contended ha ha hv

/-- Settles O55: the device drives and, with `WE_n` high, accepts nothing, so contention is the one hazard noted. -/
theorem contentionRefused : Obligations.ContentionRefused := by
  intro s hce hoe hwe hh
  rw [setMode_output_of_drives (deviceAccepts_of_we_high hwe) (deviceDrives_eq_true_iff.2 ⟨hce, hoe, hwe⟩)]
  exact finish_noteHazard_contention hh

end Sys2Proof.Machine

/-! ### The memory controller's commands (43_memory_controller.md) -/

namespace Sys2Proof.Machine

/-! #### The end of a command -/

/-- A response ends the recorded events `es` in an idle block (R30). -/
theorem respond_played (d : Byte) (es : List Event) (s : State) :
    respond d (played es s) =
      { s with
        seq := .idle, trace := s.trace ++ es, diag := s.diag ++ reports es, rsp := s.rsp ++ [okWord d] } := rfl

/-- A procedure that does not observe `SEQ` runs alike whether or not a command is noted there, and the response makes
the block idle again (R30). -/
theorem Unobserving.respond_accept {f : State → State} (hf : Unobserving f) (d : Byte) (i : Instr) (s : State) :
    respond d (f (accept i s)) = respond d (f s) := by
  obtain ⟨k, es, -, hc, hwd, ht, hswap⟩ := hf.eq s
  calc respond d (f (accept i s))
      = respond d (swapControl (advanceBy k (.busy i 0)) s.counters s.wd (s.trace ++ es) (f s)) :=
        congrArg (respond d) (hswap (.busy i 0) s.counters s.wd s.trace)
    _ = respond d (f s) := by rw [← hc, ← hwd, ← ht]; rfl

/-! #### `BEGIN` -/

theorem reports_beginAddressEvents (s : State) : reports (beginAddressEvents s) = [] := by
  unfold beginAddressEvents
  split
  · exact reports_of_drives fun e he => by
      obtain ⟨i, -, rfl⟩ := List.mem_map.1 he
      rfl
  all_goals simp

/-- `BEGIN` reports nothing (R207). -/
theorem reports_beginEvents (s : State) : reports (beginEvents s) = [] := by
  simp [beginEvents, reports_beginAddressEvents]

/-- `BEGIN` runs its steps and answers success (R191). -/
theorem exec_begin {s : State} (hc : s.ceN ≠ .low) (h : s.Sound) :
    exec .begin s = .next (respond 0x00#8 (beginSteps (accept .begin s))) := by
  simp only [exec, execBegin]
  rw [perform_of_legal _ (valueError_begin s),
    finish_of_ready (ready_respond _ (ready_beginSteps (s := accept .begin s) hc h))]

/-- What `BEGIN` leaves of an idle block, the first time or again (R191, R192, R40). -/
theorem respond_beginSteps_eq {s : State} (hc : s.ceN ≠ .low) (h : s.Sound) (hq : s.seq = .idle) :
    respond 0x00#8 (beginSteps (accept .begin s)) =
      { s with
        init := true, ceN := .high, oeN := .high, weN := .high, ddir := .input
        chain1 := if chainExists s.cfg .one then settledChain s.chain1.mirror else s.chain1
        chain2 := if chainExists s.cfg .two then settledChain s.chain2.mirror else s.chain2
        apinPins := if s.cfg.backend = .direct then addressLevels s.apin else s.apinPins
        mem := if s.init then s.mem else []
        memEpoch := if s.init then s.memEpoch else s.memEpoch + 1
        trace := s.trace ++ beginEvents s, rsp := s.rsp ++ [0x8000#16] } := by
  obtain ⟨hw, h1, h2, hp, -⟩ := h
  have hev : beginEvents (accept .begin s) = beginEvents s := rfl
  rw [beginSteps_eq (s := accept .begin s) hc hw h1 h2 hp, respond_played, hev, reports_beginEvents, okWord_zero,
    List.append_nil, ← hq]
  rfl

/-- Settles O40: before the first `BEGIN` the control lines are unknown, so the memory device is not enabled, and
`INIT = 0` makes the memory arbitrary. -/
theorem firstBeginResult : Obligations.FirstBeginResult := by
  rintro s ⟨hs, hi, hce, -, -, -, hq⟩
  have hne : s.ceN ≠ .low := by rw [hce]; decide
  have heq := respond_beginSteps_eq hne hs hq
  simp only [hi] at heq
  refine ⟨_, exec_begin hne hs, atBoundary_respond _ (ready_beginSteps hne hs), heq, fun a => ?_⟩
  rw [heq]
  rfl

/-- The banks of a ready block are already settled (R288). -/
theorem settledChain_of_ready {s : State} (h : s.Ready) (c : ChainId) :
    (if chainExists s.cfg c then settledChain (s.chain c).mirror else s.chain c) = s.chain c := by
  split
  · next he => exact (ready_chain h he).2.1.symm
  · rfl

/-- Settles O41: what `BEGIN` would settle is settled at a boundary, and with `INIT = 1` the memory stays. -/
theorem repeatedBeginResult : Obligations.RepeatedBeginResult := by
  rintro s ⟨hr, hq⟩
  obtain ⟨hs, hi, ⟨hce, hoe, hwe⟩, -, -, hpins⟩ := id hr
  have hne : s.ceN ≠ .low := by rw [hce]; decide
  have hpins' : (if s.cfg.backend = .direct then addressLevels s.apin else s.apinPins) = s.apinPins := by
    split
    · next hb => exact (hpins hb).symm
    · rfl
  have h1 := settledChain_of_ready hr .one
  have h2 := settledChain_of_ready hr .two
  simp only [chain_one, chain_two] at h1 h2
  rw [exec_begin hne hs, respond_beginSteps_eq hne hs hq, h1, h2, hpins']
  simp [hi, hce, hoe, hwe]

/-! #### The byte commands -/

/-- A byte read does not observe `SEQ`, the counters, the payload port or the record (R198). -/
theorem unobserving_readByte (a : Addr) : Unobserving (fun s => (readByte a s).2) := by
  intro s
  obtain ⟨k, es, hk⟩ := readByte_swapControl a s
  exact ⟨k, es, fun q n w r => by simp only [hk]⟩

/-- `WRBYTE` is `writeByte` and its response (R195). -/
theorem exec_wrbyte_eq (a : Addr) (d : Byte) {s : State} (h : s.Ready) :
    exec (.wrbyte a d) s = .next (respond 0x00#8 (writeByte a d s)) := by
  rw [exec_wrbyte a d h, (unobserving_writeByte a d).respond_accept]

/-- `RDBYTE` is `readByte` and its response (R198). -/
theorem exec_rdbyte_eq (a : Addr) {s : State} (h : s.Ready) :
    exec (.rdbyte a) s = .next (respond (memRead s a.toNat) (readByte a s).2) := by
  rw [exec_rdbyte a h, (unobserving_readByte a).respond_accept]

/-- A byte write leaves the lines at its address (R195). -/
theorem writeByte_shown (a : Addr) (d : Byte) {s : State} (h : s.Ready) :
    shownAddress (writeByte a d s) = some a.toNat := by
  obtain ⟨p, es, es', -, hp, -, -, hw⟩ := writeByte_closed a d h
  have hpa : shownAddress p = some a.toNat := by rw [shownAddress, hp.lines, lineValue_addressLevels]
  rw [hw, ← hpa]
  exact shownAddress_congr hp.cfg.symm rfl rfl rfl

/-- Settles O42: the closed form of `writeByte` has the registers, and its pulse stores the one cell. -/
theorem wrbyteResult : Obligations.WrbyteResult := by
  rintro a d s ⟨hr, hq⟩
  refine ⟨_, exec_wrbyte_eq a d hr, ?_, atBoundary_respond _ (ready_writeByte a d hr), ?_, ?_, fun b hb => ?_⟩
  · obtain ⟨_, es, es', rfl, -, -, -, hw⟩ := writeByte_closed a d hr
    rw [hw, respond_played, okWord_zero]
    simp [withRegisters, hq]
  · rw [shownAddress_respond, writeByte_shown a d hr]
  · rw [memRead_respond, memRead_writeByte a d hr, if_pos rfl]
  · rw [memRead_respond, memRead_writeByte a d hr, if_neg hb]

/-- Settles O43: the record of `writeByte` in closed form, whose two address parts are events of address pins only. -/
theorem writeSequenceOrder : Obligations.WriteSequenceOrder := by
  rintro a d s t ⟨hr, -⟩ hx
  obtain rfl := Host.Outcome.next.inj ((exec_wrbyte_eq a d hr).symm.trans hx)
  obtain ⟨p, es, es', -, hp, hae', hlen', hw⟩ := writeByte_closed a d hr
  refine ⟨es, if s.cfg.verify then readByteEvents s.cfg a d es' else [], ?_, hp.events.pinEvents.symm.trans hp.count,
    hp.events, fun hv => ?_, fun hv => ⟨es', hlen', hae', ?_⟩⟩
  · rw [respond_trace, hw]
    simp [withRegisters, writeByteEvents, addressEventsWith, writeEvents]
  · simp [hv]
  · simp [hv, readByteEvents, addressEventsWith]

/-- Settles O44: the closed form of `readByte`, after whose address part come the events of the read transaction. -/
theorem rdbyteResult : Obligations.RdbyteResult := by
  rintro a s ⟨hr, hq⟩
  refine ⟨_, exec_rdbyte_eq a hr, ?_, atBoundary_respond _ (ready_readByte a hr), ?_⟩
  · obtain ⟨_, es, rfl, hp, hread⟩ := readByte_closed a hr
    have hrep : reports (readByteEvents s.cfg a (memRead s a.toNat) es) =
        [.addrSet a, .byteRead a (memRead s a.toNat)] := by
      simp [readByteEvents, hp.reports_events, readEvents]
    rw [hread, respond_played, hrep, okWord_eq, hp.trace]
    simp [withRegisters, hq, readByteEvents, readEvents]
  · rw [shownAddress_respond, readByte_shown a hr]

/-! #### The block commands -/

/-- The dead counters and the answer at the end of a block command (R31). -/
theorem respond_retireCounters (s : State) :
    respond 0x00#8 (retireCounters s) =
      { s with
        seq := .idle, counters := ⟨Config.freeAddr s.draws, Config.freeLen s.draws⟩, draws := s.draws + 1
        rsp := s.rsp ++ [0x8000#16] } := by
  rw [← okWord_zero]
  rfl

/-- `LEN` payload bytes are none exactly for the empty block. -/
theorem take_toNat_eq_nil_iff {n : Len} {w : List Byte} (h : n.toNat ≤ w.length) : w.take n.toNat = [] ↔ n = 0#16 := by
  rw [← List.length_eq_zero_iff, List.length_take, Nat.min_eq_left h, ← BitVec.toNat_inj]
  rfl

/-- Settles O48: all that the turns of the loop do, the payload having come, and then the end of the command. -/
theorem wrblkResult : Obligations.WrblkResult := by
  rintro a n s ⟨hr, hq⟩ hlen
  obtain ⟨t, es, hb, hwd, hx⟩ := exec_wrblk_full a n hr hlen
  have hnil := take_toNat_eq_nil_iff hlen
  have htake : (s.wd.take n.toNat).length = n.toNat := by rw [List.length_take, Nat.min_eq_left hlen]
  have heq := hb.eq
  have hdiag : t.diag = s.diag ++ reports es := by rw [heq]; rfl
  have htrace : t.trace = s.trace ++ es := by rw [heq]; rfl
  rw [respond_retireCounters] at hx
  refine ⟨_, hx, ?_, ⟨hb.ready, rfl⟩, hb.frame, ⟨es, htrace, hb.record, hdiag⟩, fun h0 => ?_, fun h0 => ?_, ?_, ?_⟩
  · simp only [hnil] at heq
    conv_lhs => rw [heq, hwd]
    simp only [hdiag, htrace, ← hq]
    rfl
  · rw [hb.unchanged (hnil.2 h0), ← hq]
    rfl
  · rw [← htake]
    exact hb.shown (mt hnil.1 h0)
  · intro j hj hlast
    rw [← List.getElem?_take_of_lt hj]
    exact (congrArg some (hb.cells _)).trans (blockByte_of_last a _ _ j (by rwa [htake]) (by rwa [htake]))
  · intro b hmiss
    exact (hb.cells b).trans (blockByte_of_missed a _ b _ (by rwa [htake]))

/-- Settles O52: all that the turns of the loop do, and then the end of the command. -/
theorem rdblkResult : Obligations.RdblkResult := by
  rintro a n s ⟨hr, hq⟩
  obtain ⟨t, es, hb, hx⟩ := exec_rdblk a n hr
  have hzero : n.toNat = 0 ↔ n = 0#16 := by rw [← BitVec.toNat_inj]; rfl
  have heq := hb.eq
  have hdiag : t.diag = s.diag ++ reports es := by rw [heq]; rfl
  have htrace : t.trace = s.trace ++ es := by rw [heq]; rfl
  rw [respond_retireCounters] at hx
  refine ⟨_, hx, ?_, ⟨hb.ready, rfl⟩, hb.frame, ⟨es, htrace, hdiag, hb.record⟩, fun h0 => ?_,
    fun h0 => hb.shown (mt hzero.1 h0)⟩
  · simp only [hzero] at heq
    conv_lhs => rw [heq]
    simp only [hdiag, htrace, ← hq]
    rfl
  · rw [hb.unchanged (hzero.2 h0), ← hq]
    rfl

/-- A byte write draws no free value (R195). -/
theorem writeByte_draws (a : Addr) (d : Byte) {s : State} (h : s.Ready) : (writeByte a d s).draws = s.draws := by
  obtain ⟨p, es, es', -, -, -, -, hw⟩ := writeByte_closed a d h
  rw [hw]; rfl

/-- Settles O53: the one turn of the loop is the byte write, which does not observe the taking of its byte. -/
theorem oneByteBlockIsByteWrite : Obligations.OneByteBlockIsByteWrite := by
  rintro a d s t es ⟨hr, -⟩ hx htrace
  obtain rfl := Host.Outcome.next.inj ((exec_wrbyte_eq a d hr).symm.trans hx)
  obtain ⟨k, es', -, -, hwd, hes, hswap⟩ := (unobserving_writeByte a d).eq s
  rw [respond_trace, hes] at htrace
  obtain rfl := List.append_cancel_left htrace
  have hturn : writeBlock a 1 (accept (.wrblk a 1#16) { s with wd := d :: s.wd }) =
      respond 0x00#8 (retireCounters (swapControl (advanceBy k (.busy (.wrblk a 1#16) 0)) (blockCounters a 1) s.wd
        (s.trace ++ [.take d] ++ es') (writeByte a d s))) := by
    rw [writeBlock_turn a 0 (d := d) (rest := s.wd) rfl, ← hswap]
    rfl
  have hready := ready_writeByte a d hr
  rw [exec_wrblk_eq_finish a 1#16 (s := { s with wd := d :: s.wd }) hr, show (1#16).toNat = 1 from rfl, hturn,
    ← writeByte_draws a d hr, ← hwd, List.append_assoc]
  generalize writeByte a d s = u at hready ⊢
  exact finish_of_ready (ready_respond _ (ready_retireCounters (s := swapControl _ _ _ _ u) hready))

end Sys2Proof.Machine

/-! ### The host macros `STORE` and `FIND` (44_host_layer.md) -/

namespace Sys2Proof.Machine

/-- A command with its owed payload that the block answers with success: the host sees the block's next state, its own
pending bytes back on the port (R97). -/
theorem hostCommand_of_success {c : Command} {s t : State} (hc : c.wf = true)
    (hx : exec c.instr { s with wd := c.payload } = .next t) (hr : t.rsp = s.rsp ++ [0x8000#16]) :
    hostCommand c s = some { t with wd := s.wd } := by
  simp [hostCommand, hc, hx, hr]

/-! #### `STORE` -/

/-- The payload of `STORE` is the 20 bytes its `WRBLK` owes (R97, R232). -/
theorem storeCommand_wf (base : Addr) (key : Vector Byte 4) (value : Vector Byte 16) :
    (storeCommand base key value).wf = true := by
  simp [storeCommand, Command.wf, Instr.payloadLength]

/-- `STORE` leaves the payload's bytes at the 20 addresses from `base` on, and no other cell changes (R204, R232). No two
of the 20 addresses are equal modulo 2^15, so every byte is the last one on its address. -/
theorem hostStore_cells (base : Addr) (key : Vector Byte 4) (value : Vector Byte 16) {s : State} (h : s.AtBoundary) :
    ∃ t, hostStore base key value s = some t ∧ t.AtBoundary ∧
      (∀ j, j < 20 → some (memRead t ((base.toNat + j) % 32768)) = (key.toList ++ value.toList)[j]?) ∧
      ∀ b, (∀ j, j < 20 → (base.toNat + j) % 32768 ≠ b) → memRead t b = memRead s b := by
  obtain ⟨t, hx, heq, hb, -, -, -, -, hcells, hkept⟩ :=
    wrblkResult base 20#16 { s with wd := key.toList ++ value.toList } h (by simp)
  have hrsp : t.rsp = s.rsp ++ [0x8000#16] := by rw [heq]
  refine ⟨{ t with wd := s.wd }, hostCommand_of_success (storeCommand_wf base key value) hx hrsp, hb, ?_, hkept⟩
  intro j hj
  have hlast : ∀ j', j < j' → j' < 20 → (base.toNat + j') % 32768 ≠ (base.toNat + j) % 32768 := by omega
  exact hcells j hj hlast

/-- Settles O57: key byte `i` is byte `i` of the payload, value byte `i` is byte `4 + i`. -/
theorem storeWritesRecord : Obligations.StoreWritesRecord := by
  intro base key value s h
  obtain ⟨t, ht, hb, hcells, hkept⟩ := hostStore_cells base key value h
  refine ⟨t, ht, hb, fun i hi => ?_, fun i hi => ?_, hkept⟩
  · have hkey := hcells i (by omega)
    rw [List.getElem?_append_left (by simpa using hi)] at hkey
    simpa [hi] using hkey
  · have hvalue := hcells (4 + i) (by omega)
    rw [List.getElem?_append_right (by simp), ← Nat.add_assoc] at hvalue
    simpa [hi] using hvalue

/-! #### `FIND` -/

/-- The bytes of a block whose address is the low 15 bits of `a` (R204, log entry 14). -/
theorem blockBytes_ofNat (a n : Nat) (s : State) :
    blockBytes (BitVec.ofNat 15 a) n s = (List.range n).map (fun j => memRead s ((a + j) % 32768)) := by
  simp [blockBytes]

/-- The bytes of a block depend on the cells alone. -/
theorem blockBytes_congr {s t : State} (h : ∀ a, memRead t a = memRead s a) (ba : Addr) (n : Nat) :
    blockBytes ba n t = blockBytes ba n s := by
  simp only [blockBytes, h]

/-- A host read answers the bytes of its block, and no cell changes (R206). -/
theorem hostRead_spec (a : Nat) (n : Len) {s : State} (h : s.AtBoundary) :
    ∃ t, hostRead a n s = some (blockBytes (BitVec.ofNat 15 a) n.toNat s, t) ∧ t.AtBoundary ∧
      ∀ b, memRead t b = memRead s b := by
  obtain ⟨t, hx, heq, hb, -⟩ := rdblkResult (BitVec.ofNat 15 a) n { s with wd := [] } h
  have hrsp : t.rsp = s.rsp ++ [0x8000#16] := by rw [heq]
  have hrd : t.rd = s.rd ++ blockBytes (BitVec.ofNat 15 a) n.toNat s := by rw [heq]; rfl
  have hcells : ∀ b, memRead t b = memRead s b := by rw [heq]; exact fun _ => rfl
  refine ⟨{ t with wd := s.wd }, ?_, hb, hcells⟩
  simp [hostRead, hostCommand_of_success (c := ⟨.rdblk (BitVec.ofNat 15 a) n, []⟩) rfl hx hrsp, hrd]

/-- The scan of any candidates answers the value after the first one that holds the key, and no cell changes (R233): the
reads before it leave the cells as they were, so each compares the bytes of the first state. -/
theorem scan_spec (key : Vector Byte 4) (cs : List Nat) {s : State} (h : s.AtBoundary) :
    ∃ t, scan key cs s =
        some ((cs.find? (fun c => blockBytes (BitVec.ofNat 15 c) 4 s == key.toList)).map
          (fun c => blockBytes (BitVec.ofNat 15 (c + 4)) 16 s), t) ∧
      t.AtBoundary ∧ ∀ a, memRead t a = memRead s a := by
  induction cs generalizing s with
  | nil => exact ⟨_, rfl, h, fun _ => rfl⟩
  | cons c rest ih =>
    obtain ⟨t, hread, hb, hcells⟩ := hostRead_spec c 4#16 h
    by_cases hkey : blockBytes (BitVec.ofNat 15 c) 4 s = key.toList
    · obtain ⟨u, hvalue, hb', hcells'⟩ := hostRead_spec (c + 4) 16#16 hb
      refine ⟨emit (.keyFound c) u, ?_, hb', fun a => (hcells' a).trans (hcells a)⟩
      simp [scan, hread, hkey, hvalue, blockBytes_congr hcells]
    · obtain ⟨u, hscan, hb', hcells'⟩ := ih hb
      refine ⟨u, ?_, hb', fun a => (hcells' a).trans (hcells a)⟩
      simp only [blockBytes_congr hcells] at hscan
      simpa [scan, hread, hkey] using hscan

/-- Settles O58: `FIND` scans its candidates, each read at its low 15 bits. -/
theorem findReturnsFirstMatch : Obligations.FindReturnsFirstMatch := by
  intro key start stop s h
  simpa only [hostFind, blockBytes_ofNat] using scan_spec key (candidates start stop) h

end Sys2Proof.Machine

/-! ### Illegal words, commands before `BEGIN`, absent chains, and which error is reported (60_exceptions.md) -/

namespace Sys2Proof.Machine

/-! #### What a refusal answers -/

theorem errorWord_illegalCommand : errorWord .illegalCommand = 0x0100#16 := by decide

theorem errorWord_notInitialised : errorWord .notInitialised = 0x0200#16 := by decide

theorem errorWord_noSuchChain : errorWord .noSuchChain = 0x0300#16 := by decide

/-- An illegal word sends its error response and does nothing else (R95, R252). -/
theorem runWord_of_illegal {w : CmdWord} {e : DecodeError} (s : State) (hd : decode w = .error e) :
    runWord w s = .next (raiseError .illegalCommand s) := by
  simp [runWord, hd]

/-- Whichever the command, its checks come before its body (R251). -/
theorem exec_eq_perform (i : Instr) (s : State) : ∃ body, exec i s = perform i body s := by
  cases i <;> simp only [exec, execBegin, execSetbit, execClrall, execSetall, execFlush, execSetaddr, execDmode,
    execDwrite, execDread, execWrbyte, execRdbyte, execWrblk, execRdblk] <;> exact ⟨_, rfl⟩

/-- A command that a check refuses sends its error response and does nothing else (R251). -/
theorem exec_of_refused {i : Instr} {e : ErrorCode} {s : State} (h : valueError i s = some e) :
    exec i s = .next (raiseError e s) := by
  obtain ⟨body, hbody⟩ := exec_eq_perform i s
  rw [hbody, perform_of_refused body h]

/-! #### Which check refuses -/

/-- `BEGIN` is the one command that does not need `INIT` (R253). -/
theorem needsInit_of_ne_begin {i : Instr} (hi : i ≠ .begin) : needsInit i = true := by
  cases i with
  | begin => exact absurd rfl hi
  | _ => rfl

/-- With `INIT` at 0 the check of R253 is the one that fails (R258). -/
theorem valueError_of_uninitialised {i : Instr} {s : State} (hi : i ≠ .begin) (h0 : s.init = false) :
    valueError i s = some .notInitialised := by
  simp [valueError, needsInit_of_ne_begin hi, h0]

/-- The four chain commands pass the check of R254 exactly when the chain they name exists. -/
theorem chainOperandOk_of_chain_command (cfg : Cfg) {c : ChainId} {idx : Byte} {v : Bool} {i : Instr}
    (hi : i ∈ [.setbit c idx v, .clrall c, .setall c, .flush c]) : chainOperandOk cfg i = chainExists cfg c := by
  simp only [List.mem_cons, List.not_mem_nil, or_false] at hi
  obtain rfl | rfl | rfl | rfl := hi <;> rfl

/-- With `INIT` at 1 and no such chain, the check of R254 is the one that fails (R258). -/
theorem valueError_of_absent_chain {c : ChainId} {idx : Byte} {v : Bool} {i : Instr} {s : State} (h1 : s.init = true)
    (hi : i ∈ [.setbit c idx v, .clrall c, .setall c, .flush c]) (he : chainExists s.cfg c = false) :
    valueError i s = some .noSuchChain := by
  have hc : chainOperandOk s.cfg i = false := (chainOperandOk_of_chain_command s.cfg hi).trans he
  simp [valueError, h1, hc]

/-- Which chains each backend has (R22, R254). -/
theorem chainExists_iff (cfg : Cfg) (c : ChainId) :
    chainExists cfg c = true ↔ cfg.backend = .chain2 ∨ (cfg.backend = .chain1 ∧ c = .one) := by
  cases hb : cfg.backend <;> cases c <;> simp [chainExists, nchains, chainNumber, hb]

/-- A chain command on an absent chain answers `NoSuchChain` (R254). -/
theorem exec_of_absent_chain {c : ChainId} {idx : Byte} {v : Bool} {i : Instr} {s : State} (h1 : s.init = true)
    (hi : i ∈ [.setbit c idx v, .clrall c, .setall c, .flush c]) (he : chainExists s.cfg c = false) :
    exec i s = .next { s with rsp := s.rsp ++ [0x0300#16] } := by
  rw [exec_of_refused (valueError_of_absent_chain h1 hi he), raiseError, errorWord_noSuchChain]

/-! #### The statements -/

/-- Settles O6: the decoder rejects the word, and the block answers it without running anything. -/
theorem illegalWordAnswered : Obligations.IllegalWordAnswered := by
  refine ⟨⟨.reservedOpcode 0x0#4, by decide⟩, ⟨.reservedOpcode 0xF#4, by decide⟩, fun s w rest e hw hr hq hc hd => ?_⟩
  rw [step_of_released hw hr, proceed_of_idle hq hc, runWord_of_illegal _ hd, raiseError, errorWord_illegalCommand]

/-- Settles O20: the check of R253 refuses the command. -/
theorem refusedBeforeBegin : Obligations.RefusedBeforeBegin := by
  intro i s hi h0
  rw [exec_of_refused (valueError_of_uninitialised hi h0), raiseError, errorWord_notInitialised]

/-- Settles O21: the backend says which chains exist, and the check of R254 refuses the command on any other. -/
theorem absentChainRefused : Obligations.AbsentChainRefused := by
  intro c idx v i s _ h1 hi
  refine ⟨chainExists_iff s.cfg c, fun habsent => exec_of_absent_chain h1 hi ?_⟩
  rw [← Bool.not_eq_true, chainExists_iff]
  obtain hb | ⟨hb, rfl⟩ := habsent <;> simp [hb]

/-- Settles O23: a step of an idle block is the answer to its word, and each clause is the one check that fails first. -/
theorem refusalPriority : Obligations.RefusalPriority := by
  intro s w rest hw hr hq hc
  obtain ⟨-, -, hillegal⟩ := illegalWordAnswered
  cases hd : decode w with
  | error e => exact hillegal s w rest e hw hr hq hc hd
  | ok i =>
    have hstep : step s = exec i { s with cmds := rest } := stepRunsDecodedCommand s w rest i hw hr hq hc hd
    refine ⟨fun hi h0 => ?_, fun c idx v h1 he hi => ?_, fun c idx v h1 he hi hx => ?_⟩
    · exact hstep.trans (refusedBeforeBegin i { s with cmds := rest } hi h0)
    · exact hstep.trans (exec_of_absent_chain (s := { s with cmds := rest }) h1 hi he)
    · subst hi
      exact hstep.trans (indexBeyondChainRefused c idx v { s with cmds := rest } h1 he hx)

end Sys2Proof.Machine

/-! ### Reset, and what every step keeps (70_reset_and_hazards.md) -/

namespace Sys2Proof.Machine

/-! #### Every command at a boundary -/

/-- The check of R255 passes only for an index in range. -/
theorem indexOperandOk_of_valueError {i : Instr} {s : State} (h : valueError i s = none) :
    indexOperandOk s.cfg i = true := by
  unfold valueError at h
  split_ifs at h with _ _ hx
  simpa using hx

/-- The commands that store into the memory (R292). -/
def storesCells : Instr → Bool
  | .wrbyte _ _ | .wrblk _ _ => true
  | .begin | .setbit _ _ _ | .clrall _ | .setall _ | .flush _ | .setaddr _ | .dmode _ | .dwrite _ | .dread | .rdbyte _
  | .rdblk _ _ => false

/-- A legal command at a boundary runs to a next state, and unless it is a write command every cell is as before
(R291, R292): each command's own result says so. -/
theorem exec_of_legal {i : Instr} {s : State} (h : s.AtBoundary) (hv : valueError i s = none) :
    ∃ t, exec i s = .next t ∧ (storesCells i = false → ∀ b, memRead t b = memRead s b) := by
  have he := chainOperandOk_of_valueError hv
  have hflushed : ∀ c m b, memRead (flushedAndAnswered c m s) b = memRead s b := by
    intro c m b; cases c <;> rfl
  cases i with
  | begin => exact ⟨_, repeatedBeginResult s h, fun _ _ => rfl⟩
  | setbit c idx v =>
    obtain ⟨m, hx, -⟩ := setbitResult c idx v s h he (of_decide_eq_true (indexOperandOk_of_valueError hv))
    exact ⟨_, hx, fun _ => hflushed c m⟩
  | clrall c => exact ⟨_, clrallResult c s h he, fun _ => hflushed c _⟩
  | setall c => exact ⟨_, setallResult c s h he, fun _ => hflushed c _⟩
  | flush c => exact ⟨_, flushChangesNothing c s h he, fun _ _ => rfl⟩
  | setaddr a =>
    obtain ⟨t, hx, ht, -⟩ := setaddrResult a s h
    exact ⟨t, hx, fun _ _ => by rw [ht]; rfl⟩
  | dmode d => exact ⟨_, dmodeResult d s h, fun _ _ => rfl⟩
  | dwrite b => exact ⟨_, dwriteResult b s h, fun _ _ => rfl⟩
  | dread => exact ⟨_, dreadResult s h, fun _ _ => rfl⟩
  | wrbyte a d => exact ⟨_, exec_wrbyte a d h.1, nofun⟩
  | rdbyte a =>
    refine ⟨_, exec_rdbyte a h.1, fun _ b => ?_⟩
    obtain ⟨hmem, hepoch⟩ := readByte_mem a (ready_accept (.rdbyte a) h.1)
    rw [memRead_respond, memRead_congr hmem hepoch, memRead_accept]
  | wrblk a n =>
    rcases Nat.lt_or_ge s.wd.length n.toNat with hn | hn
    · obtain ⟨t, -, -, -, hx⟩ := exec_wrblk_dry a n h.1 hn
      exact ⟨_, hx, nofun⟩
    · obtain ⟨t, -, -, -, hx⟩ := exec_wrblk_full a n h.1 hn
      exact ⟨_, hx, nofun⟩
  | rdblk a n =>
    obtain ⟨t, hx, ht, -⟩ := rdblkResult a n s h
    exact ⟨t, hx, fun _ _ => by rw [ht]; rfl⟩

/-- Every command at a boundary, refused or run, ends in a next state; only the write commands store (R251, R292). -/
theorem exec_of_boundary (i : Instr) {s : State} (h : s.AtBoundary) :
    ∃ t, exec i s = .next t ∧ (storesCells i = false → ∀ b, memRead t b = memRead s b) := by
  cases hv : valueError i s with
  | none => exact exec_of_legal h hv
  | some e => exact ⟨_, exec_of_refused hv, fun _ _ => rfl⟩

/-- A command that ends in a next state ends ready: at a boundary, or waiting for payload (R289, R297). -/
theorem ready_exec {i : Instr} {s t : State} (h : s.AtBoundary) (hx : exec i s = .next t) : t.Ready := by
  obtain ⟨⟨hr, -⟩, -⟩ | ⟨⟨hr, -⟩, -⟩ := oneResponsePerCommand i s t h hx
  · exact hr
  · exact hr

/-- What no procedure touches: the configuration, the host's words and its `RST_n`, the arbitrary memory function. -/
def surroundings (s : State) : Cfg × ResetInput × List CmdWord × Nat := (s.cfg, s.rstN, s.cmds, s.memEpoch)

theorem kept_surroundings : Kept surroundings := by
  constructor <;> intros <;> simp [surroundings]

/-- No command at a boundary touches the surroundings; a `BEGIN` is there a repeated one (R20, R192). -/
theorem exec_surroundings {i : Instr} {s t : State} (h : s.AtBoundary) (hx : exec i s = .next t) :
    surroundings t = surroundings s := by
  by_cases hi : i = .begin
  · subst hi
    obtain rfl := Host.Outcome.next.inj (hx.symm.trans (repeatedBeginResult s h))
    rfl
  · exact kept_surroundings.exec i hi hx

/-- Settles O12: every command ends in a next state, which is ready, and no command touches the surroundings. -/
theorem everyCommandEndsReady : Obligations.EveryCommandEndsReady := by
  intro i s h
  obtain ⟨t, hx, -⟩ := exec_of_boundary i h
  have hkept := exec_surroundings h hx
  simp only [surroundings, Prod.mk.injEq] at hkept
  obtain ⟨hcfg, hrst, hcmds, hepoch⟩ := hkept
  exact ⟨t, hx, ready_exec h hx, hcfg, hcmds, hrst, hepoch⟩

/-- Settles O14, by the results of the eleven other commands. -/
theorem onlyWritesChangeCells : Obligations.OnlyWritesChangeCells := by
  intro i s t h hx hbyte hblock
  obtain ⟨u, hu, hcells⟩ := exec_of_boundary i h
  obtain rfl := Host.Outcome.next.inj (hx.symm.trans hu)
  refine hcells ?_
  cases i with
  | wrbyte a d => exact absurd rfl (hbyte a d)
  | wrblk a n => exact absurd rfl (hblock a n)
  | _ => rfl

/-! #### What the invariant says of every state -/

theorem sound_of_inv {s : State} (h : s.Inv) : s.Sound := by
  obtain ⟨hs, -⟩ | ⟨⟨hs, -⟩, -⟩ | ⟨⟨hs, -⟩, -⟩ := h <;> exact hs

/-- Between two steps the memory device's enables are high or still `X`, never low (R290, R299). -/
theorem enables_not_low_of_inv {s : State} (h : s.Inv) : s.ceN ≠ .low ∧ s.weN ≠ .low := by
  have hready : s.Ready → s.ceN ≠ .low ∧ s.weN ≠ .low := by
    rintro ⟨-, -, ⟨hce, -, hwe⟩, -⟩
    simp [hce, hwe]
  obtain ⟨-, -, hce, -, hwe, -⟩ | ⟨hr, -⟩ | ⟨hr, -⟩ := h
  · simp [hce, hwe]
  · exact hready hr
  · exact hready hr

theorem pulseSeen_of_inv {s : State} (h : s.Inv) : PulseSeen s := by
  obtain ⟨-, -, -, -, -, hpulse, -⟩ := sound_of_inv h
  simp [PulseSeen, hpulse, deviceAccepts, (enables_not_low_of_inv h).1]

/-- A record in which write-enable never falls, done again between two steps, stores nothing and ends outside a write
pulse (R64). -/
theorem replay_quiet_of_inv {es : List Event} {s : State} (h : s.Inv) (he : .drive .weN false ∉ es) :
    (replay es s).mem = s.mem ∧ (replay es s).pulse = .off := by
  obtain ⟨hmem, hwe⟩ := replay_quiet es (enables_not_low_of_inv h).2 he
  exact ⟨hmem, (replay_pulseSeen es (pulseSeen_of_inv h)).2 (by simp [deviceAccepts, hwe])⟩

/-! #### Out of reset -/

/-- An idle block with no word pending stays as it is (R281). -/
theorem proceed_of_no_word {s : State} (hq : s.seq = .idle) (hc : s.cmds = []) : proceed s = .next s := by
  simp only [proceed, fetch, hq, hc]

/-- `SEQ` moved on by pin events stays in its command (R30). -/
@[simp] theorem inBlockWrite_advanceBy (k : Nat) (q : Seq) : (advanceBy k q).inBlockWrite = q.inBlockWrite := by
  cases q with
  | idle => rfl
  | busy i p => cases i <;> rfl

/-- The loop of a `WRBLK` ends with its response at a boundary, or waits with bytes still to come (R97, R205). -/
theorem atBoundary_or_waiting_writeBlock (ba : Addr) {n : Nat} {s : State} (h : s.Ready)
    (hq : s.seq.inBlockWrite = true) (hn : n < 2 ^ 16) :
    (writeBlock ba n s).AtBoundary ∨ (writeBlock ba n s).Waiting := by
  induction n generalizing ba s with
  | zero => exact .inl (atBoundary_respond _ (ready_retireCounters h))
  | succ n ih =>
    cases hw : s.wd with
    | nil =>
      rw [writeBlock_dry ba n hw]
      refine .inr ⟨h, hq, fun h0 => ?_⟩
      have hbc := toNat_blockCounters_bc ba hn
      rw [h0] at hbc
      simp at hbc
    | cons d rest =>
      rw [writeBlock_turn ba n hw]
      have ht : (takePayload d rest (blockCounters ba (n + 1)) s).Ready := h
      refine ih _ (ready_writeByte ba d ht) ?_ (by omega)
      obtain ⟨k, -, hseq, -⟩ := (unobserving_writeByte ba d).eq (takePayload d rest (blockCounters ba (n + 1)) s)
      rw [hseq, takePayload_seq, inBlockWrite_advanceBy, hq]

/-- Before `BEGIN` every command but `BEGIN` is refused, and `BEGIN` ends at a boundary (R191, R253). -/
theorem exec_of_beforeBegin (i : Instr) {s : State} (h : s.BeforeBegin) : ∃ t, exec i s = .next t ∧ t.Inv := by
  by_cases hi : i = .begin
  · subst hi
    obtain ⟨t, hx, ht, -⟩ := firstBeginResult s h
    exact ⟨t, hx, .inr (.inl ht)⟩
  · exact ⟨_, refusedBeforeBegin i s hi h.2.1, .inl h⟩

/-- Every command in an idle state of the invariant ends in a state that meets it. -/
theorem exec_keeps_inv (i : Instr) {s : State} (h : s.BeforeBegin ∨ s.AtBoundary) :
    ∃ t, exec i s = .next t ∧ t.Inv := by
  obtain hb | hb := h
  · exact exec_of_beforeBegin i hb
  · obtain ⟨t, hx, -⟩ := exec_of_boundary i hb
    exact ⟨t, hx, .inr ((oneResponsePerCommand i s t hb hx).imp And.left And.left)⟩

/-- A word taken in an idle state of the invariant is answered or run, and the invariant is kept (R95, R252). -/
theorem runWord_keeps_inv (w : CmdWord) {s : State} (h : s.BeforeBegin ∨ s.AtBoundary) :
    ∃ t, runWord w s = .next t ∧ t.Inv := by
  cases hd : decode w with
  | ok i => rw [runWord_of_legal s hd]; exact exec_keeps_inv i h
  | error e => exact ⟨_, runWord_of_illegal s hd, h.imp id .inl⟩

/-- Out of reset an idle block keeps the invariant. -/
theorem proceed_of_idle_keeps_inv {s : State} (hq : s.seq = .idle) (h : s.BeforeBegin ∨ s.AtBoundary) :
    ∃ t, proceed s = .next t ∧ t.Inv := by
  cases hc : s.cmds with
  | nil => exact ⟨s, proceed_of_no_word hq hc, h.imp id .inl⟩
  | cons w rest =>
    rw [proceed_of_idle hq hc]
    exact runWord_keeps_inv w (s := { s with cmds := rest }) h

/-- Out of reset a block of the invariant never stops, and keeps the invariant (R288 to R293). -/
theorem proceed_keeps_inv {s : State} (h : s.Inv) : ∃ t, proceed s = .next t ∧ t.Inv := by
  obtain hb | hb | ⟨hr, hq, -⟩ := h
  · exact proceed_of_idle_keeps_inv hb.2.2.2.2.2.2 (.inl hb)
  · exact proceed_of_idle_keeps_inv hb.2 (.inr hb)
  · have hend := atBoundary_or_waiting_writeBlock s.counters.ba hr hq s.counters.bc.isLt
    refine ⟨_, ?_, .inr hend⟩
    rw [proceed_of_inBlockWrite hq, finish_of_ready (hend.elim And.left And.left)]

/-! #### Reset -/

/-- A step under reset applies it (R280). -/
theorem step_of_asserted {s : State} (hw : s.cfg.wf = true) (hr : s.rstN = .asserted) :
    step s = .next (assertReset s) := by
  simp [step, hw, hr]

theorem abandonPulse_of_off {s : State} (h : s.pulse = .off) : abandonPulse s = s := by
  simp only [abandonPulse, h]

theorem abandonPulse_of_open {s : State} (h : s.pulse ≠ .off) : abandonPulse s = forgetMemory s := by
  unfold abandonPulse
  split
  · contradiction
  all_goals rfl

/-- Reset outside a write pulse leaves the cells (R280). -/
theorem assertReset_memory_of_off {s : State} (h : s.pulse = .off) :
    (assertReset s).mem = s.mem ∧ (assertReset s).memEpoch = s.memEpoch := by
  rw [assertReset_eq, abandonPulse_of_off h]
  exact ⟨rfl, rfl⟩

/-- Reset inside a write pulse leaves no cell known (R280). -/
theorem assertReset_memory_of_open {s : State} (h : s.pulse ≠ .off) :
    (assertReset s).mem = [] ∧ (assertReset s).memEpoch = s.memEpoch + 1 := by
  rw [assertReset_eq, abandonPulse_of_open h]
  exact ⟨rfl, rfl⟩

/-- The reset state of a configuration that passes the checks waits for its `BEGIN` (R280, R299). -/
theorem resetFor_inv {c : Cfg} (h : c.wf = true) : (State.resetFor c).Inv := by
  have hshape : ∀ n, chainShape n (Chain.reset n) := fun n => by simp [chainShape, Chain.reset]
  exact .inl ⟨⟨h, hshape c.n1, hshape c.n2, List.length_replicate, rfl, rfl, rfl⟩, rfl, rfl, rfl, rfl, rfl, rfl⟩

/-- When `RST_n` falls inside a step the block is left waiting for its `BEGIN`; a fall past the step's record leaves what
the step left (R280). -/
theorem interrupt_keeps_inv (n : Nat) {s t : State} (hs : s.Inv) (ht : t.Inv) : (interrupt n s t).Inv := by
  obtain ⟨hwf, -, -, hpins, hmem, -⟩ := sound_of_inv hs
  unfold interrupt
  dsimp only
  split
  · refine .inl (assertReset_beforeBegin ?_ ?_)
    · exact (congrArg Cfg.wf (replayed _ s).cfg).trans hwf
    · exact replay_keeps_wf _ ⟨hwf, hpins⟩ hmem
  · exact ht

/-- Whatever `RST_n` does, a block of the invariant neither stops nor leaves the invariant. -/
theorem step_keeps_inv {s : State} (h : s.Inv) : ∃ t, step s = .next t ∧ t.Inv := by
  obtain ⟨hwf, -, -, -, hmem, -⟩ := sound_of_inv h
  cases hr : s.rstN with
  | released => rw [step_of_released hwf hr]; exact proceed_keeps_inv h
  | asserted => exact ⟨_, step_of_asserted hwf hr, .inl (assertReset_beforeBegin hwf hmem)⟩
  | fallsAfter n =>
    obtain ⟨t, hp, ht⟩ := proceed_keeps_inv (s := { s with rstN := .released }) h
    exact ⟨_, step_of_falls hwf hr hp, interrupt_keeps_inv n h ht⟩

/-- Settles O3: the one next state of a state of the invariant meets it. -/
theorem stepKeepsInvariant : Obligations.StepKeepsInvariant := by
  intro s t h hx
  obtain ⟨u, hu, hinv⟩ := step_keeps_inv h
  rwa [Host.Outcome.next.inj (hx.symm.trans hu)]

/-- Settles O4: a state of the invariant has a next one. -/
theorem stepNeverStops : Obligations.StepNeverStops := by
  intro s h
  obtain ⟨t, ht, -⟩ := step_keeps_inv h
  exact ⟨t, ht⟩

/-- Settles O2: the registers have their widths, the cells are none, and the lines are `X`. -/
theorem resetMeetsInvariant : Obligations.ResetMeetsInvariant := by
  exact ⟨fun _ => resetFor_inv, resetFor_inv rfl⟩

/-- Settles O7: no word is taken. -/
theorem idleBlockWaits : Obligations.IdleBlockWaits := by
  intro s hw hr hq hc
  rw [step_of_released hw hr, proceed_of_no_word hq hc]

/-- Settles O8: reset is one equation over the reset state, and only a pulse in progress costs the cells. -/
theorem resetAssertionStep : Obligations.ResetAssertionStep := by
  intro s hw hr
  rw [step_of_asserted hw hr, assertReset_eq]
  by_cases hp : s.pulse = .off
  · simp only [abandonPulse_of_off hp, if_pos hp, deadCounters]
  · simp only [abandonPulse_of_open hp, if_neg hp, deadCounters, forgetMemory_mem, forgetMemory_memEpoch]

/-- Settles O60: the ports follow the record done again, and the memory its write interval. -/
theorem resetInsideCommand : Obligations.ResetInsideCommand := by
  intro n s t es hinv hr hx htrace
  obtain ⟨hwf, -⟩ := sound_of_inv hinv
  rw [step_of_released (s := { s with rstN := .released }) hwf rfl] at hx
  rw [step_of_falls hwf hr hx, interrupt_eq n htrace]
  refine ⟨fun hlt => by rw [if_neg (by omega)], fun hle => ?_⟩
  rw [if_pos hle]
  obtain ⟨hcfg, hrsp, hepoch, htr, hdiag, hwd, hrd⟩ := replayed (es.take n) s
  have hcells := @assertReset_memory_of_off { replay (es.take n) s with cmds := t.cmds, draws := t.draws }
  have hlost := @assertReset_memory_of_open { replay (es.take n) s with cmds := t.cmds, draws := t.draws }
  refine ⟨_, rfl, ?_, fun hquiet => ?_, fun xs ys hsplit hys => ?_⟩
  · rw [assertReset_eq]
    simp only [hcfg, hrsp, htr, hdiag, hwd, hrd, deadCounters]
  · obtain ⟨hmem, hoff⟩ := replay_quiet_of_inv hinv hquiet
    exact ⟨(hcells hoff).1.trans hmem, (hcells hoff).2.trans hepoch⟩
  · have hopen := replay_in_pulse (pulseSeen_of_inv hinv) xs ys hys
    rw [← hsplit] at hopen
    exact ⟨(hlost hopen).1, (hlost hopen).2.trans (congrArg (· + 1) hepoch)⟩

end Sys2Proof.Machine
